-- ==== Sys2Proof/Word.lean ====
section
/-! DEFINITION. The widths the spec fixes (00_scope.md R6): bytes, and the 32-bit command, result and event words. -/

namespace Sys2Proof

/-- A byte: 8 bits, unsigned (00_scope.md R6). -/
abbrev Byte := BitVec 8

/-- A command, result or event header word: 32 bits, bit 0 least significant (00_scope.md R6, R10). -/
abbrev Word := BitVec 32

/-- The largest value of the 24-bit `count` and `value` fields (30_encoding.md R64). -/
abbrev maxCount : Nat := 16777215

/-- The largest payload the 16-bit length field can announce (00_scope.md R6). -/
abbrev maxPayload : Nat := 65535

end Sys2Proof
end

