-- ==== Sys2Proof/Config.lean ====
section
/-! DEFINITION. What an implementation or a platform fixes and the spec leaves open: free values without a body, and
the capacity at the model's reset. -/

namespace Sys2Proof

/-- The byte that a ring memory cell holds before anything was written to it (10_state.md R15, R29; U1: any value).
A free value for each address. LOG 2. -/
opaque Config.unwrittenByte : Nat → Byte

/-- The number that picks, at the `n`-th choice, one of the agents that have a transition ready (00_scope.md R8,
92_eei_decisions.md D11: none fixed). A free value for each choice. LOG 5. -/
opaque Config.freeChoice : Nat → Nat

/-- The word a port makes of four bytes where a command word is due but the next 32 bits of the port were supplied as
bytes (60_exceptions.md R129). The layout of words in bytes is the platform's (20_memory.md R36, U10): a free value.
LOG 4. -/
opaque Config.wordOfPortBytes : Byte → Byte → Byte → Byte → Word

/-- The byte a port makes of place `i` of a word where an operand byte is due but the next bits of the port were
supplied as a word (20_memory.md R36, U10): a free value. LOG 4. -/
opaque Config.portByteOfWord : Word → Nat → Byte

/-- DESIGN CHOICE (LOG 1): the capacity of the block that `State.reset` describes. The spec leaves it to the caller
(00_scope.md R5). `State.create` gives the reset state for any legal capacity. -/
def Config.resetCapacity : Nat := 10

end Sys2Proof
end

