-- ==== Sys2Proof/Syntax.lean ====
section
/-! DEFINITION. The instructions: one constructor for each row of spec/opcode_table.json, and the names their operands
use. -/

namespace Sys2Proof

/-- The two command ports (00_scope.md R7; 30_encoding.md R57). -/
inductive Port where
  /-- PROD: the producer's port; it accepts RB.WRITE only. -/
  | prod
  /-- HOST: the host's port; it accepts every operation. -/
  | host
deriving DecidableEq, Repr

/-- The operating modes (00_scope.md R12; numbers in 30_encoding.md R52). -/
inductive Mode where
  /-- AT, "Transparent": number 0, not parseable. -/
  | transparent
  /-- API: number 1, parseable. -/
  | api
  /-- API_ESC, "API-Escaped": number 2, parseable. -/
  | apiEsc
  /-- UNKNOWN: number 3, not parseable. -/
  | unknown
deriving DecidableEq, Repr

/-- The byte classes (30_encoding.md R49). -/
inductive ByteClass where
  | delim
  | esc
  | xon
  | xoff
  | data
deriving DecidableEq, Repr

/-- The seven registers of the CSR space (10_state.md R19; 30_encoding.md R58). -/
inductive Csr where
  | ctrl
  | rbCap
  | rbRd
  | rbWr
  | rbAvail
  | dmStatus
  | dmLen
deriving DecidableEq, Repr

/-- What a port carries, in order: a 32-bit command word, or an operand byte (30_encoding.md R53, R54). The spec takes
words as numbers and leaves their layout in bytes to the platform (20_memory.md R36). -/
inductive PortItem where
  | word (w : Word)
  | byte (b : Byte)
deriving DecidableEq, Repr

/-- The instructions. A host operation carries the port it arrived on and its operands (30_encoding.md R54, R55); a
DM.STEP carries the byte it consumes where its class does not fix it (30_encoding.md R49); a derived form carries the
bytes its pattern leaves open (30_encoding.md R45, R50). -/
inductive Instr where
  /-- RB.WRITE: the bytes to write, `count` of them. -/
  | rbWrite (port : Port) (data : List Byte)
  /-- RB.READ: the maximum number of bytes to read. -/
  | rbRead (port : Port) (count : BitVec 24)
  /-- RB.SKIP: the maximum number of bytes to skip. -/
  | rbSkip (port : Port) (count : BitVec 24)
  /-- RB.AVAIL. -/
  | rbAvail (port : Port)
  /-- FC.CHECKSUM: the bytes to sum. -/
  | fcChecksum (port : Port) (data : List Byte)
  /-- FC.ESCAPE: the bytes to stuff. -/
  | fcEscape (port : Port) (data : List Byte)
  /-- FC.UNESCAPE: the bytes to unstuff. -/
  | fcUnescape (port : Port) (data : List Byte)
  /-- FC.ENCODE: the mode, and the operand stream: the frame-type byte and then the body (empty when `count` is 0). -/
  | fcEncode (port : Port) (mode : Mode) (operand : List Byte)
  /-- FC.DECODE: the mode, and the bytes meant to hold one frame. -/
  | fcDecode (port : Port) (mode : Mode) (data : List Byte)
  /-- CSR.READ: the register number. -/
  | csrRead (port : Port) (csr : BitVec 8)
  /-- CSR.WRITE: the register number and the 16-bit value. -/
  | csrWrite (port : Port) (csr : BitVec 8) (value : BitVec 16)
  /-- DM.STEP.DELIM: one DM.STEP on the byte 0x7E. -/
  | dmStepDelim
  /-- DM.STEP.ESC: one DM.STEP on the byte 0x7D. -/
  | dmStepEsc
  /-- DM.STEP.XON: one DM.STEP on the byte 0x11. -/
  | dmStepXon
  /-- DM.STEP.XOFF: one DM.STEP on the byte 0x13. -/
  | dmStepXoff
  /-- DM.STEP.DATA: one DM.STEP on any other byte. -/
  | dmStepData (b : Byte)
  /-- ESCPAIR: the wire bytes 0x7D, v. -/
  | escPair (v : Byte)
  /-- FRAMEHDR: the wire bytes 0x7E, lenHi, lenLo. -/
  | frameHdr (lenHi lenLo : Byte)
deriving DecidableEq, Repr

/-- Why a command word is illegal (30_encoding.md R56). -/
inductive Illegal where
  /-- `op` is 0x0 or 0xC to 0xF. -/
  | reservedOp
  /-- Bits 25:24 are not 0. -/
  | reservedBits
  /-- `mode` is not 0 on an operation other than FC.ENCODE and FC.DECODE. -/
  | modeField
  /-- `count` is not 0 for RB.AVAIL, or `count[23:8]` is not 0 for CSR.READ. -/
  | countField
deriving DecidableEq, Repr

/-- What a port's stream begins with. -/
inductive Decoded where
  /-- Not yet a whole command: more items have to arrive. -/
  | incomplete
  /-- A command word that is no operation, its operand bytes already taken (60_exceptions.md R129). -/
  | illegal (why : Illegal) (rest : List PortItem)
  /-- A command with all its operand bytes. -/
  | command (i : Instr) (rest : List PortItem)
deriving DecidableEq, Repr

end Sys2Proof
end

