-- ==== Sys2Proof/WellFormed.lean ====
section
/-! DEFINITION. Which instructions an encoding can carry. -/

namespace Sys2Proof

/-- An operand stream has at most 2^24 - 1 bytes, the bound of the 24-bit count (30_encoding.md R64). -/
def operandFits (data : List Byte) : Bool := data.length ≤ maxCount

/-- A byte of class DATA is none of the four special bytes (30_encoding.md R49). -/
def isDataByte (b : Byte) : Bool := b != 0x7E#8 && b != 0x7D#8 && b != 0x11#8 && b != 0x13#8

/-- The instructions that have an encoding. -/
def Instr.wellFormed : Instr → Bool
  | .rbWrite _ data => operandFits data
  | .rbRead _ _ => true
  | .rbSkip _ _ => true
  | .rbAvail _ => true
  | .fcChecksum _ data => operandFits data
  | .fcEscape _ data => operandFits data
  | .fcUnescape _ data => operandFits data
  | .fcEncode _ _ operand => operandFits operand
  | .fcDecode _ _ data => operandFits data
  | .csrRead _ _ => true
  | .csrWrite _ _ _ => true
  | .dmStepDelim => true
  | .dmStepEsc => true
  | .dmStepXon => true
  | .dmStepXoff => true
  | .dmStepData b => isDataByte b
  | .escPair _ => true
  | .frameHdr _ _ => true

end Sys2Proof
end

