-- ==== Sys2Proof/Decode.lean ====
section
/-! DEFINITION. From port items and wire bytes to instructions, and back (30_encoding.md). -/

namespace Sys2Proof

/-! ## Special bytes and byte classes -/

/-- DELIM (00_scope.md R12). -/
abbrev delimByte : Byte := 0x7E#8
/-- ESC (00_scope.md R12). -/
abbrev escByte : Byte := 0x7D#8
/-- XON (00_scope.md R12). -/
abbrev xonByte : Byte := 0x11#8
/-- XOFF (00_scope.md R12). -/
abbrev xoffByte : Byte := 0x13#8
/-- MASK (00_scope.md R12). -/
abbrev escMask : Byte := 0x20#8

/-- `class(b)` (30_encoding.md R49). -/
def byteClass (b : Byte) : ByteClass :=
  if b = delimByte then .delim
  else if b = escByte then .esc
  else if b = xonByte then .xon
  else if b = xoffByte then .xoff
  else .data

/-- `b` is in SPECIAL (00_scope.md R12). -/
def isSpecial (b : Byte) : Bool := byteClass b != .data

/-! ## Operating mode numbers -/

/-- The number of a mode (30_encoding.md R52). -/
def modeNum : Mode → BitVec 2
  | .transparent => 0#2
  | .api => 1#2
  | .apiEsc => 2#2
  | .unknown => 3#2

/-- The mode of a number (30_encoding.md R52). -/
def modeOfNum (m : BitVec 2) : Mode :=
  if m = 0#2 then .transparent else if m = 1#2 then .api else if m = 2#2 then .apiEsc else .unknown

/-! ## The command word (30_encoding.md R53) -/

/-- Bits 31:28, the operation code. -/
def opField (w : Word) : BitVec 4 := w.extractLsb' 28 4
/-- Bits 27:26, the operating mode. -/
def modeField (w : Word) : BitVec 2 := w.extractLsb' 26 2
/-- Bits 25:24, reserved. -/
def reservedField (w : Word) : BitVec 2 := w.extractLsb' 24 2
/-- Bits 23:0, the count. -/
def countField (w : Word) : BitVec 24 := w.extractLsb' 0 24
/-- Bits 7:0, the register number of a CSR operation. -/
def csrField (w : Word) : BitVec 8 := w.extractLsb' 0 8
/-- Bits 23:8, the value of CSR.WRITE. -/
def valueField (w : Word) : BitVec 16 := w.extractLsb' 8 16

/-- `op` belongs to no operation (30_encoding.md R55, R56). -/
def opIsReserved (op : BitVec 4) : Bool := op = 0x0#4 || 0xC#4 ≤ op

/-- `op` is followed by `count` operand bytes (30_encoding.md R54). -/
def opTakesOperand (op : BitVec 4) : Bool := op = 0x1#4 || (0x5#4 ≤ op && op ≤ 0x9#4)

/-- `op` uses the mode field: FC.ENCODE and FC.DECODE (30_encoding.md R53). -/
def opTakesMode (op : BitVec 4) : Bool := op = 0x8#4 || op = 0x9#4

/-- `n_in`: how many operand bytes follow a command word, a function of `op` and `count` alone (30_encoding.md R54,
60_exceptions.md R129). -/
def operandCount (w : Word) : Nat := if opTakesOperand (opField w) then (countField w).toNat else 0

/-- The command of a word and its operand bytes, or why the word is illegal (30_encoding.md R55, R56). -/
def decodeCommand (p : Port) (w : Word) (operand : List Byte) : Except Illegal Instr :=
  if opIsReserved (opField w) then .error .reservedOp
  else if reservedField w ≠ 0#2 then .error .reservedBits
  else if modeField w ≠ 0#2 ∧ ¬ opTakesMode (opField w) then .error .modeField
  else if opField w = 0x1#4 then .ok (.rbWrite p operand)
  else if opField w = 0x2#4 then .ok (.rbRead p (countField w))
  else if opField w = 0x3#4 then .ok (.rbSkip p (countField w))
  else if opField w = 0x4#4 then (if countField w ≠ 0#24 then .error .countField else .ok (.rbAvail p))
  else if opField w = 0x5#4 then .ok (.fcChecksum p operand)
  else if opField w = 0x6#4 then .ok (.fcEscape p operand)
  else if opField w = 0x7#4 then .ok (.fcUnescape p operand)
  else if opField w = 0x8#4 then .ok (.fcEncode p (modeOfNum (modeField w)) operand)
  else if opField w = 0x9#4 then .ok (.fcDecode p (modeOfNum (modeField w)) operand)
  else if opField w = 0xA#4 then (if valueField w ≠ 0#16 then .error .countField else .ok (.csrRead p (csrField w)))
  else .ok (.csrWrite p (csrField w) (valueField w))

/-! ## A port's stream -/

/-- The next `n` operand bytes of a port and what follows them. A word standing where bytes are due is taken byte by
byte (LOG 4). -/
def takeBytes : Nat → List PortItem → Option (List Byte × List PortItem)
  | 0, q => some ([], q)
  | _ + 1, [] => none
  | n + 1, .byte b :: q => (takeBytes n q).map fun r => (b :: r.1, r.2)
  | n + 1, .word w :: q =>
    (takeBytes n (.byte (Config.portByteOfWord w 1) :: .byte (Config.portByteOfWord w 2) ::
      .byte (Config.portByteOfWord w 3) :: q)).map fun r => (Config.portByteOfWord w 0 :: r.1, r.2)

/-- The next command word of a port and what follows it. Where the next 32 bits were supplied as bytes (after an illegal
`op` whose sender meant them as operands, 60_exceptions.md R129), the word is the platform's reading of them (LOG 4). -/
def takeWord : List PortItem → Option (Word × List PortItem)
  | .word w :: q => some (w, q)
  | q =>
    match takeBytes 4 q with
    | some ([b0, b1, b2, b3], rest) => some (Config.wordOfPortBytes b0 b1 b2 b3, rest)
    | _ => none

/-- What a port's stream begins with: a command word and its `n_in` operand bytes, which are consumed whatever the
command's outcome (30_encoding.md R54, 60_exceptions.md R129). -/
def decodePort (p : Port) (q : List PortItem) : Decoded :=
  match takeWord q with
  | none => .incomplete
  | some (w, q1) =>
    match takeBytes (operandCount w) q1 with
    | none => .incomplete
    | some (operand, rest) =>
      match decodeCommand p w operand with
      | .error why => .illegal why rest
      | .ok i => .command i rest

/-! ## The wire forms -/

/-- The DM.STEP row of a byte (30_encoding.md R49, section 7). -/
def decodeByte (b : Byte) : Instr :=
  match byteClass b with
  | .delim => .dmStepDelim
  | .esc => .dmStepEsc
  | .xon => .dmStepXon
  | .xoff => .dmStepXoff
  | .data => .dmStepData b

/-- The wire forms of one, two and three bytes: a byte class, ESCPAIR, FRAMEHDR (30_encoding.md section 7). -/
def decodeWire : List Byte → Option Instr
  | [b] => some (decodeByte b)
  | [e, v] => if e = escByte then some (.escPair v) else none
  | [d, hi, lo] => if d = delimByte then some (.frameHdr hi lo) else none
  | _ => none

/-- The instruction of a row's bits as spec/opcode_table.json numbers them: a 32-bit command word on HOST with operand
bytes of zeros, or one, two or three wire bytes, first byte in the highest bits. -/
def decodeTableWord (nbits w : Nat) : Option Instr :=
  match nbits with
  | 8 => decodeWire [BitVec.ofNat 8 w]
  | 16 => decodeWire [BitVec.ofNat 8 (w / 256), BitVec.ofNat 8 w]
  | 24 => decodeWire [BitVec.ofNat 8 (w / 65536), BitVec.ofNat 8 (w / 256), BitVec.ofNat 8 w]
  | 32 =>
    let word := BitVec.ofNat 32 w
    (decodeCommand .host word (List.replicate (operandCount word) 0#8)).toOption
  | _ => none

/-! ## The encoder -/

/-- The command word of its fields (30_encoding.md R53). -/
def commandWord (op : BitVec 4) (mode : BitVec 2) (count : BitVec 24) : Word := op ++ mode ++ 0#2 ++ count

/-- A command word whose count is the length of its operand, and the operand (30_encoding.md R54, R55). -/
def encodeWithOperand (op : BitVec 4) (mode : BitVec 2) (operand : List Byte) : List PortItem :=
  .word (commandWord op mode (BitVec.ofNat 24 operand.length)) :: operand.map .byte

/-- The items that carry an instruction: a host operation's command word and operand bytes (30_encoding.md R55), a
wire form's bytes (30_encoding.md R45, R49, R50). -/
def encode : Instr → List PortItem
  | .rbWrite _ data => encodeWithOperand 0x1#4 0#2 data
  | .rbRead _ count => [.word (commandWord 0x2#4 0#2 count)]
  | .rbSkip _ count => [.word (commandWord 0x3#4 0#2 count)]
  | .rbAvail _ => [.word (commandWord 0x4#4 0#2 0#24)]
  | .fcChecksum _ data => encodeWithOperand 0x5#4 0#2 data
  | .fcEscape _ data => encodeWithOperand 0x6#4 0#2 data
  | .fcUnescape _ data => encodeWithOperand 0x7#4 0#2 data
  | .fcEncode _ mode operand => encodeWithOperand 0x8#4 (modeNum mode) operand
  | .fcDecode _ mode data => encodeWithOperand 0x9#4 (modeNum mode) data
  | .csrRead _ csr => [.word (commandWord 0xA#4 0#2 (0#16 ++ csr))]
  | .csrWrite _ csr value => [.word (commandWord 0xB#4 0#2 (value ++ csr))]
  | .dmStepDelim => [.byte delimByte]
  | .dmStepEsc => [.byte escByte]
  | .dmStepXon => [.byte xonByte]
  | .dmStepXoff => [.byte xoffByte]
  | .dmStepData b => [.byte b]
  | .escPair v => [.byte escByte, .byte v]
  | .frameHdr hi lo => [.byte delimByte, .byte hi, .byte lo]

/-- The port a host operation arrived on; none for the demultiplexer's own forms. -/
def Instr.port? : Instr → Option Port
  | .rbWrite p _ => some p
  | .rbRead p _ => some p
  | .rbSkip p _ => some p
  | .rbAvail p => some p
  | .fcChecksum p _ => some p
  | .fcEscape p _ => some p
  | .fcUnescape p _ => some p
  | .fcEncode p _ _ => some p
  | .fcDecode p _ _ => some p
  | .csrRead p _ => some p
  | .csrWrite p _ _ => some p
  | .dmStepDelim => none
  | .dmStepEsc => none
  | .dmStepXon => none
  | .dmStepXoff => none
  | .dmStepData _ => none
  | .escPair _ => none
  | .frameHdr _ _ => none

end Sys2Proof
end

