-- ==== Sys2Proof/Machine/State.lean ====
section
/-! DEFINITION. The state of the block (10_state.md R13), its parameter, and the interface through which a test runs
and observes it (70_reset_and_hazards.md R151, R152). -/

namespace Sys2Proof.Machine

/-- The ring memory: the cells written so far, by address. A cell that is not listed has never been written.
Canonical form: addresses strictly rising (`Memory.wf`). -/
structure Memory where
  cells : List Host.Cell
deriving DecidableEq, Repr

/-- The demultiplexer's position (10_state.md R26; numbers in R24). -/
inductive DmState where
  | hunt
  | lenHi
  | lenLo
  | payload
  | checksum
deriving DecidableEq, Repr

/-- The kinds of Error and Refused outcomes (60_exceptions.md R119). -/
inductive ErrorKind where
  | modeError
  | operandError
  | badDelimiter
  | specialByteNotEscaped
  | incompletePacket
  | invalidChecksum
  | illegalCommand
  | portViolation
deriving DecidableEq, Repr

/-- An error with its info byte, 0 where the kind has none (30_encoding.md R60, 60_exceptions.md R119). -/
structure CmdError where
  kind : ErrorKind
  info : Byte
deriving DecidableEq, Repr

/-- An event of `out.events` (10_state.md R25). -/
inductive Event where
  /-- A payload whose envelope passed both validators. -/
  | frame (payload : List Byte)
  /-- A framing error with its info byte. -/
  | err (kind : ErrorKind) (info : Byte)
deriving DecidableEq, Repr

/-- The answer to one command: the result word and the output bytes after it (30_encoding.md R60); also the shape of an
event record: header word and payload bytes (R59). -/
structure Response where
  word : Word
  bytes : List Byte
deriving DecidableEq, Repr

/-- One entry of a schedule (70_reset_and_hazards.md R151): whose transition comes next. -/
inductive Turn where
  /-- The next command of the PROD port. -/
  | prod
  /-- The next command of the HOST port. -/
  | host
  /-- One DM.STEP. -/
  | demux
  /-- Two DM.STEPs with no other agent's operation between them, on the two bytes of an ESCPAIR (LOG 8). -/
  | demuxPair
  /-- Three DM.STEPs with no other agent's operation between them, on the three bytes of a FRAMEHDR (LOG 8). -/
  | demuxHeader
deriving DecidableEq, Repr

/-- The whole state. -/
structure State where
  /-- The parameter CAP, the ring buffer's capacity (00_scope.md R5). No operation changes it. LOG 1. -/
  cap : Nat
  /-- `rb.mem` (10_state.md R15). -/
  rbMem : Memory
  /-- `rb.rd` (10_state.md R16). -/
  rbRd : Nat
  /-- `rb.wr` (10_state.md R16). -/
  rbWr : Nat
  /-- `rb.avail` (10_state.md R17). -/
  rbAvail : Nat
  /-- `ctl.run` (10_state.md R20). -/
  ctlRun : Bool
  /-- `ctl.mode` (10_state.md R20). -/
  ctlMode : Mode
  /-- `dm.state` (10_state.md R26). -/
  dmState : DmState
  /-- `dm.esc` (10_state.md R18, R26). -/
  dmEsc : Bool
  /-- `dm.len` (10_state.md R27). -/
  dmLen : BitVec 16
  /-- `dm.fb` (10_state.md R27). -/
  dmFb : List Byte
  /-- `dm.sum` (10_state.md R27). -/
  dmSum : Byte
  /-- `out.events`, oldest first (10_state.md R25). -/
  events : List Event
  /-- The model's own: what is still to come on port PROD (70_reset_and_hazards.md R151). LOG 3. -/
  prodIn : List PortItem
  /-- The model's own: what is still to come on port HOST (70_reset_and_hazards.md R151). LOG 3. -/
  hostIn : List PortItem
  /-- The model's own: what port PROD has answered, oldest first (70_reset_and_hazards.md R152). LOG 10. -/
  prodOut : List Response
  /-- The model's own: what port HOST has answered, oldest first (70_reset_and_hazards.md R152). LOG 10. -/
  hostOut : List Response
  /-- The model's own: the schedule still to be followed (70_reset_and_hazards.md R151). LOG 5. -/
  sched : List Turn
  /-- The model's own: how many scheduling choices the free value has made. LOG 5. -/
  choices : Nat
deriving DecidableEq, Repr

/-- Why the machine stops. -/
inductive Fault where
  /-- An access to ring memory at an address that does not exist, `addr >= CAP` (00_scope.md R11, 20_memory.md R31).
  Raised by `memRead` and `memWrite`. Safe: the indices stay below CAP from reset on (40_ring_buffer.md R72), so no run
  of the block makes such an access. LOG 12. -/
  | ringAddress (addr : Nat)
deriving DecidableEq, Repr

/-- Why an instruction has no meaning in the model. -/
inductive Refusal where
  /-- The instruction has no meaning yet. Raised by an arm of `exec` only; no arm raises it. Safe: the run stops. -/
  | notModelled (mnemonic : String)
deriving DecidableEq, Repr

/-- The outcomes of a step of this machine. -/
abbrev Outcome := Host.Outcome State Fault Refusal

/-- The capacities a block can be created with (00_scope.md R5): 1 to 2^24 - 1. -/
abbrev LegalCapacity (capacity : Nat) : Prop := 1 ≤ capacity ∧ capacity ≤ 16777215

/-- The reset state of a block created with a legal capacity (10_state.md R29, 70_reset_and_hazards.md R137, R138): nothing
is scheduled and nothing has been sent on a port (LOG 3, LOG 5, LOG 10). -/
def State.resetWith (capacity : Nat) (_ : LegalCapacity capacity) : State where
  cap := capacity
  rbMem := ⟨[]⟩
  rbRd := 0
  rbWr := 0
  rbAvail := 0
  ctlRun := false
  ctlMode := .transparent
  dmState := .hunt
  dmEsc := false
  dmLen := 0#16
  dmFb := []
  dmSum := 0#8
  events := []
  prodIn := []
  hostIn := []
  prodOut := []
  hostOut := []
  sched := []
  choices := 0

/-- The creation of a block (70_reset_and_hazards.md R137): its reset state, and none for a capacity outside the
parameter's range, 0 among them, which the model refuses to instantiate (00_scope.md R5, 40_ring_buffer.md R76). -/
def State.create (capacity : Nat) : Option State :=
  if legal : LegalCapacity capacity then some (State.resetWith capacity legal) else none

/-- The machine right after reset (10_state.md R29), with the capacity LOG 1 names. -/
def State.reset : State := State.resetWith Config.resetCapacity (by decide)

end Sys2Proof.Machine
end

