-- ==== Sys2Proof/Machine/Operands.lean ====
section
/-! DEFINITION. Operand forms and the numbers that operands and answers are carried in. -/

namespace Sys2Proof.Machine

/-- Elements `offset` to `offset + count - 1` of a caller's array (00_scope.md R10, 30_encoding.md R54). -/
def slice (data : List Byte) (offset count : Nat) : List Byte := (data.drop offset).take count

/-- A caller's array with the elements from `offset` on replaced by `new` (40_ring_buffer.md R69). -/
def overwriteSlice (data : List Byte) (offset : Nat) (new : List Byte) : List Byte :=
  data.take offset ++ new ++ data.drop (offset + new.length)

/-- A number in the 24-bit `value` field of a result word (30_encoding.md R60). LOG 15. -/
def toValue (n : Nat) : BitVec 24 := BitVec.ofNat 24 n

/-- A byte in the low bits of the 24-bit `value` field (30_encoding.md R60). -/
def byteValue (b : Byte) : BitVec 24 := 0#16 ++ b

/-- The result word of a code and a value: code 31:28, zero 27:24, value 23:0 (30_encoding.md R60). -/
def resultWord (code : BitVec 4) (value : BitVec 24) : Word := code ++ 0#4 ++ value

/-- The code of an error kind (60_exceptions.md R119). -/
def ErrorKind.code : ErrorKind → BitVec 4
  | .modeError => 1#4
  | .operandError => 2#4
  | .badDelimiter => 3#4
  | .specialByteNotEscaped => 4#4
  | .incompletePacket => 5#4
  | .invalidChecksum => 6#4
  | .illegalCommand => 7#4
  | .portViolation => 8#4

/-- The kinds of class Refused; the others are of class Error (60_exceptions.md R119). -/
def ErrorKind.isRefusal : ErrorKind → Bool
  | .illegalCommand => true
  | .portViolation => true
  | .modeError => false
  | .operandError => false
  | .badDelimiter => false
  | .specialByteNotEscaped => false
  | .incompletePacket => false
  | .invalidChecksum => false

/-- ModeError (60_exceptions.md R120). -/
def modeErr : CmdError := ⟨.modeError, 0#8⟩
/-- OperandError (60_exceptions.md R121). -/
def operandErr : CmdError := ⟨.operandError, 0#8⟩
/-- BadDelimiter, with the byte found at index 0 (60_exceptions.md R122). -/
def badDelimErr (found : Byte) : CmdError := ⟨.badDelimiter, found⟩
/-- SpecialByteNotEscaped, with the offending byte (60_exceptions.md R123). -/
def specialErr (offending : Byte) : CmdError := ⟨.specialByteNotEscaped, offending⟩
/-- IncompletePacket (60_exceptions.md R124). -/
def incompleteErr : CmdError := ⟨.incompletePacket, 0#8⟩
/-- InvalidChecksum, with the expected checksum (60_exceptions.md R125). -/
def checksumErr (expected : Byte) : CmdError := ⟨.invalidChecksum, expected⟩
/-- IllegalCommand (60_exceptions.md R126). -/
def illegalErr : CmdError := ⟨.illegalCommand, 0#8⟩
/-- PortViolation (60_exceptions.md R127). -/
def portErr : CmdError := ⟨.portViolation, 0#8⟩

/-- A mode the codec and the demultiplexer accept (00_scope.md R12: PARSEABLE). -/
def parseable : Mode → Bool
  | .transparent => false
  | .api => true
  | .apiEsc => true
  | .unknown => false

/-- The number of a demultiplexer state (10_state.md R24). -/
def dmStateNum : DmState → BitVec 3
  | .hunt => 0#3
  | .lenHi => 1#3
  | .lenLo => 2#3
  | .payload => 3#3
  | .checksum => 4#3

/-- The register of a CSR number; 0x07 to 0xFF name none (30_encoding.md R58, 43_control.md R116). -/
def csrOfNum (n : BitVec 8) : Option Csr :=
  match n.toNat with
  | 0 => some .ctrl
  | 1 => some .rbCap
  | 2 => some .rbRd
  | 3 => some .rbWr
  | 4 => some .rbAvail
  | 5 => some .dmStatus
  | 6 => some .dmLen
  | _ => none

/-- The number of a CSR (30_encoding.md R58). -/
def csrNum : Csr → BitVec 8
  | .ctrl => 0#8
  | .rbCap => 1#8
  | .rbRd => 2#8
  | .rbWr => 3#8
  | .rbAvail => 4#8
  | .dmStatus => 5#8
  | .dmLen => 6#8

/-- Bit 0 of a value for CTRL (10_state.md R20). -/
def ctrlRunBit (value : BitVec 16) : Bool := value.getLsbD 0

/-- Bits 2:1 of a value for CTRL (10_state.md R20). -/
def ctrlModeField (value : BitVec 16) : Mode := modeOfNum (value.extractLsb' 1 2)

/-- A value for CTRL sets one of the reserved bits 15:3 (43_control.md R117). -/
def ctrlReservedSet (value : BitVec 16) : Bool := 8#16 ≤ value

end Sys2Proof.Machine
end

