-- ==== Sys2Proof/Machine/Codec.lean ====
section
/-! DEFINITION. The pure functions of the frame codec (41_frame_codec.md R77 to R90). They read and write no state
(10_state.md R28). -/

namespace Sys2Proof.Machine

/-- The sum of the bytes modulo 256, first byte first (41_frame_codec.md R77). -/
def sumBytes (bytes : List Byte) : Byte := bytes.foldl (· + ·) 0#8

/-- `cks` (41_frame_codec.md R77). -/
def cks (payload : List Byte) : Byte := 0xFF#8 - sumBytes payload

/-- `esc`, the byte-stuffing transform (41_frame_codec.md R79). -/
def stuff : List Byte → List Byte
  | [] => []
  | b :: rest => if isSpecial b then escByte :: (b ^^^ escMask) :: stuff rest else b :: stuff rest

/-- The scan of `unesc` (41_frame_codec.md R81); the flag says that the byte before was an escape prefix. The byte after
a prefix is XORed whatever it is; a prefix with nothing after it is IncompletePacket. -/
def unstuffFrom : Bool → List Byte → Except CmdError (List Byte)
  | false, [] => .ok []
  | true, [] => .error incompleteErr
  | true, b :: rest => (unstuffFrom false rest).map fun out => (b ^^^ escMask) :: out
  | false, b :: rest =>
    if b = escByte then unstuffFrom true rest
    else if isSpecial b then .error (specialErr b)
    else (unstuffFrom false rest).map fun out => b :: out

/-- `unesc`, the reverse transform (41_frame_codec.md R81). -/
def unstuff (bytes : List Byte) : Except CmdError (List Byte) := unstuffFrom false bytes

/-- The length field of its two bytes, high byte first (30_encoding.md R46). -/
def frameLength (hi lo : Byte) : BitVec 16 := hi.setWidth 16 * 256#16 + lo.setWidth 16

/-- The content region of a frame before stuffing (41_frame_codec.md R83). -/
def envelope (payload : List Byte) : List Byte :=
  let len := BitVec.ofNat 16 payload.length
  len.extractLsb' 8 8 :: len.extractLsb' 0 8 :: (payload ++ [cks payload])

/-- The API-mode frame of a payload (30_encoding.md R45). -/
def apiFrame (payload : List Byte) : List Byte := delimByte :: envelope payload

/-- The API-Escaped frame of a payload (30_encoding.md R48): the delimiter is not stuffed. -/
def escapedFrame (payload : List Byte) : List Byte := delimByte :: stuff (envelope payload)

/-- FC.ESCAPE: an output that does not fit the 24-bit length is OperandError (41_frame_codec.md R80). -/
def escapeOp (data : List Byte) : Except CmdError (List Byte) :=
  let out := stuff data
  if maxCount < out.length then .error operandErr else .ok out

/-- FC.ENCODE (41_frame_codec.md R84). The operand stream is the frame-type byte and then the body. LOG 13. -/
def encodeOp (mode : Mode) (operand : List Byte) : Except CmdError (List Byte) :=
  if parseable mode = false then .error modeErr
  else if operand.isEmpty then .error operandErr
  else if maxPayload < operand.length then .error operandErr
  else if mode = .api then .ok (apiFrame operand)
  else .ok (escapedFrame operand)

/-- The length validator and the checksum validator on the unstuffed bytes after the delimiter: steps 3 to 5 of
FC.DECODE (41_frame_codec.md R86, R88, R89). -/
def validateContent : List Byte → Except CmdError (List Byte)
  | hi :: lo :: body =>
    if body.length < (frameLength hi lo).toNat + 1 then .error incompleteErr
    else
      let payload := body.take (frameLength hi lo).toNat
      match body.drop (frameLength hi lo).toNat with
      | [] => .error incompleteErr
      | c :: _ => if c = cks payload then .ok payload else .error (checksumErr (cks payload))
  | _ => .error incompleteErr

/-- The bytes after the delimiter with the stuffing removed: step 2 of FC.DECODE (41_frame_codec.md R86). -/
def contentOf (mode : Mode) (region : List Byte) : Except CmdError (List Byte) :=
  if mode = .apiEsc then unstuff region else .ok region

/-- FC.DECODE (41_frame_codec.md R86). -/
def decodeOp (mode : Mode) (data : List Byte) : Except CmdError (List Byte) :=
  if parseable mode = false then .error modeErr
  else
    match data with
    | [] => .error incompleteErr
    | d :: region =>
      if d ≠ delimByte then .error (badDelimErr d)
      else
        match contentOf mode region with
        | .error e => .error e
        | .ok content => validateContent content

/-- The hand-over of a validated payload: the frame type and the body, none when it is empty (41_frame_codec.md R90). -/
def handOver : List Byte → Option (Byte × List Byte)
  | [] => none
  | frameType :: body => some (frameType, body)

end Sys2Proof.Machine
end

