-- ==== Sys2Proof/Machine/Flags.lean ====
section
/-! DEFINITION. The conditions the block computes from its state, and the CSR views (10_state.md R18 to R24,
60_exceptions.md R132). -/

namespace Sys2Proof.Machine

/-- `rb.empty` (10_state.md R18). -/
def rbEmpty (s : State) : Bool := s.rbAvail == 0

/-- `rb.full` (10_state.md R18). -/
def rbFull (s : State) : Bool := s.rbAvail == s.cap

/-- The level indication `data_avail` (60_exceptions.md R132). -/
def dataAvail (s : State) : Bool := s.rbAvail != 0

/-- How many events of `out.events` the sink has taken: all of them, in every state, because the sink is always ready and
takes an event in the transition that emits it (60_exceptions.md R132, 92_eei_decisions.md D22). LOG 17. -/
def eventsTaken (s : State) : Nat := s.events.length

/-- The events of `out.events` the sink has not taken. -/
def untakenEvents (s : State) : List Event := s.events.drop (eventsTaken s)

/-- The level indication `event_valid`: `out.events` has an event the sink has not taken (60_exceptions.md R132). LOG 17. -/
def eventValid (s : State) : Bool := !(untakenEvents s).isEmpty

/-- The events that the sink takes in the transition from `before` to `after`: those it has emitted (10_state.md R25). -/
def eventsEmitted (before after : State) : List Event := after.events.drop (eventsTaken before)

/-- DM.STEP is enabled (42_demux.md R94). -/
def dmEnabled (s : State) : Bool := s.ctlRun && parseable s.ctlMode && dataAvail s

/-- CTRL: run in bit 0, mode in bits 2:1 (10_state.md R20, 43_control.md R111). -/
def ctrlValue (s : State) : BitVec 24 := 0#21 ++ modeNum s.ctlMode ++ BitVec.ofBool s.ctlRun

/-- DM_STATUS: state in bits 2:0, esc in bit 3, sum in bits 15:8 (10_state.md R24, 43_control.md R111). -/
def dmStatusValue (s : State) : BitVec 24 :=
  0#8 ++ s.dmSum ++ 0#4 ++ BitVec.ofBool s.dmEsc ++ dmStateNum s.dmState

/-- DM_LEN: len in bits 15:0 (10_state.md R24, 43_control.md R111). -/
def dmLenValue (s : State) : BitVec 24 := 0#8 ++ s.dmLen

/-- `csr_value` (43_control.md R111). -/
def csrValue (s : State) : Csr → BitVec 24
  | .ctrl => ctrlValue s
  | .rbCap => toValue s.cap
  | .rbRd => toValue s.rbRd
  | .rbWr => toValue s.rbWr
  | .rbAvail => toValue s.rbAvail
  | .dmStatus => dmStatusValue s
  | .dmLen => dmLenValue s

end Sys2Proof.Machine
end

