-- ==== Sys2Proof/Machine/Ops.lean ====
section
/-! DEFINITION. The named operations over ring memory, the ring registers, the ports, the event list and the
demultiplexer's registers. Every read and write of state goes through one of them. -/

namespace Sys2Proof.Machine

/-! ## Ring memory -/

/-- The byte listed for an address. -/
def lookupCell (a : Nat) : List Host.Cell → Option Byte
  | [] => none
  | (x, y) :: rest => if a = x then some y else lookupCell a rest

/-- The cells with `b` at `a`, addresses kept strictly rising. -/
def insertCell (a : Nat) (b : Byte) : List Host.Cell → List Host.Cell
  | [] => [(a, b)]
  | (x, y) :: rest =>
    if a < x then (a, b) :: (x, y) :: rest
    else if a = x then (a, b) :: rest
    else (x, y) :: insertCell a b rest

/-- The byte a cell holds; none for a cell that was never written (10_state.md R15). -/
def Memory.read (m : Memory) (a : Nat) : Option Byte := lookupCell a m.cells

/-- The memory with `b` at `a`. -/
def Memory.write (m : Memory) (a : Nat) (b : Byte) : Memory := ⟨insertCell a b m.cells⟩

/-- The canonical form: addresses strictly rising. What an unlisted address reads as is no value (LOG 2), so no entry can
equal it. -/
abbrev Memory.wf (m : Memory) : Prop := m.cells.Pairwise fun c d => c.1 < d.1

/-- What a ring cell reads as: the byte written last, or the free value of a cell never written (U1, LOG 2). -/
def cellValue (s : State) (a : Nat) : Byte := (s.rbMem.read a).getD (Config.unwrittenByte a)

/-- `MemRead(addr, 1)` (00_scope.md R11). -/
def memRead (a : Nat) (s : State) : Except Fault Byte :=
  if a < s.cap then .ok (cellValue s a) else .error (.ringAddress a)

/-- `MemWrite(addr, 1, v)` (00_scope.md R11). -/
def memWrite (a : Nat) (b : Byte) (s : State) : Except Fault State :=
  if a < s.cap then .ok { s with rbMem := s.rbMem.write a b } else .error (.ringAddress a)

/-! ## Ring registers (40_ring_buffer.md R65, R66) -/

/-- The index after `i`, modulo CAP (20_memory.md R32). -/
def nextIndex (s : State) (i : Nat) : Nat := (i + 1) % s.cap

/-- The registers after one byte was stored: the write index advances; a full buffer loses its oldest byte, another
buffer's count grows (40_ring_buffer.md R65). -/
def State.rbPushed (s : State) : State :=
  { s with
    rbWr := nextIndex s s.rbWr
    rbRd := if rbFull s then nextIndex s s.rbRd else s.rbRd
    rbAvail := if rbFull s then s.rbAvail else s.rbAvail + 1 }

/-- The registers after the `n` oldest unread bytes were removed (40_ring_buffer.md R66, R70). -/
def State.rbConsumed (n : Nat) (s : State) : State :=
  { s with rbRd := (s.rbRd + n) % s.cap, rbAvail := s.rbAvail - n }

/-- `rb_push(b)` (40_ring_buffer.md R65). -/
def rbPush (b : Byte) (s : State) : Except Fault State :=
  match memWrite s.rbWr b s with
  | .error f => .error f
  | .ok t => .ok t.rbPushed

/-- `rb_pop()`, for callers that have checked `rb.avail > 0` (40_ring_buffer.md R66). -/
def rbPop (s : State) : Except Fault (Byte × State) :=
  match memRead s.rbRd s with
  | .error f => .error f
  | .ok b => .ok (b, s.rbConsumed 1)

/-- The loop of RB.WRITE: each byte in turn through `rb_push` (40_ring_buffer.md R67). -/
def rbPushAll : List Byte → State → Except Fault State
  | [], s => .ok s
  | b :: rest, s =>
    match rbPush b s with
    | .error f => .error f
    | .ok t => rbPushAll rest t

/-- The loop of RB.READ: `n` times `rb_pop` (40_ring_buffer.md R69). -/
def rbPopMany : Nat → State → Except Fault (List Byte × State)
  | 0, s => .ok ([], s)
  | n + 1, s =>
    match rbPop s with
    | .error f => .error f
    | .ok (b, t) =>
      match rbPopMany n t with
      | .error f => .error f
      | .ok (bs, u) => .ok (b :: bs, u)

/-- `n = min(count, rb.avail)`, how many bytes a read or a skip takes (40_ring_buffer.md R69, R70). -/
def takeable (count : Nat) (s : State) : Nat := min count s.rbAvail

/-- `rb.contents`: the unread bytes, oldest first (10_state.md R17). -/
def contents (s : State) : List Byte :=
  (List.range s.rbAvail).map fun i => cellValue s ((s.rbRd + i) % s.cap)

/-- RB.WRITE at the abstract level, with the caller's array and an offset into it: `bytesWritten` or OperandError
(40_ring_buffer.md R67, R76). LOG 18. -/
def rbWriteFrom (data : List Byte) (offset count : Nat) (s : State) : Except Fault (Except CmdError Nat × State) :=
  if data.length < offset + count then .ok (.error operandErr, s)
  else
    match rbPushAll (slice data offset count) s with
    | .error f => .error f
    | .ok t => .ok (.ok count, t)

/-- RB.READ at the abstract level: `bytesRead` and the caller's array after it, or OperandError (40_ring_buffer.md R69,
R76). LOG 18. -/
def rbReadInto (data : List Byte) (offset count : Nat) (s : State) :
    Except Fault (Except CmdError (Nat × List Byte) × State) :=
  if data.length < offset + count then .ok (.error operandErr, s)
  else
    match rbPopMany (takeable count s) s with
    | .error f => .error f
    | .ok (bs, t) => .ok (.ok (takeable count s, overwriteSlice data offset bs), t)

/-! ## Answering a command (30_encoding.md R60) -/

/-- The port's stream of answers with one more. -/
def State.answer (p : Port) (r : Response) (s : State) : State :=
  { s with
    prodOut := if p = .prod then s.prodOut ++ [r] else s.prodOut
    hostOut := if p = .host then s.hostOut ++ [r] else s.hostOut }

/-- The answer of an Ok outcome (00_scope.md R9, 30_encoding.md R60). -/
def okResponse (value : BitVec 24) (out : List Byte) : Response := ⟨resultWord 0#4 value, out⟩

/-- The answer of an Error or Refused outcome: the code and the info byte, no output bytes (30_encoding.md R60,
60_exceptions.md R129). -/
def errorResponse (e : CmdError) : Response := ⟨resultWord e.kind.code (byteValue e.info), []⟩

/-- A command ends Ok (00_scope.md R9). -/
def answerOk (p : Port) (value : BitVec 24) (out : List Byte) (s : State) : State := s.answer p (okResponse value out)

/-- TAKING AN EXCEPTION: a command ends in an Error or is Refused. The result word carries the code and the info byte and
nothing else changes: no state is saved, no mode changes, control goes nowhere (60_exceptions.md R129). There is no
return from it (60_exceptions.md R131). -/
def takeError (p : Port) (e : CmdError) (s : State) : State := s.answer p (errorResponse e)

/-- A command of the HOST port only: on PROD it is a PortViolation, before anything else of it is looked at
(30_encoding.md R57, 43_control.md R118, 60_exceptions.md R128). LOG 14. -/
def onHost (p : Port) (s : State) (result : Outcome) : Outcome :=
  match p with
  | .prod => .next (takeError p portErr s)
  | .host => result

/-- The answer of a codec operation whose result is a byte sequence: its length and its bytes, or the error
(30_encoding.md R60). -/
def answerBytes (p : Port) (r : Except CmdError (List Byte)) (s : State) : State :=
  match r with
  | .ok out => answerOk p (toValue out.length) out s
  | .error e => takeError p e s

/-! ## Control and the demultiplexer's registers -/

/-- The event list with one more event (00_scope.md R11: `emit`). -/
def State.emit (e : Event) (s : State) : State := { s with events := s.events ++ [e] }

/-- The demultiplexer in state `d` with no escape pending and an empty frame buffer. -/
def State.dmCleared (d : DmState) (s : State) : State :=
  { s with dmState := d, dmEsc := false, dmLen := 0#16, dmFb := [], dmSum := 0#8 }

/-- `open_frame()` (42_demux.md R98). -/
def openFrame (s : State) : State := s.dmCleared .lenHi

/-- `abandon()` (42_demux.md R108). -/
def abandon (s : State) : State := s.dmCleared .hunt

/-- `dm.esc <- v`. -/
def State.withEsc (v : Bool) (s : State) : State := { s with dmEsc := v }

/-- `dm.len <- len; dm.state <- d`. -/
def State.withLength (len : BitVec 16) (d : DmState) (s : State) : State := { s with dmLen := len, dmState := d }

/-- `ctl.run <- run; ctl.mode <- mode`. -/
def State.withCtrl (run : Bool) (mode : Mode) (s : State) : State := { s with ctlRun := run, ctlMode := mode }

/-- A write of legal value to CTRL: a change of mode resets the demultiplexer, without an event (43_control.md R112 to
R114). -/
def writeCtrl (value : BitVec 16) (s : State) : State :=
  if ctrlModeField value ≠ s.ctlMode then abandon (s.withCtrl (ctrlRunBit value) (ctrlModeField value))
  else s.withCtrl (ctrlRunBit value) s.ctlMode

/-! ## The event output (30_encoding.md R59) -/

/-- The record of an event: header word, then the payload bytes of a frame. -/
def eventRecord : Event → Response
  | .frame payload => ⟨0#16 ++ BitVec.ofNat 16 payload.length, payload⟩
  | .err kind info => ⟨kind.code ++ 0#20 ++ info, []⟩

/-- The records on the event output, oldest first. -/
def eventOutput (s : State) : List Response := s.events.map eventRecord

end Sys2Proof.Machine
end

