-- ==== Sys2Proof/Machine/Control.lean ====
section
/-! DEFINITION. The control and status operations (43_control.md R111 to R118). -/

namespace Sys2Proof.Machine

/-- CSR.READ: the register's value, or OperandError for a number that names none (43_control.md R111, R116). -/
def execCsrRead (p : Port) (csr : BitVec 8) (s : State) : Outcome :=
  onHost p s <|
    match csrOfNum csr with
    | none => .next (takeError p operandErr s)
    | some r => .next (answerOk p (csrValue s r) [] s)

/-- CSR.WRITE: OperandError for an undefined number, a read-only register or a reserved bit, in that order, before
anything is written (43_control.md R112 to R117). -/
def execCsrWrite (p : Port) (csr : BitVec 8) (value : BitVec 16) (s : State) : Outcome :=
  onHost p s <|
    match csrOfNum csr with
    | none => .next (takeError p operandErr s)
    | some .rbCap => .next (takeError p operandErr s)
    | some .rbRd => .next (takeError p operandErr s)
    | some .rbWr => .next (takeError p operandErr s)
    | some .rbAvail => .next (takeError p operandErr s)
    | some .dmStatus => .next (takeError p operandErr s)
    | some .dmLen => .next (takeError p operandErr s)
    | some .ctrl =>
      if ctrlReservedSet value then .next (takeError p operandErr s)
      else .next (answerOk p 0#24 [] (writeCtrl value s))

end Sys2Proof.Machine
end

