-- ==== Sys2Proof/Machine/Demux.lean ====
section
/-! DEFINITION. The byte-stuffing demultiplexer (42_demux.md R93 to R108), and the derived forms that are several
DM.STEPs back to back. -/

namespace Sys2Proof.Machine

/-! ## A content byte goes to its field (42_demux.md R104 to R107) -/

/-- Field lenHi (42_demux.md R104). -/
def takeLenHi (v : Byte) (s : State) : State := s.withLength (v.setWidth 16 * 256#16) .lenLo

/-- Field lenLo (42_demux.md R105): a zero length goes straight to the checksum. -/
def takeLenLo (v : Byte) (s : State) : State :=
  s.withLength (s.dmLen + v.setWidth 16) (if s.dmLen + v.setWidth 16 = 0#16 then .checksum else .payload)

/-- Field payload (42_demux.md R106). -/
def takePayload (v : Byte) (s : State) : State :=
  { s with
    dmFb := s.dmFb ++ [v]
    dmSum := s.dmSum + v
    dmState := if s.dmFb.length + 1 = s.dmLen.toNat then .checksum else s.dmState }

/-- The checksum the open frame calls for (42_demux.md R107). -/
def expectedChecksum (s : State) : Byte := 0xFF#8 - s.dmSum

/-- `close_frame(v)` (42_demux.md R107). -/
def closeFrame (v : Byte) (s : State) : State :=
  abandon (s.emit (if v = expectedChecksum s then .frame s.dmFb else .err .invalidChecksum (expectedChecksum s)))

/-- `deliver(v)` (42_demux.md section 4). It is not reached in HUNT. LOG 16. -/
def deliver (v : Byte) (s : State) : State :=
  match s.dmState with
  | .hunt => s
  | .lenHi => takeLenHi v s
  | .lenLo => takeLenLo v s
  | .payload => takePayload v s
  | .checksum => closeFrame v s

/-! ## A wire byte (42_demux.md R96 to R103) -/

/-- `hunt(b)` (42_demux.md R97, R98). -/
def huntByte (b : Byte) (s : State) : State := if b = delimByte then openFrame s else s

/-- `flow_in_frame(b)` (42_demux.md R101). -/
def flowInFrame (b : Byte) (s : State) : State := abandon (s.emit (.err .specialByteNotEscaped b))

/-- `delim_in_frame()` (42_demux.md R102): the same byte opens the next frame. -/
def delimInFrame (s : State) : State := openFrame (s.emit (.err .specialByteNotEscaped delimByte))

/-- A wire byte inside an API_ESC frame (42_demux.md R96, R99 to R102). -/
def escapedModeByte (b : Byte) (s : State) : State :=
  if s.dmEsc then deliver (b ^^^ escMask) (s.withEsc false)
  else
    match byteClass b with
    | .esc => s.withEsc true
    | .delim => delimInFrame s
    | .xon => flowInFrame b s
    | .xoff => flowInFrame b s
    | .data => deliver b s

/-- What the demultiplexer does with a byte it has consumed (42_demux.md R93). -/
def consumeByte (b : Byte) (s : State) : State :=
  match s.dmState with
  | .hunt => huntByte b s
  | .lenHi => if s.ctlMode = .api then deliver b s else escapedModeByte b s
  | .lenLo => if s.ctlMode = .api then deliver b s else escapedModeByte b s
  | .payload => if s.ctlMode = .api then deliver b s else escapedModeByte b s
  | .checksum => if s.ctlMode = .api then deliver b s else escapedModeByte b s

/-- DM.STEP on the byte `b`, the oldest unread byte, which leaves the ring (42_demux.md R93, R95). A demultiplexer that
is held has no step and changes nothing (42_demux.md R94, LOG 11). -/
def dmStep (b : Byte) (s : State) : State := if dmEnabled s then consumeByte b (s.rbConsumed 1) else s

/-! ## The meanings -/

/-- DM.STEP.DELIM: opens a frame in HUNT (R98), an error that reopens inside an API_ESC frame (R102), data inside an API
frame (R103) and after a prefix (R100). -/
def execDmStepDelim (s : State) : Outcome := .next (dmStep delimByte s)

/-- DM.STEP.ESC: a prefix inside an API_ESC frame (R99), discarded in HUNT (R97), data inside an API frame (R103) and
after a prefix (R100). -/
def execDmStepEsc (s : State) : Outcome := .next (dmStep escByte s)

/-- DM.STEP.XON: an error inside an API_ESC frame (R101), discarded in HUNT (R97), data inside an API frame (R103) and
after a prefix (R100). -/
def execDmStepXon (s : State) : Outcome := .next (dmStep xonByte s)

/-- DM.STEP.XOFF: as XON. -/
def execDmStepXoff (s : State) : Outcome := .next (dmStep xoffByte s)

/-- DM.STEP.DATA: discarded in HUNT (R97), inside a frame delivered to the field `dm.state` names (R96, R103). -/
def execDmStepData (b : Byte) (s : State) : Outcome := .next (dmStep b s)

/-- ESCPAIR: DM.STEP on 0x7D and DM.STEP on `v`, back to back; inside an API_ESC frame it carries the content byte
`v ^ 0x20` (30_encoding.md R50, 42_demux.md R99, R100). LOG 8. -/
def execEscPair (v : Byte) (s : State) : Outcome := .next (dmStep v (dmStep escByte s))

/-- FRAMEHDR: DM.STEP on 0x7E, on lenHi and on lenLo, back to back; between frames it opens a frame of that length
(30_encoding.md R45, 42_demux.md R98, R104, R105). LOG 8. -/
def execFrameHdr (lenHi lenLo : Byte) (s : State) : Outcome := .next (dmStep lenLo (dmStep lenHi (dmStep delimByte s)))

end Sys2Proof.Machine
end

