-- ==== Sys2Proof/Machine/FrameCodec.lean ====
section
/-! DEFINITION. The frame codec operations (41_frame_codec.md R78 to R90). They read and write no block state. -/

namespace Sys2Proof.Machine

/-- FC.CHECKSUM (41_frame_codec.md R78). -/
def execFcChecksum (p : Port) (data : List Byte) (s : State) : Outcome :=
  onHost p s <| .next (answerOk p (byteValue (cks data)) [] s)

/-- FC.ESCAPE (41_frame_codec.md R80). -/
def execFcEscape (p : Port) (data : List Byte) (s : State) : Outcome :=
  onHost p s <| .next (answerBytes p (escapeOp data) s)

/-- FC.UNESCAPE (41_frame_codec.md R82). -/
def execFcUnescape (p : Port) (data : List Byte) (s : State) : Outcome :=
  onHost p s <| .next (answerBytes p (unstuff data) s)

/-- FC.ENCODE (41_frame_codec.md R84, R85). -/
def execFcEncode (p : Port) (mode : Mode) (operand : List Byte) (s : State) : Outcome :=
  onHost p s <| .next (answerBytes p (encodeOp mode operand) s)

/-- FC.DECODE (41_frame_codec.md R86 to R90). The mode is the command's, never `ctl.mode` (10_state.md R28). -/
def execFcDecode (p : Port) (mode : Mode) (data : List Byte) (s : State) : Outcome :=
  onHost p s <| .next (answerBytes p (decodeOp mode data) s)

end Sys2Proof.Machine
end

