-- ==== Sys2Proof/Machine/Ring.lean ====
section
/-! DEFINITION. The ring buffer operations (40_ring_buffer.md R67 to R71). -/

namespace Sys2Proof.Machine

/-- RB.WRITE, on either port: the whole operand goes in, `bytesWritten` is its length whatever was overwritten
(40_ring_buffer.md R67, R68). -/
def execRbWrite (p : Port) (data : List Byte) (s : State) : Outcome :=
  match rbPushAll data s with
  | .error f => .fault f
  | .ok t => .next (answerOk p (toValue data.length) [] t)

/-- RB.READ: the oldest unread bytes, at most `count` of them (40_ring_buffer.md R69). -/
def execRbRead (p : Port) (count : BitVec 24) (s : State) : Outcome :=
  onHost p s <|
    match rbPopMany (takeable count.toNat s) s with
    | .error f => .fault f
    | .ok (bytes, t) => .next (answerOk p (toValue (takeable count.toNat s)) bytes t)

/-- RB.SKIP: the oldest unread bytes are discarded, at most `count` of them (40_ring_buffer.md R70). -/
def execRbSkip (p : Port) (count : BitVec 24) (s : State) : Outcome :=
  onHost p s <|
    .next (answerOk p (toValue (takeable count.toNat s)) [] (s.rbConsumed (takeable count.toNat s)))

/-- RB.AVAIL: the count of unread bytes; nothing changes (40_ring_buffer.md R71). -/
def execRbAvail (p : Port) (s : State) : Outcome :=
  onHost p s <| .next (answerOk p (toValue s.rbAvail) [] s)

end Sys2Proof.Machine
end

