-- ==== Sys2Proof/Machine/Dispatch.lean ====
section
/-! DEFINITION. One arm for each instruction. -/

namespace Sys2Proof.Machine

/-- The meaning of an instruction. -/
def exec (i : Instr) (s : State) : Host.Outcome State Fault Refusal :=
  match i with
  | .rbWrite port data => Sys2Proof.Machine.execRbWrite port data s
  | .rbRead port count => Sys2Proof.Machine.execRbRead port count s
  | .rbSkip port count => Sys2Proof.Machine.execRbSkip port count s
  | .rbAvail port => Sys2Proof.Machine.execRbAvail port s
  | .fcChecksum port data => Sys2Proof.Machine.execFcChecksum port data s
  | .fcEscape port data => Sys2Proof.Machine.execFcEscape port data s
  | .fcUnescape port data => Sys2Proof.Machine.execFcUnescape port data s
  | .fcEncode port mode operand => Sys2Proof.Machine.execFcEncode port mode operand s
  | .fcDecode port mode data => Sys2Proof.Machine.execFcDecode port mode data s
  | .csrRead port csr => Sys2Proof.Machine.execCsrRead port csr s
  | .csrWrite port csr value => Sys2Proof.Machine.execCsrWrite port csr value s
  | .dmStepDelim => Sys2Proof.Machine.execDmStepDelim s
  | .dmStepEsc => Sys2Proof.Machine.execDmStepEsc s
  | .dmStepXon => Sys2Proof.Machine.execDmStepXon s
  | .dmStepXoff => Sys2Proof.Machine.execDmStepXoff s
  | .dmStepData b => Sys2Proof.Machine.execDmStepData b s
  | .escPair v => Sys2Proof.Machine.execEscPair v s
  | .frameHdr lenHi lenLo => Sys2Proof.Machine.execFrameHdr lenHi lenLo s

end Sys2Proof.Machine
end

