-- ==== Sys2Proof/Machine/Fetch.lean ====
section
/-! DEFINITION. Whose transition comes next, and what it is: the scheduler of 70_reset_and_hazards.md R151 and the fetch
of each agent. -/

namespace Sys2Proof.Machine

/-! ## The ports -/

/-- What is still to come on a port. -/
def portIn (p : Port) (s : State) : List PortItem :=
  match p with
  | .prod => s.prodIn
  | .host => s.hostIn

/-- The state with `q` still to come on a port. -/
def State.withPortIn (p : Port) (q : List PortItem) (s : State) : State :=
  { s with
    prodIn := if p = .prod then q else s.prodIn
    hostIn := if p = .host then q else s.hostIn }

/-- A whole command, legal or not, has arrived on the port. -/
def portReady (p : Port) (s : State) : Bool := decodePort p (portIn p s) != .incomplete

/-! ## The schedule (70_reset_and_hazards.md R151) -/

/-- The agents with an enabled transition (00_scope.md R8, 42_demux.md R94). -/
def enabledTurns (s : State) : List Turn :=
  (if portReady .prod s then [.prod] else []) ++ (if portReady .host s then [.host] else []) ++
    (if dmEnabled s then [.demux] else [])

/-- No transition is enabled: both scripts are exhausted and DM.STEP is not enabled (70_reset_and_hazards.md R151). -/
def quiescent (s : State) : Bool := (enabledTurns s).isEmpty

/-- The state with `rest` as the schedule still to be followed. -/
def State.withSched (rest : List Turn) (s : State) : State := { s with sched := rest }

/-- The state after one more choice of the free value. -/
def State.choiceTaken (s : State) : State := { s with choices := s.choices + 1 }

/-- The turn that comes next. The schedule says it; past the schedule's end the only enabled agent has it, and among
several a free value chooses (00_scope.md R8, LOG 5). None when nothing is enabled. -/
def nextTurn (s : State) : Option (Turn × State) :=
  match s.sched with
  | t :: rest => some (t, s.withSched rest)
  | [] =>
    match enabledTurns s with
    | [] => none
    | [t] => some (t, s)
    | t :: u :: more =>
      some ((t :: u :: more).getD (Config.freeChoice s.choices % (t :: u :: more).length) t, s.choiceTaken)

/-! ## Fetch -/

/-- What a turn finds to do. -/
inductive Fetched where
  /-- The agent has no such transition: nothing happens (LOG 6). -/
  | idle (s : State)
  /-- Ring memory was read where there is none. -/
  | fault (f : Fault)
  /-- An illegal command word was taken from the port, with its operand bytes. -/
  | illegal (p : Port) (why : Illegal) (s : State)
  /-- An instruction, and the state to run it in. -/
  | run (i : Instr) (s : State)
deriving DecidableEq, Repr

/-- The next command of a port, its word and operand bytes taken from the port (30_encoding.md R54). -/
def fetchPort (p : Port) (s : State) : Fetched :=
  match decodePort p (portIn p s) with
  | .incomplete => .idle s
  | .illegal why rest => .illegal p why (s.withPortIn p rest)
  | .command i rest => .run i (s.withPortIn p rest)

/-- The `n` bytes from index `i` on, indices wrapping modulo CAP (20_memory.md R32). -/
def peekFrom (s : State) : Nat → Nat → Except Fault (List Byte)
  | 0, _ => .ok []
  | n + 1, i =>
    match memRead i s with
    | .error f => .error f
    | .ok b => (peekFrom s n (nextIndex s i)).map fun bs => b :: bs

/-- The wire form of the `n` oldest unread bytes, when the demultiplexer is enabled, holds that many and they make such a
form (42_demux.md R94, R95). The bytes leave the ring when the instruction runs. -/
def fetchWire (n : Nat) (s : State) : Fetched :=
  if dmEnabled s = false ∨ s.rbAvail < n then .idle s
  else
    match peekFrom s n s.rbRd with
    | .error f => .fault f
    | .ok bytes =>
      match decodeWire bytes with
      | none => .idle s
      | some i => .run i s

/-- What a turn finds to do. -/
def fetch (t : Turn) (s : State) : Fetched :=
  match t with
  | .prod => fetchPort .prod s
  | .host => fetchPort .host s
  | .demux => fetchWire 1 s
  | .demuxPair => fetchWire 2 s
  | .demuxHeader => fetchWire 3 s

/-- An illegal command: Refused(IllegalCommand) is the answer and nothing else changes (30_encoding.md R56,
60_exceptions.md R126). -/
def refuseIllegal (p : Port) (_ : Illegal) (s : State) : Outcome := .next (takeError p illegalErr s)

/-! ## Placing an instruction where the next step fetches -/

/-- The items of a 32-bit command word and its operand bytes, zeros. -/
def tableItems (w : Nat) : List PortItem :=
  .word (BitVec.ofNat 32 w) :: List.replicate (operandCount (BitVec.ofNat 32 w)) (.byte 0#8)

/-- The wire bytes stored as the oldest unread bytes of the ring, which holds at least that many then. -/
def placeWire (bytes : List Byte) (s : State) : State :=
  { s with
    rbMem := (bytes.zipIdx).foldl (fun m c => m.write ((s.rbRd + c.2) % s.cap) c.1) s.rbMem
    rbAvail := max s.rbAvail bytes.length
    rbWr := (s.rbRd + max s.rbAvail bytes.length) % s.cap }

/-- The demultiplexer allowed to step (42_demux.md R94): `run` set, and API_ESC where the mode is not parseable. -/
def letDemuxRun (s : State) : State := s.withCtrl true (if parseable s.ctlMode then s.ctlMode else .apiEsc)

/-- `s` with the table row's instruction placed where the next step fetches. -/
def placeTableWord (nbits w : Nat) (s : State) : State :=
  match nbits with
  | 32 => (s.withPortIn .host (tableItems w ++ s.hostIn)).withSched (.host :: s.sched)
  | 8 => (letDemuxRun (placeWire [BitVec.ofNat 8 w] s)).withSched (.demux :: s.sched)
  | 16 =>
    (letDemuxRun (placeWire [BitVec.ofNat 8 (w / 256), BitVec.ofNat 8 w] s)).withSched (.demuxPair :: s.sched)
  | 24 =>
    (letDemuxRun (placeWire [BitVec.ofNat 8 (w / 65536), BitVec.ofNat 8 (w / 256), BitVec.ofNat 8 w] s)).withSched
      (.demuxHeader :: s.sched)
  | _ => s

end Sys2Proof.Machine
end

