-- ==== Sys2Proof/Machine/Step.lean ====
section
/-! DEFINITION. One step of the machine: one transition of the agent whose turn it is (00_scope.md R8,
70_reset_and_hazards.md R151). -/

namespace Sys2Proof.Machine

/-- What was fetched, carried out. -/
def carryOut : Fetched → Host.Outcome State Fault Refusal
  | .idle t => .next t
  | .fault f => .fault f
  | .illegal p why t => refuseIllegal p why t
  | .run i t => exec i t

/-- One step. A block in which nothing is enabled and nothing is scheduled stays as it is (70_reset_and_hazards.md R151,
LOG 7). -/
def step (s : State) : Host.Outcome State Fault Refusal :=
  match nextTurn s with
  | none => .next s
  | some (t, u) => carryOut (fetch t u)

/-- `s` with the instruction of a table row stored where the next step fetches, so that `step` runs it (LOG 9). -/
def State.withFetchWord (s : State) (nbits w : Nat) : State := placeTableWord nbits w s

end Sys2Proof.Machine
end

