-- ==== Sys2Proof/Machine/Pseudo.lean ====
section
/-! DEFINITION. The pseudo-operations and their expansions (30_encoding.md R62). -/

namespace Sys2Proof.Machine

/-- `RB.PUSH b` on a port. -/
def pseudoPush (p : Port) (b : Byte) : Instr := .rbWrite p [b]

/-- `RB.POP`. -/
def pseudoPop : Instr := .rbRead .host 1#24

/-- `RB.FLUSH`: a skip of 16777215 bytes. -/
def pseudoFlush : Instr := .rbSkip .host (BitVec.ofNat 24 maxCount)

/-- `DM.START mode`: `(mode << 1) + 1` to CTRL. -/
def pseudoStart (mode : Mode) : Instr := .csrWrite .host (csrNum .ctrl) (0#13 ++ modeNum mode ++ 1#1)

/-- `DM.STOP`: CTRL is read, and its value with all but bits 2:1 cleared is written back; `value` is what the read
returned. Two commands. -/
def pseudoStop (value : BitVec 16) : List Instr :=
  [.csrRead .host (csrNum .ctrl), .csrWrite .host (csrNum .ctrl) (value &&& 6#16)]

/-- `DM.RUN n`: `n` consecutive DM.STEPs, a part of a schedule. -/
def pseudoRun (n : Nat) : List Turn := List.replicate n .demux

end Sys2Proof.Machine
end

