-- ==== Sys2Proof/Machine/Text.lean ====
section
/-! DEFINITION. The line form of operations and outcomes (30_encoding.md R61). It is a way of writing; no transition
depends on it. LOG 20. -/

namespace Sys2Proof.Machine

/-- A hexadecimal digit. -/
def hexDigit (n : Nat) : Char := if n < 10 then Char.ofNat (48 + n) else Char.ofNat (55 + n)

/-- Two hexadecimal digits of a byte. -/
def byteText (b : Byte) : String := String.ofList [hexDigit (b.toNat / 16), hexDigit (b.toNat % 16)]

/-- A byte with the mark of a hexadecimal number. -/
def hexText (b : Byte) : String := "0x" ++ byteText b

/-- A byte sequence: in braces, bytes separated by a blank. -/
def bytesText (bytes : List Byte) : String :=
  String.ofList [Char.ofNat 123] ++ " ".intercalate (bytes.map byteText) ++ String.ofList [Char.ofNat 125]

/-- A mode's name. -/
def modeText : Mode → String
  | .transparent => "AT"
  | .api => "API"
  | .apiEsc => "API_ESC"
  | .unknown => "UNKNOWN"

/-- A port's name. -/
def portText : Port → String
  | .prod => "PROD: "
  | .host => "HOST: "

/-- A register by name, an undefined number in hexadecimal. -/
def csrText (n : BitVec 8) : String :=
  match csrOfNum n with
  | some .ctrl => "CTRL"
  | some .rbCap => "RB_CAP"
  | some .rbRd => "RB_RD"
  | some .rbWr => "RB_WR"
  | some .rbAvail => "RB_AVAIL"
  | some .dmStatus => "DM_STATUS"
  | some .dmLen => "DM_LEN"
  | none => hexText n

/-- The operand stream of FC.ENCODE: frame type and body. -/
def encodeOperandText : List Byte → String
  | [] => "(no bytes)"
  | t :: body => byteText t ++ ", " ++ bytesText body

/-- The line of an instruction, without its outcome. A derived form is that many DM.STEPs. -/
def instrText : Instr → String
  | .rbWrite p data => portText p ++ "RB.WRITE " ++ bytesText data
  | .rbRead p count => portText p ++ "RB.READ " ++ toString count.toNat
  | .rbSkip p count => portText p ++ "RB.SKIP " ++ toString count.toNat
  | .rbAvail p => portText p ++ "RB.AVAIL"
  | .fcChecksum p data => portText p ++ "FC.CHECKSUM " ++ bytesText data
  | .fcEscape p data => portText p ++ "FC.ESCAPE " ++ bytesText data
  | .fcUnescape p data => portText p ++ "FC.UNESCAPE " ++ bytesText data
  | .fcEncode p mode operand => portText p ++ "FC.ENCODE " ++ modeText mode ++ ", " ++ encodeOperandText operand
  | .fcDecode p mode data => portText p ++ "FC.DECODE " ++ modeText mode ++ ", " ++ bytesText data
  | .csrRead p csr => portText p ++ "CSR.READ " ++ csrText csr
  | .csrWrite p csr value => portText p ++ "CSR.WRITE " ++ csrText csr ++ ", " ++ toString value.toNat
  | .dmStepDelim => "DEMUX: DM.STEP"
  | .dmStepEsc => "DEMUX: DM.STEP"
  | .dmStepXon => "DEMUX: DM.STEP"
  | .dmStepXoff => "DEMUX: DM.STEP"
  | .dmStepData _ => "DEMUX: DM.STEP"
  | .escPair _ => "DEMUX: DM.RUN 2"
  | .frameHdr _ _ => "DEMUX: DM.RUN 3"

/-- The name of an error kind (60_exceptions.md R119). -/
def kindText : ErrorKind → String
  | .modeError => "ModeError"
  | .operandError => "OperandError"
  | .badDelimiter => "BadDelimiter"
  | .specialByteNotEscaped => "SpecialByteNotEscaped"
  | .incompletePacket => "IncompletePacket"
  | .invalidChecksum => "InvalidChecksum"
  | .illegalCommand => "IllegalCommand"
  | .portViolation => "PortViolation"

/-- The kinds that carry an info byte (60_exceptions.md R119). -/
def kindHasInfo : ErrorKind → Bool
  | .badDelimiter => true
  | .specialByteNotEscaped => true
  | .invalidChecksum => true
  | .modeError => false
  | .operandError => false
  | .incompletePacket => false
  | .illegalCommand => false
  | .portViolation => false

/-- An Error or Refused outcome. -/
def errorText (e : CmdError) : String :=
  (if e.kind.isRefusal then "Refused(" else "Error(") ++ kindText e.kind ++
    (if kindHasInfo e.kind then ", " ++ hexText e.info else "") ++ ")"

/-- An Ok outcome: the value, then the bytes where there are any. -/
def okText (value : BitVec 24) (out : List Byte) : String :=
  if out.isEmpty then "Ok(" ++ toString value.toNat ++ ")"
  else "Ok(" ++ toString value.toNat ++ ", " ++ bytesText out ++ ")"

end Sys2Proof.Machine
end

