-- ==== Sys2Proof/Safety.lean ====
section
/-! DEFINITION. What counts as a sound state and a safe run, and the words in which statements about the machine are
made. -/

namespace Sys2Proof.Machine

/-! ## Sound states -/

/-- I-RB (10_state.md R17, 40_ring_buffer.md R72), with the range of CAP (00_scope.md R5). -/
abbrev RingOk (s : State) : Prop :=
  1 ≤ s.cap ∧ s.cap ≤ 16777215 ∧ s.rbRd < s.cap ∧ s.rbWr < s.cap ∧ s.rbAvail ≤ s.cap ∧
    s.rbWr = (s.rbRd + s.rbAvail) % s.cap

/-- The memory is canonical, lists no address outside the ring, and holds a written byte in every cell of the unread
window (10_state.md R15). -/
abbrev MemOk (s : State) : Prop :=
  s.rbMem.wf ∧ (∀ c ∈ s.rbMem.cells, c.1 < s.cap) ∧
    ∀ i < s.rbAvail, (s.rbMem.read ((s.rbRd + i) % s.cap)).isSome

/-- What the demultiplexer's position says of its frame buffer (10_state.md R26, R27). -/
def dmFrameOk (s : State) : Bool :=
  match s.dmState with
  | .hunt => s.dmFb.isEmpty && s.dmLen == 0#16 && !s.dmEsc
  | .lenHi => s.dmFb.isEmpty && s.dmLen == 0#16
  | .lenLo => s.dmFb.isEmpty && s.dmLen.extractLsb' 0 8 == 0#8
  | .payload => decide (s.dmFb.length < s.dmLen.toNat)
  | .checksum => decide (s.dmFb.length = s.dmLen.toNat)

/-- I-DM and the invariant on `dm.esc` (10_state.md R26, R27); in an unparseable mode no frame is open (43_control.md
R114, 42_demux.md R94). -/
abbrev DmOk (s : State) : Prop :=
  s.dmSum = sumBytes s.dmFb ∧ dmFrameOk s = true ∧ (s.dmEsc = true → s.ctlMode = .apiEsc) ∧
    (parseable s.ctlMode = false → s.dmState = .hunt)

/-- An event the demultiplexer may emit (10_state.md R25, 60_exceptions.md R130). -/
def eventOk : Event → Bool
  | .frame payload => decide (payload.length ≤ 65535)
  | .err kind info =>
    (kind == .specialByteNotEscaped && (info == 0x7E#8 || info == 0x11#8 || info == 0x13#8)) ||
      kind == .invalidChecksum

/-- An answer a port may give: bits 27:24 zero, a code of 0 to 8, and with a code other than 0 no output bytes and a
value of at most one byte (30_encoding.md R60, 60_exceptions.md R119, R129). -/
def responseOk (r : Response) : Bool :=
  r.word.extractLsb' 24 4 == 0#4 && decide (r.word.extractLsb' 28 4 ≤ 8#4) &&
    (r.word.extractLsb' 28 4 == 0#4 || (r.bytes.isEmpty && r.word.extractLsb' 8 16 == 0#16))

/-- Every event emitted so far is one the demultiplexer may emit. -/
abbrev EventsOk (s : State) : Prop := ∀ e ∈ s.events, eventOk e = true

/-- Every answer given so far is one a port may give. -/
abbrev ResponsesOk (s : State) : Prop :=
  (∀ r ∈ s.prodOut, responseOk r = true) ∧ ∀ r ∈ s.hostOut, responseOk r = true

/-- A sound state: what holds from reset on. -/
abbrev Sound (s : State) : Prop := RingOk s ∧ MemOk s ∧ DmOk s ∧ EventsOk s ∧ ResponsesOk s

/-! ## Words for statements -/

/-- What a port has answered so far. -/
def portOut (p : Port) (s : State) : List Response :=
  match p with
  | .prod => s.prodOut
  | .host => s.hostOut

/-- `s` with a port's answers replaced. -/
def State.withPortOut (p : Port) (out : List Response) (s : State) : State :=
  match p with
  | .prod => { s with prodOut := out }
  | .host => { s with hostOut := out }

/-- The three conditions of DM.STEP, and the consumed byte's place in the ring: what is left after one byte was taken
(42_demux.md R94, R95). -/
abbrev DemuxEnabled (s : State) : Prop :=
  s.ctlRun = true ∧ (s.ctlMode = .api ∨ s.ctlMode = .apiEsc) ∧ 0 < s.rbAvail

/-- `s` without its oldest unread byte (42_demux.md R95). -/
def State.withoutOldest (s : State) : State :=
  { s with rbRd := (s.rbRd + 1) % s.cap, rbAvail := s.rbAvail - 1 }

/-- Inside a frame the wire byte `b` is the content byte `v`, or completes it: in API mode every byte as it stands
(42_demux.md R103), in API_ESC mode a byte of class DATA as it stands (R96) or any byte after a prefix, XORed (R100). -/
abbrev Delivers (b v : Byte) (s : State) : Prop :=
  (s.ctlMode = .api ∧ s.dmEsc = false ∧ v = b) ∨
    (s.ctlMode = .apiEsc ∧ s.dmEsc = false ∧ isDataByte b = true ∧ v = b) ∨
    (s.ctlMode = .apiEsc ∧ s.dmEsc = true ∧ v = b ^^^ 0x20#8)

/-- A piece of stuffed content: a plain byte, or an escape pair by its second byte (30_encoding.md R50). -/
inductive Piece where
  | plain (b : Byte)
  | pair (v : Byte)
deriving DecidableEq, Repr

/-- A plain piece is no special byte. -/
def Piece.ok : Piece → Bool
  | .plain b => isDataByte b
  | .pair _ => true

/-- The wire bytes of a piece. -/
def Piece.wire : Piece → List Byte
  | .plain b => [b]
  | .pair v => [0x7D#8, v]

/-- The content byte of a piece. -/
def Piece.content : Piece → Byte
  | .plain b => b
  | .pair v => v ^^^ 0x20#8

/-- The wire bytes of stuffed content. -/
def wireOf (pieces : List Piece) : List Byte := pieces.flatMap Piece.wire

/-- The content bytes of stuffed content. -/
def contentBytes (pieces : List Piece) : List Byte := pieces.map Piece.content

/-- `n_in` of a command word, read off the table of 30_encoding.md R54: the count of the six operations that take
operand bytes, 0 for every other word. -/
abbrev operandBytesDue (w : Word) : Nat :=
  if w.extractLsb' 28 4 ∈ [0x1#4, 0x5#4, 0x6#4, 0x7#4, 0x8#4, 0x9#4] then (w.extractLsb' 0 24).toNat else 0

/-- The words 30_encoding.md R56 makes illegal. -/
abbrev IllegalWord (w : Word) : Prop :=
  w.extractLsb' 28 4 ∈ [0x0#4, 0xC#4, 0xD#4, 0xE#4, 0xF#4] ∨ w.extractLsb' 24 2 ≠ 0#2 ∨
    (w.extractLsb' 26 2 ≠ 0#2 ∧ w.extractLsb' 28 4 ∉ [0x8#4, 0x9#4]) ∨
    (w.extractLsb' 28 4 = 0x4#4 ∧ w.extractLsb' 0 24 ≠ 0#24) ∨
    (w.extractLsb' 28 4 = 0xA#4 ∧ w.extractLsb' 8 16 ≠ 0#16)

/-- The last `n` bytes of a sequence. -/
def lastBytes (n : Nat) (bytes : List Byte) : List Byte := bytes.drop (bytes.length - n)

/-- The stuffing transform as 30_encoding.md R48 words it: every 7E, 7D, 11, 13 replaced by 7D and the byte XOR 20. -/
def replaceSpecial (bytes : List Byte) : List Byte :=
  bytes.flatMap fun b => if b ∈ [0x7E#8, 0x7D#8, 0x11#8, 0x13#8] then [0x7D#8, b ^^^ 0x20#8] else [b]

/-- `255 - ((sum of P[i]) mod 256)`, computed on numbers (41_frame_codec.md R77). -/
def checksumOf (payload : List Byte) : Byte := BitVec.ofNat 8 (255 - (payload.map BitVec.toNat).sum % 256)

/-- The bytes of a frame after its delimiter, before stuffing (30_encoding.md R45): length high byte first. -/
def contentRegion (payload : List Byte) : List Byte :=
  BitVec.ofNat 8 (payload.length / 256) :: BitVec.ofNat 8 (payload.length % 256) :: (payload ++ [checksumOf payload])

/-- How many bytes an instruction writes into the ring (40_ring_buffer.md R73). -/
def bytesWritten : Instr → Nat
  | .rbWrite _ data => data.length
  | _ => 0

/-- How many bytes an instruction takes out of the ring, read, skipped or popped (40_ring_buffer.md R73). -/
def bytesTaken (s : State) : Instr → Nat
  | .rbRead .host count => min count.toNat s.rbAvail
  | .rbSkip .host count => min count.toNat s.rbAvail
  | .dmStepDelim => if dmEnabled s then 1 else 0
  | .dmStepEsc => if dmEnabled s then 1 else 0
  | .dmStepXon => if dmEnabled s then 1 else 0
  | .dmStepXoff => if dmEnabled s then 1 else 0
  | .dmStepData _ => if dmEnabled s then 1 else 0
  | .escPair _ => if dmEnabled s then min 2 s.rbAvail else 0
  | .frameHdr _ _ => if dmEnabled s then min 3 s.rbAvail else 0
  | _ => 0

/-- Host instructions carried out one after another. -/
def execAll : List Instr → State → Outcome
  | [], s => .next s
  | i :: rest, s =>
    match exec i s with
    | .next t => execAll rest t
    | .fault f => .fault f
    | .refused r => .refused r

/-- The bytes taken by a sequence of instructions carried out from `s`. -/
def totalTaken : List Instr → State → Nat
  | [], _ => 0
  | i :: rest, s =>
    match exec i s with
    | .next t => bytesTaken s i + totalTaken rest t
    | .fault _ => 0
    | .refused _ => 0

/-- The bytes lost to overwriting (`lost` of 40_ring_buffer.md R67) by a sequence of instructions carried out from
`s`. -/
def totalLost : List Instr → State → Nat
  | [], _ => 0
  | i :: rest, s =>
    match exec i s with
    | .next t => (s.rbAvail + bytesWritten i - s.cap) + totalLost rest t
    | .fault _ => 0
    | .refused _ => 0

end Sys2Proof.Machine
end

