-- ==== Sys2Proof/Certificates/Slice0/Obligations.lean ====
section
/-! DEFINITION. The statements for the provers. -/

open Sys2Proof Sys2Proof.Machine

/-! ## Encodings -/

/-- Decoding what an instruction is encoded as gives it back, whatever follows on the port, for every well-formed
instruction (30_encoding.md sections 4 and 7). -/
def Obligations.DecodeEncodeRoundTrip : Prop :=
  ∀ i : Instr, i.wellFormed = true →
    (∀ p rest, i.port? = some p → decodePort p (encode i ++ rest) = .command i rest) ∧
    (i.port? = none → ∃ bytes, encode i = bytes.map .byte ∧ decodeWire bytes = some i)

/-- A legal command word with its operand bytes is the encoding of the command it decodes to: no two words mean one
command, and no bit is dropped (30_encoding.md section 4). -/
def Obligations.LegalWordReencodes : Prop :=
  ∀ p w operand i, operand.length = operandBytesDue w → decodeCommand p w operand = .ok i →
    i.wellFormed = true ∧ i.port? = some p ∧ encode i = .word w :: operand.map .byte

/-- A few words written out from 30_encoding.md R45, R49, R50, R52 and R55 decode to what they stand for, each of the four
mode numbers among them. -/
def Obligations.SampleWordsDecode : Prop :=
  decodePort .prod [.word 0x10000002#32, .byte 0x44#8, .byte 0x45#8] = .command (.rbWrite .prod [0x44#8, 0x45#8]) [] ∧
  decodePort .host [.word 0x30FFFFFF#32] = .command (.rbSkip .host 0xFFFFFF#24) [] ∧
  decodePort .host [.word 0x98000001#32, .byte 0x7E#8] = .command (.fcDecode .host .apiEsc [0x7E#8]) [] ∧
  decodePort .host [.word 0x80000000#32] = .command (.fcEncode .host .transparent []) [] ∧
  decodePort .host [.word 0x84000000#32] = .command (.fcEncode .host .api []) [] ∧
  decodePort .host [.word 0x88000000#32] = .command (.fcEncode .host .apiEsc []) [] ∧
  decodePort .host [.word 0x8C000000#32] = .command (.fcEncode .host .unknown []) [] ∧
  decodePort .host [.word 0xB0000500#32] = .command (.csrWrite .host 0x00#8 0x0005#16) [] ∧
  decodePort .host [.word 0x24000001#32] = .illegal .modeField [] ∧
  decodeWire [0x13#8] = some .dmStepXoff ∧ decodeWire [0x5E#8] = some (.dmStepData 0x5E#8) ∧
  decodeWire [0x7D#8, 0x5E#8] = some (.escPair 0x5E#8) ∧ decodeWire [0x7E#8, 0x01#8, 0x02#8] = some (.frameHdr 0x01#8 0x02#8)

/-- 30_encoding.md R49: the class of a byte decides which DM.STEP row it is. -/
def Obligations.ByteClassesPartitionBytes : Prop :=
  ∀ b : Byte,
    (b = 0x7E#8 → byteClass b = .delim ∧ decodeByte b = .dmStepDelim) ∧
    (b = 0x7D#8 → byteClass b = .esc ∧ decodeByte b = .dmStepEsc) ∧
    (b = 0x11#8 → byteClass b = .xon ∧ decodeByte b = .dmStepXon) ∧
    (b = 0x13#8 → byteClass b = .xoff ∧ decodeByte b = .dmStepXoff) ∧
    (b ≠ 0x7E#8 → b ≠ 0x7D#8 → b ≠ 0x11#8 → b ≠ 0x13#8 → byteClass b = .data ∧ decodeByte b = .dmStepData b)

/-! ## Commands on their ports -/

/-- 30_encoding.md R56, 60_exceptions.md R126: an illegal word on either port is answered Refused(IllegalCommand); its
operand bytes are consumed (60_exceptions.md R129) and nothing else of the state changes. -/
def Obligations.IllegalWordIsRefused : Prop :=
  ∀ s w (operand : List Byte) rest q, IllegalWord w → operand.length = operandBytesDue w →
    (s.sched = .host :: rest → s.hostIn = .word w :: (operand.map .byte ++ q) →
      step s = .next { s with sched := rest, hostIn := q, hostOut := s.hostOut ++ [⟨0x70000000#32, []⟩] }) ∧
    (s.sched = .prod :: rest → s.prodIn = .word w :: (operand.map .byte ++ q) →
      step s = .next { s with sched := rest, prodIn := q, prodOut := s.prodOut ++ [⟨0x70000000#32, []⟩] })

/-- A word that 30_encoding.md R56 does not make illegal is a command: the step takes the word and its operand bytes from
the port and carries the command out, on either port. -/
def Obligations.LegalWordIsCarriedOut : Prop :=
  ∀ s w (operand : List Byte) rest q, ¬ IllegalWord w → operand.length = operandBytesDue w →
    (s.sched = .host :: rest → s.hostIn = .word w :: (operand.map .byte ++ q) →
      ∃ i, i.port? = some .host ∧ encode i = .word w :: operand.map .byte ∧
        step s = exec i { s with sched := rest, hostIn := q }) ∧
    (s.sched = .prod :: rest → s.prodIn = .word w :: (operand.map .byte ++ q) →
      ∃ i, i.port? = some .prod ∧ encode i = .word w :: operand.map .byte ∧
        step s = exec i { s with sched := rest, prodIn := q })

/-- Every host operation, in every sound ring and on either port, ends at once with exactly one answer on its own port,
of the form 30_encoding.md R60 gives answers; the other port's answers, what is still to come on both ports, the schedule
and CAP stay. Covers RB.WRITE, RB.READ, RB.SKIP, RB.AVAIL, FC.CHECKSUM, FC.ESCAPE, FC.UNESCAPE, FC.ENCODE, FC.DECODE,
CSR.READ and CSR.WRITE. -/
def Obligations.EveryCommandIsAnsweredOnce : Prop :=
  ∀ i p s, RingOk s → i.port? = some p →
    ∃ t r, exec i s = .next t ∧ portOut p t = portOut p s ++ [r] ∧ responseOk r = true ∧
      (∀ q, q ≠ p → portOut q t = portOut q s) ∧
      t.prodIn = s.prodIn ∧ t.hostIn = s.hostIn ∧ t.sched = s.sched ∧ t.choices = s.choices ∧ t.cap = s.cap ∧
      t.events = s.events

/-- 60_exceptions.md R129: an outcome other than Ok has no output bytes and changes no block state. -/
def Obligations.FailedCommandChangesNothing : Prop :=
  ∀ i p s t r, i.port? = some p → exec i s = .next t → portOut p t = portOut p s ++ [r] →
    r.word.extractLsb' 28 4 ≠ 0#4 →
    r.bytes = [] ∧ t = s.withPortOut p (portOut p s ++ [r])

/-- 30_encoding.md R57: on PROD every command but RB.WRITE is Refused(PortViolation), the state unchanged; HOST refuses
none for its port, nor is RB.WRITE refused on either. -/
def Obligations.ProdPortAcceptsWritesOnly : Prop :=
  (∀ i s, i.port? = some .prod → (∀ data, i ≠ .rbWrite .prod data) →
    exec i s = .next { s with prodOut := s.prodOut ++ [⟨0x80000000#32, []⟩] }) ∧
  (∀ i p s t r, i.port? = some p → (p = .host ∨ ∃ data, i = .rbWrite p data) → exec i s = .next t →
    portOut p t = portOut p s ++ [r] → r.word.extractLsb' 28 4 ≠ 8#4)

/-! ## The ring buffer -/

/-- RB.WRITE on either port (40_ring_buffer.md section 2, the closed form): the indices, the count, the answer, and that
nothing else but the ring memory changes. -/
def Obligations.RbWriteMovesIndices : Prop :=
  ∀ p data s, RingOk s → data.length ≤ 16777215 →
    ∃ t, exec (.rbWrite p data) s = .next t ∧
      t.rbWr = (s.rbWr + data.length) % s.cap ∧
      t.rbAvail = min s.cap (s.rbAvail + data.length) ∧
      (s.rbAvail + data.length ≤ s.cap → t.rbRd = s.rbRd) ∧
      (s.cap ≤ s.rbAvail + data.length → t.rbRd = t.rbWr) ∧
      t = ({ s with rbMem := t.rbMem, rbRd := t.rbRd, rbWr := t.rbWr, rbAvail := t.rbAvail } : State).withPortOut p
            (portOut p s ++ [⟨BitVec.ofNat 32 data.length, []⟩])

/-- RB.WRITE stores byte `i` of its operand at `(rb.wr + i) mod CAP` (20_memory.md R32), a later byte over an earlier one
that fell on the same cell; every other cell of the memory reads as before. -/
def Obligations.RbWriteStoresBytes : Prop :=
  ∀ p data s t, RingOk s → exec (.rbWrite p data) s = .next t →
    (∀ i b, data[i]? = some b → data.length ≤ i + s.cap →
      t.rbMem.read ((s.rbWr + i) % s.cap) = some b) ∧
    (∀ a, (∀ i < data.length, a ≠ (s.rbWr + i) % s.cap) → t.rbMem.read a = s.rbMem.read a)

/-- 40_ring_buffer.md R74: after any write the unread bytes are the last `min(CAP, rb.avail + count)` bytes of what was
unread followed by what was written; after a write of CAP bytes or more they are the last CAP bytes written. -/
def Obligations.RbWriteKeepsLastBytes : Prop :=
  ∀ p data s, RingOk s →
    ∃ t, exec (.rbWrite p data) s = .next t ∧
      contents t = lastBytes (min s.cap (s.rbAvail + data.length)) (contents s ++ data) ∧
      (s.cap ≤ data.length → t.rbAvail = s.cap ∧ contents t = lastBytes s.cap data)

/-- Two writes, one after the other, leave the ring as one write of both operands does (92_eei_decisions.md D8). -/
def Obligations.SplitWriteEqualsWholeWrite : Prop :=
  ∀ p xs ys s t u, RingOk s → exec (.rbWrite p xs) s = .next t → exec (.rbWrite p ys) t = .next u →
    ∃ v, exec (.rbWrite p (xs ++ ys)) s = .next v ∧
      v.rbMem = u.rbMem ∧ v.rbRd = u.rbRd ∧ v.rbWr = u.rbWr ∧ v.rbAvail = u.rbAvail

/-- RB.READ on HOST (40_ring_buffer.md section 2): `n = min(count, rb.avail)` bytes, the oldest first, leave the ring and
are the answer; nothing else changes, the memory included. -/
def Obligations.RbReadReturnsOldestBytes : Prop :=
  ∀ (count : BitVec 24) s, RingOk s →
    let n := min count.toNat s.rbAvail
    let t : State := { s with
      rbRd := (s.rbRd + n) % s.cap
      rbAvail := s.rbAvail - n
      hostOut := s.hostOut ++ [⟨BitVec.ofNat 32 n, (contents s).take n⟩] }
    exec (.rbRead .host count) s = .next t ∧ contents t = (contents s).drop n

/-- 40_ring_buffer.md R70: RB.SKIP on HOST discards `min(count, rb.avail)` of the oldest unread bytes, as an RB.READ of
the same count whose bytes are thrown away. -/
def Obligations.RbSkipDiscardsOldestBytes : Prop :=
  ∀ (count : BitVec 24) s, RingOk s →
    let n := min count.toNat s.rbAvail
    let t : State := { s with
      rbRd := (s.rbRd + n) % s.cap
      rbAvail := s.rbAvail - n
      hostOut := s.hostOut ++ [⟨BitVec.ofNat 32 n, []⟩] }
    exec (.rbSkip .host count) s = .next t ∧ contents t = (contents s).drop n ∧
      (s.rbAvail ≤ count.toNat → t.rbRd = t.rbWr) ∧
      (∀ u, exec (.rbRead .host count) s = .next u → t = { u with hostOut := t.hostOut })

/-- 40_ring_buffer.md R71: RB.AVAIL on HOST returns `rb.avail`, at most CAP, and changes nothing. -/
def Obligations.RbAvailReturnsCount : Prop :=
  ∀ s, RingOk s →
    exec (.rbAvail .host) s = .next { s with hostOut := s.hostOut ++ [⟨BitVec.ofNat 32 s.rbAvail, []⟩] } ∧
      (BitVec.ofNat 32 s.rbAvail).toNat = s.rbAvail ∧ s.rbAvail ≤ s.cap

/-- 40_ring_buffer.md R76 and the abstract forms of R67 and R69: a transfer that reaches beyond the caller's array is
OperandError with the state unchanged; one inside it does what the command with the array's bytes does, and a read leaves
the other elements of the array as they were. -/
def Obligations.AbstractTransfersMatchCommands : Prop :=
  ∀ data offset (count : BitVec 24) s, RingOk s →
    (data.length < offset + count.toNat →
      rbWriteFrom data offset count.toNat s = .ok (.error operandErr, s) ∧
      rbReadInto data offset count.toNat s = .ok (.error operandErr, s)) ∧
    (offset + count.toNat ≤ data.length →
      (∃ t, rbWriteFrom data offset count.toNat s = .ok (.ok count.toNat, t) ∧
        exec (.rbWrite .host ((data.drop offset).take count.toNat)) s =
          .next { t with hostOut := t.hostOut ++ [⟨BitVec.ofNat 32 count.toNat, []⟩] }) ∧
      (∃ t, rbReadInto data offset count.toNat s =
          .ok (.ok (min count.toNat s.rbAvail,
            data.take offset ++ (contents s).take count.toNat ++
              data.drop (offset + min count.toNat s.rbAvail)), t) ∧
        exec (.rbRead .host count) s =
          .next { t with hostOut :=
            t.hostOut ++ [⟨BitVec.ofNat 32 (min count.toNat s.rbAvail), (contents s).take count.toNat⟩] }))

/-- 40_ring_buffer.md R73, the general form, from any sound ring: over any sequence of instructions, what is available
after, plus what was taken and what was lost, is what was available before plus what was written. -/
def Obligations.BytesAreConserved : Prop :=
  ∀ is s t, RingOk s → execAll is s = .next t →
    t.rbAvail + totalTaken is s + totalLost is s = s.rbAvail + (is.map bytesWritten).sum

/-! ## The frame codec -/

/-- FC.CHECKSUM on HOST (41_frame_codec.md section 1): 255 minus the sum modulo 256, and its equivalent forms. -/
def Obligations.FcChecksumComplementsSum : Prop :=
  ∀ data s,
    exec (.fcChecksum .host data) s = .next { s with hostOut := s.hostOut ++ [⟨(0#24 ++ checksumOf data : BitVec 32), []⟩] } ∧
      (∀ other, data.Perm other → checksumOf other = checksumOf data) ∧
      ((data.map BitVec.toNat).sum + (checksumOf data).toNat) % 256 = 255

/-- FC.ESCAPE on HOST (41_frame_codec.md section 2): the operand with every special byte replaced by its pair, or
OperandError where that has more than 16777215 bytes; no block state changes. -/
def Obligations.FcEscapeReplacesSpecialBytes : Prop :=
  ∀ data s,
    ((replaceSpecial data).length ≤ 16777215 →
      exec (.fcEscape .host data) s = .next { s with
        hostOut := s.hostOut ++ [⟨BitVec.ofNat 32 (replaceSpecial data).length, replaceSpecial data⟩] }) ∧
    (16777215 < (replaceSpecial data).length →
      exec (.fcEscape .host data) s = .next { s with hostOut := s.hostOut ++ [⟨0x20000000#32, []⟩] }) ∧
    (∀ b ∈ replaceSpecial data, b ≠ 0x7E#8 ∧ b ≠ 0x11#8 ∧ b ≠ 0x13#8) ∧
    (replaceSpecial data).length = data.length + (data.filter fun b => !isDataByte b).length

/-- FC.UNESCAPE on HOST (41_frame_codec.md section 2): whole stuffed content gives its content bytes; a prefix at the end
is IncompletePacket; an unescaped 7E, 11 or 13 after whole content is SpecialByteNotEscaped with that byte; and every
operand is of one of these three forms. No block state changes. -/
def Obligations.FcUnescapeRemovesStuffing : Prop :=
  (∀ data : List Byte, ∃ pieces, (∀ x ∈ pieces, Piece.ok x = true) ∧
    (data = wireOf pieces ∨ data = wireOf pieces ++ [0x7D#8] ∨
      ∃ b rest, b ∈ [0x7E#8, 0x11#8, 0x13#8] ∧ data = wireOf pieces ++ b :: rest)) ∧
  ∀ pieces s, (∀ x ∈ pieces, Piece.ok x = true) →
    (pieces.length ≤ 16777215 →
      exec (.fcUnescape .host (wireOf pieces)) s = .next { s with
        hostOut := s.hostOut ++ [⟨BitVec.ofNat 32 pieces.length, contentBytes pieces⟩] }) ∧
    exec (.fcUnescape .host (wireOf pieces ++ [0x7D#8])) s = .next { s with
      hostOut := s.hostOut ++ [⟨0x50000000#32, []⟩] } ∧
    (∀ b rest, b ∈ [0x7E#8, 0x11#8, 0x13#8] →
      exec (.fcUnescape .host (wireOf pieces ++ b :: rest)) s = .next { s with
        hostOut := s.hostOut ++ [⟨(0x400000#24 ++ b : BitVec 32), []⟩] })

/-- 41_frame_codec.md R91(a): FC.UNESCAPE of what FC.ESCAPE answers gives the operand of FC.ESCAPE. -/
def Obligations.UnescapeUndoesEscape : Prop :=
  ∀ data s, (replaceSpecial data).length ≤ 16777215 →
    ∃ out t, exec (.fcEscape .host data) s = .next t ∧
      t.hostOut = s.hostOut ++ [⟨BitVec.ofNat 32 out.length, out⟩] ∧
      exec (.fcUnescape .host out) t = .next { t with hostOut := t.hostOut ++ [⟨BitVec.ofNat 32 data.length, data⟩] }

/-- FC.ENCODE on HOST (41_frame_codec.md section 3): ModeError first, then OperandError for no frame type or more than
65535 payload bytes, else the frame; the delimiter is never stuffed. No block state changes. -/
def Obligations.FcEncodeBuildsFrame : Prop :=
  ∀ operand s,
    (∀ mode ∈ [Mode.transparent, Mode.unknown],
      exec (.fcEncode .host mode operand) s = .next { s with hostOut := s.hostOut ++ [⟨0x10000000#32, []⟩] }) ∧
    (operand = [] ∨ 65535 < operand.length → ∀ mode ∈ [Mode.api, Mode.apiEsc],
      exec (.fcEncode .host mode operand) s = .next { s with hostOut := s.hostOut ++ [⟨0x20000000#32, []⟩] }) ∧
    (operand ≠ [] → operand.length ≤ 65535 →
      exec (.fcEncode .host .api operand) s = .next { s with
        hostOut := s.hostOut ++ [⟨BitVec.ofNat 32 (operand.length + 4), 0x7E#8 :: contentRegion operand⟩] } ∧
      exec (.fcEncode .host .apiEsc operand) s = .next { s with
        hostOut := s.hostOut ++ [⟨BitVec.ofNat 32 ((replaceSpecial (contentRegion operand)).length + 1),
          0x7E#8 :: replaceSpecial (contentRegion operand)⟩] })

/-- FC.DECODE on HOST in API mode (41_frame_codec.md section 4): with the payload and the checksum at the places the length
field gives, and any surplus after them, the payload or InvalidChecksum naming the expected checksum; with fewer bytes
than that, IncompletePacket. No block state changes. -/
def Obligations.FcDecodeReadsApiFrame : Prop :=
  ∀ (hi lo : Byte) s,
    (∀ payload c surplus, payload.length = hi.toNat * 256 + lo.toNat →
      exec (.fcDecode .host .api (0x7E#8 :: hi :: lo :: (payload ++ c :: surplus))) s = .next { s with
        hostOut := s.hostOut ++ [if c = checksumOf payload then ⟨BitVec.ofNat 32 payload.length, payload⟩
          else ⟨(0x600000#24 ++ checksumOf payload : BitVec 32), []⟩] }) ∧
    (∀ body, body.length ≤ hi.toNat * 256 + lo.toNat →
      exec (.fcDecode .host .api (0x7E#8 :: hi :: lo :: body)) s = .next { s with
        hostOut := s.hostOut ++ [⟨0x50000000#32, []⟩] }) ∧
    (∀ short ∈ [[], [0x7E#8], [0x7E#8, hi]],
      exec (.fcDecode .host .api short) s = .next { s with hostOut := s.hostOut ++ [⟨0x50000000#32, []⟩] })

/-- FC.DECODE on HOST in API_ESC mode (41_frame_codec.md section 4): on whole stuffed content it answers as API mode does on
the content; an unescaped 7E, 11 or 13 anywhere is SpecialByteNotEscaped, a trailing prefix IncompletePacket, before the
length and the checksum are looked at. -/
def Obligations.FcDecodeUnstuffsFirst : Prop :=
  ∀ pieces s, (∀ x ∈ pieces, Piece.ok x = true) →
    exec (.fcDecode .host .apiEsc (0x7E#8 :: wireOf pieces)) s =
      exec (.fcDecode .host .api (0x7E#8 :: contentBytes pieces)) s ∧
    exec (.fcDecode .host .apiEsc (0x7E#8 :: (wireOf pieces ++ [0x7D#8]))) s = .next { s with
      hostOut := s.hostOut ++ [⟨0x50000000#32, []⟩] } ∧
    (∀ b rest, b ∈ [0x7E#8, 0x11#8, 0x13#8] →
      exec (.fcDecode .host .apiEsc (0x7E#8 :: (wireOf pieces ++ b :: rest))) s = .next { s with
        hostOut := s.hostOut ++ [⟨(0x400000#24 ++ b : BitVec 32), []⟩] })

/-- 60_exceptions.md R120, R122: FC.DECODE in a mode that is not parseable is ModeError whatever its bytes are; in a
parseable mode a first byte other than 7E is BadDelimiter with that byte, and no bytes at all are IncompletePacket. -/
def Obligations.FcDecodeChecksModeThenDelimiter : Prop :=
  ∀ data s,
    (∀ mode ∈ [Mode.transparent, Mode.unknown],
      exec (.fcDecode .host mode data) s = .next { s with hostOut := s.hostOut ++ [⟨0x10000000#32, []⟩] }) ∧
    (∀ mode ∈ [Mode.api, Mode.apiEsc],
      exec (.fcDecode .host mode []) s = .next { s with hostOut := s.hostOut ++ [⟨0x50000000#32, []⟩] } ∧
      ∀ d, d ≠ 0x7E#8 → exec (.fcDecode .host mode (d :: data)) s = .next { s with
        hostOut := s.hostOut ++ [⟨(0x300000#24 ++ d : BitVec 32), []⟩] })

/-- 41_frame_codec.md R91(b): in both parseable modes, for every frame type and every body of at most 65534 bytes, what
FC.ENCODE answers decodes with FC.DECODE to the frame type and the body. -/
def Obligations.DecodeUndoesEncode : Prop :=
  ∀ mode frameType body s, mode ∈ [Mode.api, Mode.apiEsc] → body.length ≤ 65534 →
    ∃ frame t, exec (.fcEncode .host mode (frameType :: body)) s = .next t ∧
      t.hostOut = s.hostOut ++ [⟨BitVec.ofNat 32 frame.length, frame⟩] ∧
      exec (.fcDecode .host mode frame) t = .next { t with
        hostOut := t.hostOut ++ [⟨BitVec.ofNat 32 (body.length + 1), frameType :: body⟩] }

/-- 41_frame_codec.md R91(d), API mode: one payload bit of an encoded frame flipped makes the decode end in
InvalidChecksum, naming the checksum of the damaged payload. -/
def Obligations.FlippedPayloadBitFailsChecksum : Prop :=
  ∀ xs (b : Byte) ys (k : Nat) s, k < 8 → xs.length + ys.length ≤ 65534 →
    let sent := xs ++ b :: ys
    let received := xs ++ (b ^^^ (1#8 <<< k)) :: ys
    exec (.fcDecode .host .api (0x7E#8 :: BitVec.ofNat 8 (sent.length / 256) :: BitVec.ofNat 8 (sent.length % 256) ::
        (received ++ [checksumOf sent]))) s = .next { s with
      hostOut := s.hostOut ++ [⟨(0x600000#24 ++ checksumOf received : BitVec 32), []⟩] }

/-! ## Control and status registers -/

/-- CSR.READ on HOST (43_control.md section 1): the value of each of the seven registers, with the mode numbers of
30_encoding.md R52 and the state numbers of 10_state.md R24 written out, and OperandError for the numbers 0x07 to 0xFF;
nothing changes. -/
def Obligations.CsrReadReturnsRegister : Prop :=
  ∀ s, RingOk s →
    let reads := fun (csr : BitVec 8) (w : BitVec 32) =>
      exec (.csrRead .host csr) s = .next { s with hostOut := s.hostOut ++ [⟨w, []⟩] }
    let modeNumber : Nat := match s.ctlMode with
      | .transparent => 0
      | .api => 1
      | .apiEsc => 2
      | .unknown => 3
    let stateNumber : Nat := match s.dmState with
      | .hunt => 0
      | .lenHi => 1
      | .lenLo => 2
      | .payload => 3
      | .checksum => 4
    reads 0x00#8 (BitVec.ofNat 32 ((if s.ctlRun then 1 else 0) + 2 * modeNumber)) ∧
    reads 0x01#8 (BitVec.ofNat 32 s.cap) ∧
    reads 0x02#8 (BitVec.ofNat 32 s.rbRd) ∧
    reads 0x03#8 (BitVec.ofNat 32 s.rbWr) ∧
    reads 0x04#8 (BitVec.ofNat 32 s.rbAvail) ∧
    reads 0x05#8 (BitVec.ofNat 32 (stateNumber + 8 * (if s.dmEsc then 1 else 0) + 256 * s.dmSum.toNat)) ∧
    reads 0x06#8 (BitVec.ofNat 32 s.dmLen.toNat) ∧
    ∀ csr : BitVec 8, 7 ≤ csr.toNat → reads csr 0x20000000#32

/-- CSR.WRITE on HOST that is turned away (43_control.md section 3): an undefined number, a read-only register, or a reserved
bit of CTRL is OperandError, whatever the value, and nothing changes. -/
def Obligations.CsrWriteRefusesBadOperand : Prop :=
  ∀ (csr : BitVec 8) (value : BitVec 16) s, (1 ≤ csr.toNat ∨ 8 ≤ value.toNat) →
    exec (.csrWrite .host csr value) s = .next { s with hostOut := s.hostOut ++ [⟨0x20000000#32, []⟩] }

/-- CSR.WRITE of CTRL on HOST (43_control.md section 2): the eight legal values, `run` in bit 0 and the mode number of
30_encoding.md R52 in bits 2:1, written out; the same mode leaves the demultiplexer as it is, another mode resets it
without an event; the ring is not touched. -/
def Obligations.CtrlWriteSetsRunAndMode : Prop :=
  ∀ (value : BitVec 16) (run : Bool) (mode : Mode) s,
    (value, run, mode) ∈ [(0#16, false, .transparent), (1#16, true, .transparent), (2#16, false, .api), (3#16, true, .api),
      (4#16, false, .apiEsc), (5#16, true, .apiEsc), (6#16, false, .unknown), (7#16, true, .unknown)] →
    let write := Instr.csrWrite .host 0x00#8 value
    (mode = s.ctlMode →
      exec write s = .next { s with ctlRun := run, hostOut := s.hostOut ++ [⟨0#32, []⟩] }) ∧
    (mode ≠ s.ctlMode →
      exec write s = .next { s with
        ctlRun := run, ctlMode := mode, dmState := .hunt, dmEsc := false, dmLen := 0#16, dmFb := [], dmSum := 0#8
        hostOut := s.hostOut ++ [⟨0#32, []⟩] })

/-- The pseudo-operations of 30_encoding.md R62 that change the ring or CTRL: RB.FLUSH empties the buffer for every legal
CAP, RB.POP takes the oldest byte, RB.PUSH adds one, DM.START sets `run` and the mode, DM.STOP's second command holds the
demultiplexer and keeps the mode and the open frame. -/
def Obligations.PseudoOperationsExpand : Prop :=
  ∀ s, RingOk s →
    (∃ t, exec pseudoFlush s = .next t ∧ t.rbAvail = 0 ∧ t.rbRd = s.rbWr ∧ t.rbWr = s.rbWr) ∧
    (∀ b rest, contents s = b :: rest →
      ∃ t, exec pseudoPop s = .next t ∧ contents t = rest ∧ t.hostOut = s.hostOut ++ [⟨1#32, [b]⟩]) ∧
    (∀ p b, s.rbAvail < s.cap → ∃ t, exec (pseudoPush p b) s = .next t ∧ contents t = contents s ++ [b]) ∧
    (∀ mode, ∃ t, exec (pseudoStart mode) s = .next t ∧ t.ctlRun = true ∧ t.ctlMode = mode) ∧
    (∀ value : BitVec 16, value.toNat = (if s.ctlRun then 1 else 0) + 2 * (match s.ctlMode with
        | .transparent => 0
        | .api => 1
        | .apiEsc => 2
        | .unknown => 3) →
      ∃ t, execAll (pseudoStop value) s = .next t ∧ t = { s with ctlRun := false, hostOut := t.hostOut })

/-! ## The demultiplexer -/

/-- 42_demux.md R94: a demultiplexer that is not enabled changes nothing, whatever the byte or form. -/
def Obligations.HeldDemuxChangesNothing : Prop :=
  ∀ s, ¬ DemuxEnabled s →
    exec .dmStepDelim s = .next s ∧ exec .dmStepEsc s = .next s ∧ exec .dmStepXon s = .next s ∧
    exec .dmStepXoff s = .next s ∧ (∀ b, exec (.dmStepData b) s = .next s) ∧
    (∀ v, exec (.escPair v) s = .next s) ∧ (∀ hi lo, exec (.frameHdr hi lo) s = .next s)

/-- An enabled DM.STEP on a byte of any class (42_demux.md section 1) consumes exactly one byte, and touches nothing but the
demultiplexer's registers and the event list, to which it appends at most one event. Covers DM.STEP.DELIM, DM.STEP.ESC,
DM.STEP.XON, DM.STEP.XOFF and DM.STEP.DATA. -/
def Obligations.DmStepConsumesOneByte : Prop :=
  ∀ s, DemuxEnabled s → ∀ i, (i = .dmStepDelim ∨ i = .dmStepEsc ∨ i = .dmStepXon ∨ i = .dmStepXoff ∨ ∃ b, i = .dmStepData b) →
    ∃ t, exec i s = .next t ∧ t.rbRd = (s.rbRd + 1) % s.cap ∧ t.rbAvail = s.rbAvail - 1 ∧
      (t.events = s.events ∨ ∃ e, t.events = s.events ++ [e]) ∧
      t = { s with rbRd := t.rbRd, rbAvail := t.rbAvail, dmState := t.dmState, dmEsc := t.dmEsc, dmLen := t.dmLen,
                   dmFb := t.dmFb, dmSum := t.dmSum, events := t.events }

/-- 42_demux.md R97: in HUNT, in either parseable mode, a byte other than 7E is discarded: only the ring's read side
moves. -/
def Obligations.HuntDiscardsOtherBytes : Prop :=
  ∀ s, DemuxEnabled s → s.dmState = .hunt →
    exec .dmStepEsc s = .next s.withoutOldest ∧ exec .dmStepXon s = .next s.withoutOldest ∧
    exec .dmStepXoff s = .next s.withoutOldest ∧
    ∀ b, isDataByte b = true → exec (.dmStepData b) s = .next s.withoutOldest

/-- 42_demux.md R98: in HUNT the byte 7E opens a frame, without an event. -/
def Obligations.HuntDelimiterOpensFrame : Prop :=
  ∀ s, DemuxEnabled s → s.dmState = .hunt →
    exec .dmStepDelim s = .next { s.withoutOldest with
      dmState := .lenHi, dmEsc := false, dmLen := 0#16, dmFb := [], dmSum := 0#8 }

/-- 42_demux.md R99: inside an API_ESC frame with no prefix pending, 7D sets `dm.esc` and nothing else. -/
def Obligations.PrefixIsRemembered : Prop :=
  ∀ s, DemuxEnabled s → s.dmState ≠ .hunt → s.ctlMode = .apiEsc → s.dmEsc = false →
    exec .dmStepEsc s = .next { s.withoutOldest with dmEsc := true }

/-- 42_demux.md R101: inside an API_ESC frame with no prefix pending, 11 or 13 is an error event and abandons the frame. -/
def Obligations.FlowByteAbandonsFrame : Prop :=
  ∀ s, DemuxEnabled s → s.dmState ≠ .hunt → s.ctlMode = .apiEsc → s.dmEsc = false →
    (exec .dmStepXon s = .next { s.withoutOldest with
      events := s.events ++ [.err .specialByteNotEscaped 0x11#8]
      dmState := .hunt, dmEsc := false, dmLen := 0#16, dmFb := [], dmSum := 0#8 }) ∧
    (exec .dmStepXoff s = .next { s.withoutOldest with
      events := s.events ++ [.err .specialByteNotEscaped 0x13#8]
      dmState := .hunt, dmEsc := false, dmLen := 0#16, dmFb := [], dmSum := 0#8 })

/-- 42_demux.md R102: inside an API_ESC frame with no prefix pending, 7E is an error event for the open frame and opens
the next one. -/
def Obligations.DelimiterInFrameReopens : Prop :=
  ∀ s, DemuxEnabled s → s.dmState ≠ .hunt → s.ctlMode = .apiEsc → s.dmEsc = false →
    exec .dmStepDelim s = .next { s.withoutOldest with
      events := s.events ++ [.err .specialByteNotEscaped 0x7E#8]
      dmState := .lenHi, dmEsc := false, dmLen := 0#16, dmFb := [], dmSum := 0#8 }

/-- 42_demux.md R104: a content byte in LEN_HI is the high byte of the length. -/
def Obligations.ContentByteIsLengthHigh : Prop :=
  ∀ b v s, DemuxEnabled s → Delivers b v s → s.dmState = .lenHi →
    exec (decodeByte b) s = .next { s.withoutOldest with
      dmEsc := false, dmLen := BitVec.ofNat 16 (v.toNat * 256), dmState := .lenLo }

/-- 42_demux.md R105: a content byte in LEN_LO completes the length, every value of which is accepted; a zero length goes
straight to the checksum. -/
def Obligations.ContentByteIsLengthLow : Prop :=
  ∀ b v s, DemuxEnabled s → Delivers b v s → s.dmState = .lenLo →
    exec (decodeByte b) s = .next { s.withoutOldest with
      dmEsc := false, dmLen := BitVec.ofNat 16 (s.dmLen.toNat + v.toNat)
      dmState := if (s.dmLen.toNat + v.toNat) % 65536 = 0 then .checksum else .payload }

/-- 42_demux.md R106: a content byte in PAYLOAD is collected and summed; the last one moves on to the checksum. -/
def Obligations.ContentByteIsPayload : Prop :=
  ∀ b v s, DemuxEnabled s → Delivers b v s → s.dmState = .payload →
    exec (decodeByte b) s = .next { s.withoutOldest with
      dmEsc := false, dmFb := s.dmFb ++ [v], dmSum := BitVec.ofNat 8 (s.dmSum.toNat + v.toNat)
      dmState := if (s.dmFb ++ [v]).length = s.dmLen.toNat then .checksum else .payload }

/-- 42_demux.md R107: a content byte in CHECKSUM closes the frame with exactly one event: the payload where it is the
checksum the payload calls for, else InvalidChecksum naming that checksum; and the demultiplexer is in HUNT. -/
def Obligations.ContentByteClosesFrame : Prop :=
  ∀ b v s, DemuxEnabled s → DmOk s → Delivers b v s → s.dmState = .checksum →
    exec (decodeByte b) s = .next { s.withoutOldest with
      events := s.events ++
        [if v = checksumOf s.dmFb then .frame s.dmFb else .err .invalidChecksum (checksumOf s.dmFb)]
      dmState := .hunt, dmEsc := false, dmLen := 0#16, dmFb := [], dmSum := 0#8 }

/-- That one instruction ESCPAIR takes two bytes from the ring is the model's choice (LOG 8). Inside the payload of an
API_ESC frame it delivers `v ^ 0x20`, whatever `v` is (30_encoding.md R50, 42_demux.md R99, R100), as a payload byte
(42_demux.md R106). Its effect elsewhere is that of two DM.STEPs (DerivedFormsAreDmSteps). -/
def Obligations.EscPairDeliversXoredByte : Prop :=
  ∀ v s, DemuxEnabled s → 2 ≤ s.rbAvail → s.ctlMode = .apiEsc → s.dmEsc = false → s.dmState = .payload →
    exec (.escPair v) s = .next { s with
      rbRd := (s.rbRd + 2) % s.cap, rbAvail := s.rbAvail - 2
      dmFb := s.dmFb ++ [v ^^^ 0x20#8], dmSum := s.dmSum + (v ^^^ 0x20#8)
      dmState := if (s.dmFb ++ [v ^^^ 0x20#8]).length = s.dmLen.toNat then .checksum else .payload }

/-- That one instruction FRAMEHDR takes three bytes from the ring is the model's choice (LOG 8). Between frames it opens a
frame of length `lenHi * 256 + lenLo` (30_encoding.md R45, R46, 42_demux.md R98, R104, R105): in API mode whatever the
length bytes are (42_demux.md R103), in API_ESC mode where neither is special (42_demux.md R96). Its effect elsewhere is
that of three DM.STEPs (DerivedFormsAreDmSteps). -/
def Obligations.FrameHdrOpensFrame : Prop :=
  ∀ (hi lo : Byte) s, DemuxEnabled s → 3 ≤ s.rbAvail → s.dmState = .hunt →
    (s.ctlMode = .apiEsc → isDataByte hi = true ∧ isDataByte lo = true) →
    exec (.frameHdr hi lo) s = .next { s with
      rbRd := (s.rbRd + 3) % s.cap, rbAvail := s.rbAvail - 3
      dmEsc := false, dmLen := BitVec.ofNat 16 (hi.toNat * 256 + lo.toNat), dmFb := [], dmSum := 0#8
      dmState := if hi.toNat * 256 + lo.toNat = 0 then .checksum else .payload }

/-- 42_demux.md R109(a) to (d). From HUNT, with the demultiplexer enabled in a parseable mode and the bytes of `F` next in
the ring, `F` beginning with a delimiter and no shorter part of it being a whole frame or an error for FC.DECODE: after
one DM.STEP for each byte, if FC.DECODE gives a payload then exactly that frame was emitted; if InvalidChecksum or
SpecialByteNotEscaped, exactly that error; if IncompletePacket, nothing, and a frame is open. -/
def Obligations.DemuxAgreesWithFcDecode : Prop :=
  ∀ s F more rest, RingOk s → s.ctlRun = true → (s.ctlMode = .api ∨ s.ctlMode = .apiEsc) → s.dmState = .hunt →
    contents s = F ++ more → F.head? = some 0x7E#8 → s.sched = List.replicate F.length .demux ++ rest →
    (∀ k < F.length, decodeOp s.ctlMode (F.take k) = .error incompleteErr) →
    ∃ t, Host.Core.run Sys2Proof.core F.length s = .next t ∧
      (∀ P, decodeOp s.ctlMode F = .ok P → t.events = s.events ++ [.frame P] ∧ t.dmState = .hunt) ∧
      (∀ e, decodeOp s.ctlMode F = .error (checksumErr e) →
        t.events = s.events ++ [.err .invalidChecksum e] ∧ t.dmState = .hunt) ∧
      (∀ b, decodeOp s.ctlMode F = .error (specialErr b) →
        t.events = s.events ++ [.err .specialByteNotEscaped b] ∧
          t.dmState = if b = 0x7E#8 then .lenHi else .hunt) ∧
      (decodeOp s.ctlMode F = .error incompleteErr → t.events = s.events ∧ t.dmState ≠ .hunt)

/-! ## Steps and runs -/

/-- A step whose turn a port has runs the command that its stream begins with, in the state that has passed the turn, the
word and the operand bytes. -/
def Obligations.StepRunsPortCommand : Prop :=
  ∀ s i q rest,
    (s.sched = .host :: rest → decodePort .host s.hostIn = .command i q →
      step s = exec i { s with sched := rest, hostIn := q }) ∧
    (s.sched = .prod :: rest → decodePort .prod s.prodIn = .command i q →
      step s = exec i { s with sched := rest, prodIn := q })

/-- A step whose turn the enabled demultiplexer has runs the DM.STEP row of the oldest unread byte. -/
def Obligations.StepRunsOldestByte : Prop :=
  ∀ s b more rest, RingOk s → DemuxEnabled s → s.sched = .demux :: rest → contents s = b :: more →
    step s = exec (decodeByte b) { s with sched := rest }

/-- The model's choice (LOG 8): a turn for an ESCPAIR or a FRAMEHDR leaves what two or three turns for one DM.STEP each
leave. -/
def Obligations.DerivedFormsAreDmSteps : Prop :=
  ∀ s rest more, RingOk s → DemuxEnabled s →
    (∀ v, s.sched = .demuxPair :: rest → contents s = 0x7D#8 :: v :: more →
      step s = exec (.escPair v) { s with sched := rest } ∧
      step s = Host.Core.run Sys2Proof.core 2 { s with sched := .demux :: .demux :: rest }) ∧
    (∀ hi lo, s.sched = .demuxHeader :: rest → contents s = 0x7E#8 :: hi :: lo :: more →
      step s = exec (.frameHdr hi lo) { s with sched := rest } ∧
      step s = Host.Core.run Sys2Proof.core 3 { s with sched := .demux :: .demux :: .demux :: rest })

/-- Past the schedule's end (the model's choice, LOG 5 and LOG 7): a quiescent block stays as it is; the only enabled agent
has its turn; among several, one of them has it. -/
def Obligations.StepTakesAnEnabledTurn : Prop :=
  ∀ s, s.sched = [] →
    (enabledTurns s = [] → step s = .next s) ∧
    (∀ turn, enabledTurns s = [turn] → step s = carryOut (fetch turn s)) ∧
    (2 ≤ (enabledTurns s).length →
      ∃ turn ∈ enabledTurns s, step s = carryOut (fetch turn { s with choices := s.choices + 1 }))

/-- 70_reset_and_hazards.md R151: with both scripts exhausted and nothing more scheduled, a quiescent state is reached in
at most `rb.avail` steps. -/
def Obligations.QuiescenceIsReached : Prop :=
  ∀ s, RingOk s → s.sched = [] → portReady .prod s = false → portReady .host s = false →
    ∃ n ≤ s.rbAvail, ∃ t, Host.Core.run Sys2Proof.core n s = .next t ∧ enabledTurns t = []

/-- `out.events` is append-only (10_state.md section 5): every step keeps what was emitted, and a step that adds to it is a
turn of the demultiplexer or past the schedule's end. -/
def Obligations.EventsAreAppendOnly : Prop :=
  ∀ s t, step s = .next t →
    (∃ new, t.events = s.events ++ new) ∧
    (∀ turn rest, s.sched = turn :: rest → (turn = .prod ∨ turn = .host) → t.events = s.events)

/-- Every step keeps I-RB (40_ring_buffer.md R72), in every state that has it. -/
def Obligations.StepKeepsRingInvariant : Prop :=
  ∀ s t, RingOk s → step s = .next t → RingOk t ∧ t.cap = s.cap

/-- Every step keeps I-DM and the invariant on `dm.esc` (10_state.md section 5), in every state that has them. -/
def Obligations.StepKeepsDemuxInvariant : Prop :=
  ∀ s t, DmOk s → step s = .next t → DmOk t

/-- Every step keeps the ring memory canonical, inside the ring, and written in every cell of the unread window, so that a
cell never written is never observed (10_state.md R15). -/
def Obligations.StepKeepsMemoryWritten : Prop :=
  ∀ s t, RingOk s → MemOk s → step s = .next t → MemOk t

/-- Every step keeps the events and the answers to the kinds and codes the spec gives them (60_exceptions.md R119, R130):
no code 9 to 15, no event but a frame, SpecialByteNotEscaped or InvalidChecksum. -/
def Obligations.StepKeepsEventsAndAnswersLegal : Prop :=
  ∀ s t, DmOk s → EventsOk s → ResponsesOk s → step s = .next t → EventsOk t ∧ ResponsesOk t

/-- No step of a sound state faults or is refused, and the next state is sound again. -/
def Obligations.SoundStateAlwaysSteps : Prop :=
  ∀ s, Sound s → ∃ t, step s = .next t ∧ Sound t

/-- A block of any legal capacity can be created, and in its reset state it is sound, no event has been emitted and both
indications are low (10_state.md R29, 70_reset_and_hazards.md R138); one of any other capacity, 0 among them, cannot be
created (00_scope.md R5, 40_ring_buffer.md R76). That nothing is enabled in it rests on the model's choices of empty ports
(LOG 3), an empty schedule (LOG 5) and no program placed (LOG 9); that `event_valid` is low, on the reading of LOG 17; and
that `State.reset` has capacity 10, on LOG 1. -/
def Obligations.ResetIsSound : Prop :=
  (∀ capacity, 1 ≤ capacity → capacity ≤ 16777215 →
    ∃ s, State.create capacity = some s ∧ s.cap = capacity ∧ Sound s ∧ s.events = [] ∧
      dataAvail s = false ∧ eventValid s = false ∧ enabledTurns s = []) ∧
  (∀ capacity, capacity = 0 ∨ 16777215 < capacity → State.create capacity = none) ∧
  Sound State.reset ∧ State.create 10 = some State.reset

/-- 70_reset_and_hazards.md R138: what the seven CSRs read after reset, for every legal capacity. -/
def Obligations.ResetCsrsReadZero : Prop :=
  ∀ capacity, 1 ≤ capacity → capacity ≤ 16777215 →
    ∃ s, State.create capacity = some s ∧ ∀ n < 7,
      exec (.csrRead .host (BitVec.ofNat 8 n)) s = .next { s with
        hostOut := s.hostOut ++ [⟨if n = 1 then BitVec.ofNat 32 capacity else 0#32, []⟩] }

/-- 30_encoding.md R59: the record of a frame is its length and its bytes, the record of an error its code and its info
byte. -/
def Obligations.EventRecordsCarryCodeAndLength : Prop :=
  (∀ payload, payload.length ≤ 65535 → eventRecord (.frame payload) = ⟨BitVec.ofNat 32 payload.length, payload⟩) ∧
  (∀ info, eventRecord (.err .specialByteNotEscaped info) = ⟨(0x400000#24 ++ info : BitVec 32), []⟩ ∧
    eventRecord (.err .invalidChecksum info) = ⟨(0x600000#24 ++ info : BitVec 32), []⟩)
end

