-- ==== Sys2Proof/Laws/State.lean ====
section
/-! SUPPORT. What each named update does to each field of the state. -/

namespace Sys2Proof.Machine

variable (s : State)

@[simp] theorem rbPushed_cap : (s.rbPushed).cap = s.cap := rfl
@[simp] theorem rbPushed_rbMem : (s.rbPushed).rbMem = s.rbMem := rfl
@[simp] theorem rbPushed_rbRd : (s.rbPushed).rbRd = if rbFull s then nextIndex s s.rbRd else s.rbRd := rfl
@[simp] theorem rbPushed_rbWr : (s.rbPushed).rbWr = nextIndex s s.rbWr := rfl
@[simp] theorem rbPushed_rbAvail : (s.rbPushed).rbAvail = if rbFull s then s.rbAvail else s.rbAvail + 1 := rfl
@[simp] theorem rbPushed_ctlRun : (s.rbPushed).ctlRun = s.ctlRun := rfl
@[simp] theorem rbPushed_ctlMode : (s.rbPushed).ctlMode = s.ctlMode := rfl
@[simp] theorem rbPushed_dmState : (s.rbPushed).dmState = s.dmState := rfl
@[simp] theorem rbPushed_dmEsc : (s.rbPushed).dmEsc = s.dmEsc := rfl
@[simp] theorem rbPushed_dmLen : (s.rbPushed).dmLen = s.dmLen := rfl
@[simp] theorem rbPushed_dmFb : (s.rbPushed).dmFb = s.dmFb := rfl
@[simp] theorem rbPushed_dmSum : (s.rbPushed).dmSum = s.dmSum := rfl
@[simp] theorem rbPushed_events : (s.rbPushed).events = s.events := rfl
@[simp] theorem rbPushed_prodIn : (s.rbPushed).prodIn = s.prodIn := rfl
@[simp] theorem rbPushed_hostIn : (s.rbPushed).hostIn = s.hostIn := rfl
@[simp] theorem rbPushed_prodOut : (s.rbPushed).prodOut = s.prodOut := rfl
@[simp] theorem rbPushed_hostOut : (s.rbPushed).hostOut = s.hostOut := rfl
@[simp] theorem rbPushed_sched : (s.rbPushed).sched = s.sched := rfl
@[simp] theorem rbPushed_choices : (s.rbPushed).choices = s.choices := rfl

@[simp] theorem rbConsumed_cap (n : Nat) : (s.rbConsumed n).cap = s.cap := rfl
@[simp] theorem rbConsumed_rbMem (n : Nat) : (s.rbConsumed n).rbMem = s.rbMem := rfl
@[simp] theorem rbConsumed_rbRd (n : Nat) : (s.rbConsumed n).rbRd = (s.rbRd + n) % s.cap := rfl
@[simp] theorem rbConsumed_rbWr (n : Nat) : (s.rbConsumed n).rbWr = s.rbWr := rfl
@[simp] theorem rbConsumed_rbAvail (n : Nat) : (s.rbConsumed n).rbAvail = s.rbAvail - n := rfl
@[simp] theorem rbConsumed_ctlRun (n : Nat) : (s.rbConsumed n).ctlRun = s.ctlRun := rfl
@[simp] theorem rbConsumed_ctlMode (n : Nat) : (s.rbConsumed n).ctlMode = s.ctlMode := rfl
@[simp] theorem rbConsumed_dmState (n : Nat) : (s.rbConsumed n).dmState = s.dmState := rfl
@[simp] theorem rbConsumed_dmEsc (n : Nat) : (s.rbConsumed n).dmEsc = s.dmEsc := rfl
@[simp] theorem rbConsumed_dmLen (n : Nat) : (s.rbConsumed n).dmLen = s.dmLen := rfl
@[simp] theorem rbConsumed_dmFb (n : Nat) : (s.rbConsumed n).dmFb = s.dmFb := rfl
@[simp] theorem rbConsumed_dmSum (n : Nat) : (s.rbConsumed n).dmSum = s.dmSum := rfl
@[simp] theorem rbConsumed_events (n : Nat) : (s.rbConsumed n).events = s.events := rfl
@[simp] theorem rbConsumed_prodIn (n : Nat) : (s.rbConsumed n).prodIn = s.prodIn := rfl
@[simp] theorem rbConsumed_hostIn (n : Nat) : (s.rbConsumed n).hostIn = s.hostIn := rfl
@[simp] theorem rbConsumed_prodOut (n : Nat) : (s.rbConsumed n).prodOut = s.prodOut := rfl
@[simp] theorem rbConsumed_hostOut (n : Nat) : (s.rbConsumed n).hostOut = s.hostOut := rfl
@[simp] theorem rbConsumed_sched (n : Nat) : (s.rbConsumed n).sched = s.sched := rfl
@[simp] theorem rbConsumed_choices (n : Nat) : (s.rbConsumed n).choices = s.choices := rfl

@[simp] theorem answer_cap (p : Port) (r : Response) : (s.answer p r).cap = s.cap := rfl
@[simp] theorem answer_rbMem (p : Port) (r : Response) : (s.answer p r).rbMem = s.rbMem := rfl
@[simp] theorem answer_rbRd (p : Port) (r : Response) : (s.answer p r).rbRd = s.rbRd := rfl
@[simp] theorem answer_rbWr (p : Port) (r : Response) : (s.answer p r).rbWr = s.rbWr := rfl
@[simp] theorem answer_rbAvail (p : Port) (r : Response) : (s.answer p r).rbAvail = s.rbAvail := rfl
@[simp] theorem answer_ctlRun (p : Port) (r : Response) : (s.answer p r).ctlRun = s.ctlRun := rfl
@[simp] theorem answer_ctlMode (p : Port) (r : Response) : (s.answer p r).ctlMode = s.ctlMode := rfl
@[simp] theorem answer_dmState (p : Port) (r : Response) : (s.answer p r).dmState = s.dmState := rfl
@[simp] theorem answer_dmEsc (p : Port) (r : Response) : (s.answer p r).dmEsc = s.dmEsc := rfl
@[simp] theorem answer_dmLen (p : Port) (r : Response) : (s.answer p r).dmLen = s.dmLen := rfl
@[simp] theorem answer_dmFb (p : Port) (r : Response) : (s.answer p r).dmFb = s.dmFb := rfl
@[simp] theorem answer_dmSum (p : Port) (r : Response) : (s.answer p r).dmSum = s.dmSum := rfl
@[simp] theorem answer_events (p : Port) (r : Response) : (s.answer p r).events = s.events := rfl
@[simp] theorem answer_prodIn (p : Port) (r : Response) : (s.answer p r).prodIn = s.prodIn := rfl
@[simp] theorem answer_hostIn (p : Port) (r : Response) : (s.answer p r).hostIn = s.hostIn := rfl
@[simp] theorem answer_prodOut (p : Port) (r : Response) : (s.answer p r).prodOut = if p = .prod then s.prodOut ++ [r] else s.prodOut := rfl
@[simp] theorem answer_hostOut (p : Port) (r : Response) : (s.answer p r).hostOut = if p = .host then s.hostOut ++ [r] else s.hostOut := rfl
@[simp] theorem answer_sched (p : Port) (r : Response) : (s.answer p r).sched = s.sched := rfl
@[simp] theorem answer_choices (p : Port) (r : Response) : (s.answer p r).choices = s.choices := rfl

@[simp] theorem emit_cap (e : Event) : (s.emit e).cap = s.cap := rfl
@[simp] theorem emit_rbMem (e : Event) : (s.emit e).rbMem = s.rbMem := rfl
@[simp] theorem emit_rbRd (e : Event) : (s.emit e).rbRd = s.rbRd := rfl
@[simp] theorem emit_rbWr (e : Event) : (s.emit e).rbWr = s.rbWr := rfl
@[simp] theorem emit_rbAvail (e : Event) : (s.emit e).rbAvail = s.rbAvail := rfl
@[simp] theorem emit_ctlRun (e : Event) : (s.emit e).ctlRun = s.ctlRun := rfl
@[simp] theorem emit_ctlMode (e : Event) : (s.emit e).ctlMode = s.ctlMode := rfl
@[simp] theorem emit_dmState (e : Event) : (s.emit e).dmState = s.dmState := rfl
@[simp] theorem emit_dmEsc (e : Event) : (s.emit e).dmEsc = s.dmEsc := rfl
@[simp] theorem emit_dmLen (e : Event) : (s.emit e).dmLen = s.dmLen := rfl
@[simp] theorem emit_dmFb (e : Event) : (s.emit e).dmFb = s.dmFb := rfl
@[simp] theorem emit_dmSum (e : Event) : (s.emit e).dmSum = s.dmSum := rfl
@[simp] theorem emit_events (e : Event) : (s.emit e).events = s.events ++ [e] := rfl
@[simp] theorem emit_prodIn (e : Event) : (s.emit e).prodIn = s.prodIn := rfl
@[simp] theorem emit_hostIn (e : Event) : (s.emit e).hostIn = s.hostIn := rfl
@[simp] theorem emit_prodOut (e : Event) : (s.emit e).prodOut = s.prodOut := rfl
@[simp] theorem emit_hostOut (e : Event) : (s.emit e).hostOut = s.hostOut := rfl
@[simp] theorem emit_sched (e : Event) : (s.emit e).sched = s.sched := rfl
@[simp] theorem emit_choices (e : Event) : (s.emit e).choices = s.choices := rfl

@[simp] theorem dmCleared_cap (d : DmState) : (s.dmCleared d).cap = s.cap := rfl
@[simp] theorem dmCleared_rbMem (d : DmState) : (s.dmCleared d).rbMem = s.rbMem := rfl
@[simp] theorem dmCleared_rbRd (d : DmState) : (s.dmCleared d).rbRd = s.rbRd := rfl
@[simp] theorem dmCleared_rbWr (d : DmState) : (s.dmCleared d).rbWr = s.rbWr := rfl
@[simp] theorem dmCleared_rbAvail (d : DmState) : (s.dmCleared d).rbAvail = s.rbAvail := rfl
@[simp] theorem dmCleared_ctlRun (d : DmState) : (s.dmCleared d).ctlRun = s.ctlRun := rfl
@[simp] theorem dmCleared_ctlMode (d : DmState) : (s.dmCleared d).ctlMode = s.ctlMode := rfl
@[simp] theorem dmCleared_dmState (d : DmState) : (s.dmCleared d).dmState = d := rfl
@[simp] theorem dmCleared_dmEsc (d : DmState) : (s.dmCleared d).dmEsc = false := rfl
@[simp] theorem dmCleared_dmLen (d : DmState) : (s.dmCleared d).dmLen = 0#16 := rfl
@[simp] theorem dmCleared_dmFb (d : DmState) : (s.dmCleared d).dmFb = [] := rfl
@[simp] theorem dmCleared_dmSum (d : DmState) : (s.dmCleared d).dmSum = 0#8 := rfl
@[simp] theorem dmCleared_events (d : DmState) : (s.dmCleared d).events = s.events := rfl
@[simp] theorem dmCleared_prodIn (d : DmState) : (s.dmCleared d).prodIn = s.prodIn := rfl
@[simp] theorem dmCleared_hostIn (d : DmState) : (s.dmCleared d).hostIn = s.hostIn := rfl
@[simp] theorem dmCleared_prodOut (d : DmState) : (s.dmCleared d).prodOut = s.prodOut := rfl
@[simp] theorem dmCleared_hostOut (d : DmState) : (s.dmCleared d).hostOut = s.hostOut := rfl
@[simp] theorem dmCleared_sched (d : DmState) : (s.dmCleared d).sched = s.sched := rfl
@[simp] theorem dmCleared_choices (d : DmState) : (s.dmCleared d).choices = s.choices := rfl

@[simp] theorem withEsc_cap (v : Bool) : (s.withEsc v).cap = s.cap := rfl
@[simp] theorem withEsc_rbMem (v : Bool) : (s.withEsc v).rbMem = s.rbMem := rfl
@[simp] theorem withEsc_rbRd (v : Bool) : (s.withEsc v).rbRd = s.rbRd := rfl
@[simp] theorem withEsc_rbWr (v : Bool) : (s.withEsc v).rbWr = s.rbWr := rfl
@[simp] theorem withEsc_rbAvail (v : Bool) : (s.withEsc v).rbAvail = s.rbAvail := rfl
@[simp] theorem withEsc_ctlRun (v : Bool) : (s.withEsc v).ctlRun = s.ctlRun := rfl
@[simp] theorem withEsc_ctlMode (v : Bool) : (s.withEsc v).ctlMode = s.ctlMode := rfl
@[simp] theorem withEsc_dmState (v : Bool) : (s.withEsc v).dmState = s.dmState := rfl
@[simp] theorem withEsc_dmEsc (v : Bool) : (s.withEsc v).dmEsc = v := rfl
@[simp] theorem withEsc_dmLen (v : Bool) : (s.withEsc v).dmLen = s.dmLen := rfl
@[simp] theorem withEsc_dmFb (v : Bool) : (s.withEsc v).dmFb = s.dmFb := rfl
@[simp] theorem withEsc_dmSum (v : Bool) : (s.withEsc v).dmSum = s.dmSum := rfl
@[simp] theorem withEsc_events (v : Bool) : (s.withEsc v).events = s.events := rfl
@[simp] theorem withEsc_prodIn (v : Bool) : (s.withEsc v).prodIn = s.prodIn := rfl
@[simp] theorem withEsc_hostIn (v : Bool) : (s.withEsc v).hostIn = s.hostIn := rfl
@[simp] theorem withEsc_prodOut (v : Bool) : (s.withEsc v).prodOut = s.prodOut := rfl
@[simp] theorem withEsc_hostOut (v : Bool) : (s.withEsc v).hostOut = s.hostOut := rfl
@[simp] theorem withEsc_sched (v : Bool) : (s.withEsc v).sched = s.sched := rfl
@[simp] theorem withEsc_choices (v : Bool) : (s.withEsc v).choices = s.choices := rfl

@[simp] theorem withLength_cap (len : BitVec 16) (d : DmState) : (s.withLength len d).cap = s.cap := rfl
@[simp] theorem withLength_rbMem (len : BitVec 16) (d : DmState) : (s.withLength len d).rbMem = s.rbMem := rfl
@[simp] theorem withLength_rbRd (len : BitVec 16) (d : DmState) : (s.withLength len d).rbRd = s.rbRd := rfl
@[simp] theorem withLength_rbWr (len : BitVec 16) (d : DmState) : (s.withLength len d).rbWr = s.rbWr := rfl
@[simp] theorem withLength_rbAvail (len : BitVec 16) (d : DmState) : (s.withLength len d).rbAvail = s.rbAvail := rfl
@[simp] theorem withLength_ctlRun (len : BitVec 16) (d : DmState) : (s.withLength len d).ctlRun = s.ctlRun := rfl
@[simp] theorem withLength_ctlMode (len : BitVec 16) (d : DmState) : (s.withLength len d).ctlMode = s.ctlMode := rfl
@[simp] theorem withLength_dmState (len : BitVec 16) (d : DmState) : (s.withLength len d).dmState = d := rfl
@[simp] theorem withLength_dmEsc (len : BitVec 16) (d : DmState) : (s.withLength len d).dmEsc = s.dmEsc := rfl
@[simp] theorem withLength_dmLen (len : BitVec 16) (d : DmState) : (s.withLength len d).dmLen = len := rfl
@[simp] theorem withLength_dmFb (len : BitVec 16) (d : DmState) : (s.withLength len d).dmFb = s.dmFb := rfl
@[simp] theorem withLength_dmSum (len : BitVec 16) (d : DmState) : (s.withLength len d).dmSum = s.dmSum := rfl
@[simp] theorem withLength_events (len : BitVec 16) (d : DmState) : (s.withLength len d).events = s.events := rfl
@[simp] theorem withLength_prodIn (len : BitVec 16) (d : DmState) : (s.withLength len d).prodIn = s.prodIn := rfl
@[simp] theorem withLength_hostIn (len : BitVec 16) (d : DmState) : (s.withLength len d).hostIn = s.hostIn := rfl
@[simp] theorem withLength_prodOut (len : BitVec 16) (d : DmState) : (s.withLength len d).prodOut = s.prodOut := rfl
@[simp] theorem withLength_hostOut (len : BitVec 16) (d : DmState) : (s.withLength len d).hostOut = s.hostOut := rfl
@[simp] theorem withLength_sched (len : BitVec 16) (d : DmState) : (s.withLength len d).sched = s.sched := rfl
@[simp] theorem withLength_choices (len : BitVec 16) (d : DmState) : (s.withLength len d).choices = s.choices := rfl

@[simp] theorem withCtrl_cap (run : Bool) (mode : Mode) : (s.withCtrl run mode).cap = s.cap := rfl
@[simp] theorem withCtrl_rbMem (run : Bool) (mode : Mode) : (s.withCtrl run mode).rbMem = s.rbMem := rfl
@[simp] theorem withCtrl_rbRd (run : Bool) (mode : Mode) : (s.withCtrl run mode).rbRd = s.rbRd := rfl
@[simp] theorem withCtrl_rbWr (run : Bool) (mode : Mode) : (s.withCtrl run mode).rbWr = s.rbWr := rfl
@[simp] theorem withCtrl_rbAvail (run : Bool) (mode : Mode) : (s.withCtrl run mode).rbAvail = s.rbAvail := rfl
@[simp] theorem withCtrl_ctlRun (run : Bool) (mode : Mode) : (s.withCtrl run mode).ctlRun = run := rfl
@[simp] theorem withCtrl_ctlMode (run : Bool) (mode : Mode) : (s.withCtrl run mode).ctlMode = mode := rfl
@[simp] theorem withCtrl_dmState (run : Bool) (mode : Mode) : (s.withCtrl run mode).dmState = s.dmState := rfl
@[simp] theorem withCtrl_dmEsc (run : Bool) (mode : Mode) : (s.withCtrl run mode).dmEsc = s.dmEsc := rfl
@[simp] theorem withCtrl_dmLen (run : Bool) (mode : Mode) : (s.withCtrl run mode).dmLen = s.dmLen := rfl
@[simp] theorem withCtrl_dmFb (run : Bool) (mode : Mode) : (s.withCtrl run mode).dmFb = s.dmFb := rfl
@[simp] theorem withCtrl_dmSum (run : Bool) (mode : Mode) : (s.withCtrl run mode).dmSum = s.dmSum := rfl
@[simp] theorem withCtrl_events (run : Bool) (mode : Mode) : (s.withCtrl run mode).events = s.events := rfl
@[simp] theorem withCtrl_prodIn (run : Bool) (mode : Mode) : (s.withCtrl run mode).prodIn = s.prodIn := rfl
@[simp] theorem withCtrl_hostIn (run : Bool) (mode : Mode) : (s.withCtrl run mode).hostIn = s.hostIn := rfl
@[simp] theorem withCtrl_prodOut (run : Bool) (mode : Mode) : (s.withCtrl run mode).prodOut = s.prodOut := rfl
@[simp] theorem withCtrl_hostOut (run : Bool) (mode : Mode) : (s.withCtrl run mode).hostOut = s.hostOut := rfl
@[simp] theorem withCtrl_sched (run : Bool) (mode : Mode) : (s.withCtrl run mode).sched = s.sched := rfl
@[simp] theorem withCtrl_choices (run : Bool) (mode : Mode) : (s.withCtrl run mode).choices = s.choices := rfl

@[simp] theorem withPortIn_cap (p : Port) (q : List PortItem) : (s.withPortIn p q).cap = s.cap := rfl
@[simp] theorem withPortIn_rbMem (p : Port) (q : List PortItem) : (s.withPortIn p q).rbMem = s.rbMem := rfl
@[simp] theorem withPortIn_rbRd (p : Port) (q : List PortItem) : (s.withPortIn p q).rbRd = s.rbRd := rfl
@[simp] theorem withPortIn_rbWr (p : Port) (q : List PortItem) : (s.withPortIn p q).rbWr = s.rbWr := rfl
@[simp] theorem withPortIn_rbAvail (p : Port) (q : List PortItem) : (s.withPortIn p q).rbAvail = s.rbAvail := rfl
@[simp] theorem withPortIn_ctlRun (p : Port) (q : List PortItem) : (s.withPortIn p q).ctlRun = s.ctlRun := rfl
@[simp] theorem withPortIn_ctlMode (p : Port) (q : List PortItem) : (s.withPortIn p q).ctlMode = s.ctlMode := rfl
@[simp] theorem withPortIn_dmState (p : Port) (q : List PortItem) : (s.withPortIn p q).dmState = s.dmState := rfl
@[simp] theorem withPortIn_dmEsc (p : Port) (q : List PortItem) : (s.withPortIn p q).dmEsc = s.dmEsc := rfl
@[simp] theorem withPortIn_dmLen (p : Port) (q : List PortItem) : (s.withPortIn p q).dmLen = s.dmLen := rfl
@[simp] theorem withPortIn_dmFb (p : Port) (q : List PortItem) : (s.withPortIn p q).dmFb = s.dmFb := rfl
@[simp] theorem withPortIn_dmSum (p : Port) (q : List PortItem) : (s.withPortIn p q).dmSum = s.dmSum := rfl
@[simp] theorem withPortIn_events (p : Port) (q : List PortItem) : (s.withPortIn p q).events = s.events := rfl
@[simp] theorem withPortIn_prodIn (p : Port) (q : List PortItem) : (s.withPortIn p q).prodIn = if p = .prod then q else s.prodIn := rfl
@[simp] theorem withPortIn_hostIn (p : Port) (q : List PortItem) : (s.withPortIn p q).hostIn = if p = .host then q else s.hostIn := rfl
@[simp] theorem withPortIn_prodOut (p : Port) (q : List PortItem) : (s.withPortIn p q).prodOut = s.prodOut := rfl
@[simp] theorem withPortIn_hostOut (p : Port) (q : List PortItem) : (s.withPortIn p q).hostOut = s.hostOut := rfl
@[simp] theorem withPortIn_sched (p : Port) (q : List PortItem) : (s.withPortIn p q).sched = s.sched := rfl
@[simp] theorem withPortIn_choices (p : Port) (q : List PortItem) : (s.withPortIn p q).choices = s.choices := rfl

@[simp] theorem withSched_cap (rest : List Turn) : (s.withSched rest).cap = s.cap := rfl
@[simp] theorem withSched_rbMem (rest : List Turn) : (s.withSched rest).rbMem = s.rbMem := rfl
@[simp] theorem withSched_rbRd (rest : List Turn) : (s.withSched rest).rbRd = s.rbRd := rfl
@[simp] theorem withSched_rbWr (rest : List Turn) : (s.withSched rest).rbWr = s.rbWr := rfl
@[simp] theorem withSched_rbAvail (rest : List Turn) : (s.withSched rest).rbAvail = s.rbAvail := rfl
@[simp] theorem withSched_ctlRun (rest : List Turn) : (s.withSched rest).ctlRun = s.ctlRun := rfl
@[simp] theorem withSched_ctlMode (rest : List Turn) : (s.withSched rest).ctlMode = s.ctlMode := rfl
@[simp] theorem withSched_dmState (rest : List Turn) : (s.withSched rest).dmState = s.dmState := rfl
@[simp] theorem withSched_dmEsc (rest : List Turn) : (s.withSched rest).dmEsc = s.dmEsc := rfl
@[simp] theorem withSched_dmLen (rest : List Turn) : (s.withSched rest).dmLen = s.dmLen := rfl
@[simp] theorem withSched_dmFb (rest : List Turn) : (s.withSched rest).dmFb = s.dmFb := rfl
@[simp] theorem withSched_dmSum (rest : List Turn) : (s.withSched rest).dmSum = s.dmSum := rfl
@[simp] theorem withSched_events (rest : List Turn) : (s.withSched rest).events = s.events := rfl
@[simp] theorem withSched_prodIn (rest : List Turn) : (s.withSched rest).prodIn = s.prodIn := rfl
@[simp] theorem withSched_hostIn (rest : List Turn) : (s.withSched rest).hostIn = s.hostIn := rfl
@[simp] theorem withSched_prodOut (rest : List Turn) : (s.withSched rest).prodOut = s.prodOut := rfl
@[simp] theorem withSched_hostOut (rest : List Turn) : (s.withSched rest).hostOut = s.hostOut := rfl
@[simp] theorem withSched_sched (rest : List Turn) : (s.withSched rest).sched = rest := rfl
@[simp] theorem withSched_choices (rest : List Turn) : (s.withSched rest).choices = s.choices := rfl

@[simp] theorem choiceTaken_cap : (s.choiceTaken).cap = s.cap := rfl
@[simp] theorem choiceTaken_rbMem : (s.choiceTaken).rbMem = s.rbMem := rfl
@[simp] theorem choiceTaken_rbRd : (s.choiceTaken).rbRd = s.rbRd := rfl
@[simp] theorem choiceTaken_rbWr : (s.choiceTaken).rbWr = s.rbWr := rfl
@[simp] theorem choiceTaken_rbAvail : (s.choiceTaken).rbAvail = s.rbAvail := rfl
@[simp] theorem choiceTaken_ctlRun : (s.choiceTaken).ctlRun = s.ctlRun := rfl
@[simp] theorem choiceTaken_ctlMode : (s.choiceTaken).ctlMode = s.ctlMode := rfl
@[simp] theorem choiceTaken_dmState : (s.choiceTaken).dmState = s.dmState := rfl
@[simp] theorem choiceTaken_dmEsc : (s.choiceTaken).dmEsc = s.dmEsc := rfl
@[simp] theorem choiceTaken_dmLen : (s.choiceTaken).dmLen = s.dmLen := rfl
@[simp] theorem choiceTaken_dmFb : (s.choiceTaken).dmFb = s.dmFb := rfl
@[simp] theorem choiceTaken_dmSum : (s.choiceTaken).dmSum = s.dmSum := rfl
@[simp] theorem choiceTaken_events : (s.choiceTaken).events = s.events := rfl
@[simp] theorem choiceTaken_prodIn : (s.choiceTaken).prodIn = s.prodIn := rfl
@[simp] theorem choiceTaken_hostIn : (s.choiceTaken).hostIn = s.hostIn := rfl
@[simp] theorem choiceTaken_prodOut : (s.choiceTaken).prodOut = s.prodOut := rfl
@[simp] theorem choiceTaken_hostOut : (s.choiceTaken).hostOut = s.hostOut := rfl
@[simp] theorem choiceTaken_sched : (s.choiceTaken).sched = s.sched := rfl
@[simp] theorem choiceTaken_choices : (s.choiceTaken).choices = s.choices + 1 := rfl

@[simp] theorem withoutOldest_cap : (s.withoutOldest).cap = s.cap := rfl
@[simp] theorem withoutOldest_rbMem : (s.withoutOldest).rbMem = s.rbMem := rfl
@[simp] theorem withoutOldest_rbRd : (s.withoutOldest).rbRd = (s.rbRd + 1) % s.cap := rfl
@[simp] theorem withoutOldest_rbWr : (s.withoutOldest).rbWr = s.rbWr := rfl
@[simp] theorem withoutOldest_rbAvail : (s.withoutOldest).rbAvail = s.rbAvail - 1 := rfl
@[simp] theorem withoutOldest_ctlRun : (s.withoutOldest).ctlRun = s.ctlRun := rfl
@[simp] theorem withoutOldest_ctlMode : (s.withoutOldest).ctlMode = s.ctlMode := rfl
@[simp] theorem withoutOldest_dmState : (s.withoutOldest).dmState = s.dmState := rfl
@[simp] theorem withoutOldest_dmEsc : (s.withoutOldest).dmEsc = s.dmEsc := rfl
@[simp] theorem withoutOldest_dmLen : (s.withoutOldest).dmLen = s.dmLen := rfl
@[simp] theorem withoutOldest_dmFb : (s.withoutOldest).dmFb = s.dmFb := rfl
@[simp] theorem withoutOldest_dmSum : (s.withoutOldest).dmSum = s.dmSum := rfl
@[simp] theorem withoutOldest_events : (s.withoutOldest).events = s.events := rfl
@[simp] theorem withoutOldest_prodIn : (s.withoutOldest).prodIn = s.prodIn := rfl
@[simp] theorem withoutOldest_hostIn : (s.withoutOldest).hostIn = s.hostIn := rfl
@[simp] theorem withoutOldest_prodOut : (s.withoutOldest).prodOut = s.prodOut := rfl
@[simp] theorem withoutOldest_hostOut : (s.withoutOldest).hostOut = s.hostOut := rfl
@[simp] theorem withoutOldest_sched : (s.withoutOldest).sched = s.sched := rfl
@[simp] theorem withoutOldest_choices : (s.withoutOldest).choices = s.choices := rfl

/-! The named transitions that are one update. -/

@[simp] theorem openFrame_eq : openFrame s = s.dmCleared .lenHi := rfl

@[simp] theorem abandon_eq : abandon s = s.dmCleared .hunt := rfl

@[simp] theorem answerOk_eq (p : Port) (value : BitVec 24) (out : List Byte) :
    answerOk p value out s = s.answer p (okResponse value out) := rfl

@[simp] theorem takeError_eq (p : Port) (e : CmdError) : takeError p e s = s.answer p (errorResponse e) := rfl

/-! Creation and the event indication. -/

/-- All that creating a block can do: a legal capacity gives its reset state. -/
theorem create_eq_some {capacity : Nat} {t : State} (h : State.create capacity = some t) :
    ∃ legal : LegalCapacity capacity, t = State.resetWith capacity legal := by
  unfold State.create at h
  split at h
  · exact ⟨‹_›, by simpa using h.symm⟩
  · simp at h

theorem create_legal {capacity : Nat} (legal : LegalCapacity capacity) :
    State.create capacity = some (State.resetWith capacity legal) := dif_pos legal

theorem create_illegal {capacity : Nat} (h : ¬ LegalCapacity capacity) : State.create capacity = none := dif_neg h

/-- No event waits for a sink that is always ready. -/
@[simp] theorem untakenEvents_eq_nil : untakenEvents s = [] := List.drop_length

end Sys2Proof.Machine
end

