-- ==== Sys2Proof/Laws/Decode.lean ====
section
/-! SUPPORT. The fields of a command word, the operand bytes of a port, and the byte classes. -/

namespace Sys2Proof

/-! ## Fields of a command word -/

variable (op : BitVec 4) (mode : BitVec 2) (count : BitVec 24)

@[simp] theorem opField_commandWord : opField (commandWord op mode count) = op := by
  apply BitVec.eq_of_getLsbD_eq
  intro i hi
  simp only [opField, commandWord, BitVec.getLsbD_extractLsb', BitVec.getLsbD_append]
  have h1 : ¬ 28 + i < 24 := by omega
  have h2 : ¬ 28 + i - 24 < 2 := by omega
  have h3 : ¬ 28 + i - 24 - 2 < 2 := by omega
  have h4 : 28 + i - 24 - 2 - 2 = i := by omega
  simp [hi, h1, h2, h3, h4]

@[simp] theorem modeField_commandWord : modeField (commandWord op mode count) = mode := by
  apply BitVec.eq_of_getLsbD_eq
  intro i hi
  simp only [modeField, commandWord, BitVec.getLsbD_extractLsb', BitVec.getLsbD_append]
  have h1 : ¬ 26 + i < 24 := by omega
  have h2 : ¬ 26 + i - 24 < 2 := by omega
  have h3 : 26 + i - 24 - 2 < 2 := by omega
  have h4 : 26 + i - 24 - 2 = i := by omega
  simp [hi, h1, h2, h4]

@[simp] theorem reservedField_commandWord : reservedField (commandWord op mode count) = 0#2 := by
  apply BitVec.eq_of_getLsbD_eq
  intro i hi
  simp only [reservedField, commandWord, BitVec.getLsbD_extractLsb', BitVec.getLsbD_append]
  have h1 : ¬ 24 + i < 24 := by omega
  simp [hi, h1]

@[simp] theorem countField_commandWord : countField (commandWord op mode count) = count := by
  apply BitVec.eq_of_getLsbD_eq
  intro i hi
  simp only [countField, commandWord, BitVec.getLsbD_extractLsb', BitVec.getLsbD_append]
  simp [hi]

@[simp] theorem csrField_commandWord : csrField (commandWord op mode count) = count.extractLsb' 0 8 := by
  apply BitVec.eq_of_getLsbD_eq
  intro i hi
  have h1 : i < 24 := by omega
  simp only [csrField, commandWord, BitVec.getLsbD_extractLsb', BitVec.getLsbD_append]
  simp [hi, h1]

@[simp] theorem valueField_commandWord : valueField (commandWord op mode count) = count.extractLsb' 8 16 := by
  apply BitVec.eq_of_getLsbD_eq
  intro i hi
  have h1 : 8 + i < 24 := by omega
  simp only [valueField, commandWord, BitVec.getLsbD_extractLsb', BitVec.getLsbD_append]
  simp [hi, h1]

/-- A command word without reserved bits is made of its fields. -/
theorem commandWord_fields {w : Word} (h : reservedField w = 0#2) :
    commandWord (opField w) (modeField w) (countField w) = w := by
  apply BitVec.eq_of_getLsbD_eq
  intro i hi
  simp only [commandWord, BitVec.getLsbD_append]
  by_cases h1 : i < 24
  · simp [h1, countField]
  · by_cases h2 : i - 24 < 2
    · have := congrArg (fun v => v.getLsbD (i - 24)) h
      simp only [reservedField, BitVec.getLsbD_extractLsb', h2, decide_true, Bool.true_and] at this
      rw [show 24 + (i - 24) = i by omega] at this
      simp [h1, h2, this]
    · by_cases h3 : i - 24 - 2 < 2
      · simp only [h1, h2, h3, modeField, if_true, if_false, BitVec.getLsbD_extractLsb', decide_true, Bool.true_and]
        congr 1
        omega
      · have h4 : i - 24 - 2 - 2 < 4 := by omega
        simp only [h1, h2, h3, if_false, opField, BitVec.getLsbD_extractLsb', h4, decide_true, Bool.true_and]
        congr 1
        omega

/-- The register number and the value of a CSR command are its count. -/
theorem valueField_append_csrField (w : Word) : (valueField w ++ csrField w : BitVec 24) = countField w := by
  apply BitVec.eq_of_getLsbD_eq
  intro i hi
  simp only [BitVec.getLsbD_append, valueField, csrField, countField, BitVec.getLsbD_extractLsb']
  by_cases h : i < 8
  · simp [h, hi]
  · have h2 : i - 8 < 16 := by omega
    simp only [h, h2, hi, if_false, decide_true, Bool.true_and]
    congr 1
    omega

@[simp] theorem modeOfNum_modeNum (m : Mode) : modeOfNum (modeNum m) = m := by cases m <;> rfl

@[simp] theorem modeNum_modeOfNum (m : BitVec 2) : modeNum (modeOfNum m) = m := by revert m; decide

/-! ## Operand bytes -/

/-- Operand bytes that were supplied as bytes are taken as they stand. -/
theorem takeBytes_map (operand : List Byte) (q : List PortItem) :
    takeBytes operand.length (operand.map PortItem.byte ++ q) = some (operand, q) := by
  induction operand with
  | nil => rfl
  | cons b rest ih => simp [takeBytes, ih]

theorem operandFits_iff {data : List Byte} : operandFits data = true ↔ data.length ≤ maxCount := by
  simp [operandFits]

/-- A length that fits the count field is read back. -/
theorem toNat_count {n : Nat} (h : n ≤ maxCount) : (BitVec.ofNat 24 n).toNat = n := by
  simp only [BitVec.toNat_ofNat]
  exact Nat.mod_eq_of_lt (by unfold maxCount at h; omega)

/-- What a port holding one command and more begins with: the command its word and operand bytes decode to. -/
theorem decodePort_word {p : Port} {w : Word} {operand : List Byte} {q : List PortItem}
    (h : operand.length = operandCount w) :
    decodePort p (.word w :: (operand.map PortItem.byte ++ q)) =
      match decodeCommand p w operand with
      | .error why => .illegal why q
      | .ok i => .command i q := by
  cases hc : decodeCommand p w operand <;> simp only [decodePort, takeWord, ← h, takeBytes_map, hc]

/-! ## Legal command words -/

/-- `n_in` by its two definitions. -/
theorem operandBytesDue_eq (w : Word) : Machine.operandBytesDue w = operandCount w := by
  have h : ∀ op : BitVec 4, op ∈ [0x1#4, 0x5#4, 0x6#4, 0x7#4, 0x8#4, 0x9#4] ↔ opTakesOperand op = true := by decide
  unfold Machine.operandBytesDue operandCount
  exact if_congr (h _) rfl rfl

/-- All that a legal command word can be: its reserved bits are zero, its mode field is zero where the operation takes
none, and its operation code gives the command. -/
theorem decodeCommand_ok_cases {p : Port} {w : Word} {operand : List Byte} {i : Instr}
    (h : decodeCommand p w operand = .ok i) :
    reservedField w = 0#2 ∧ (opTakesMode (opField w) = false → modeField w = 0#2) ∧
      ((opField w = 0x1#4 ∧ i = .rbWrite p operand) ∨ (opField w = 0x2#4 ∧ i = .rbRead p (countField w)) ∨
        (opField w = 0x3#4 ∧ i = .rbSkip p (countField w)) ∨
        (opField w = 0x4#4 ∧ countField w = 0#24 ∧ i = .rbAvail p) ∨
        (opField w = 0x5#4 ∧ i = .fcChecksum p operand) ∨ (opField w = 0x6#4 ∧ i = .fcEscape p operand) ∨
        (opField w = 0x7#4 ∧ i = .fcUnescape p operand) ∨
        (opField w = 0x8#4 ∧ i = .fcEncode p (modeOfNum (modeField w)) operand) ∨
        (opField w = 0x9#4 ∧ i = .fcDecode p (modeOfNum (modeField w)) operand) ∨
        (opField w = 0xA#4 ∧ valueField w = 0#16 ∧ i = .csrRead p (csrField w)) ∨
        (opField w = 0xB#4 ∧ i = .csrWrite p (csrField w) (valueField w))) := by
  have branch : ∀ {P c : Prop} [Decidable c] {a b : Except Illegal Instr}, (c → a = .ok i → P) →
      (¬ c → b = .ok i → P) → (if c then a else b) = .ok i → P := by
    intro P c _ a b ha hb h
    split at h
    · exact ha ‹_› h
    · exact hb ‹_› h
  have bad : ∀ {P : Prop} {e : Illegal}, (Except.error e : Except Illegal Instr) = .ok i → P := nofun
  have ok : ∀ {P : Prop} {j : Instr}, (i = j → P) → (Except.ok j : Except Illegal Instr) = .ok i → P := by
    intro P j k h
    injection h with h
    exact k h.symm
  have ops : ∀ op : BitVec 4, opIsReserved op = true ∨
      op ∈ [0x1#4, 0x2#4, 0x3#4, 0x4#4, 0x5#4, 0x6#4, 0x7#4, 0x8#4, 0x9#4, 0xA#4, 0xB#4] := by decide
  revert h
  unfold decodeCommand
  refine branch (fun _ => bad) fun hop => branch (fun _ => bad) fun hr => branch (fun _ => bad) fun hm h => ?_
  refine ⟨by simpa using hr, fun h' => by_contra fun h'' => hm ⟨h'', by simp [h']⟩, ?_⟩
  revert h
  refine branch (fun h1 => ok fun hi => .inl ⟨h1, hi⟩) fun h1 => ?_
  refine branch (fun h2 => ok fun hi => .inr (.inl ⟨h2, hi⟩)) fun h2 => ?_
  refine branch (fun h3 => ok fun hi => .inr (.inr (.inl ⟨h3, hi⟩))) fun h3 => ?_
  refine branch (fun h4 => branch (fun _ => bad) fun hc => ok fun hi =>
    .inr (.inr (.inr (.inl ⟨h4, not_not.1 hc, hi⟩)))) fun h4 => ?_
  refine branch (fun h5 => ok fun hi => .inr (.inr (.inr (.inr (.inl ⟨h5, hi⟩))))) fun h5 => ?_
  refine branch (fun h6 => ok fun hi => .inr (.inr (.inr (.inr (.inr (.inl ⟨h6, hi⟩)))))) fun h6 => ?_
  refine branch (fun h7 => ok fun hi => .inr (.inr (.inr (.inr (.inr (.inr (.inl ⟨h7, hi⟩))))))) fun h7 => ?_
  refine branch (fun h8 => ok fun hi => .inr (.inr (.inr (.inr (.inr (.inr (.inr (.inl ⟨h8, hi⟩)))))))) fun h8 => ?_
  refine branch (fun h9 => ok fun hi =>
    .inr (.inr (.inr (.inr (.inr (.inr (.inr (.inr (.inl ⟨h9, hi⟩))))))))) fun h9 => ?_
  refine branch (fun hA => branch (fun _ => bad) fun hc => ok fun hi =>
    .inr (.inr (.inr (.inr (.inr (.inr (.inr (.inr (.inr (.inl ⟨hA, not_not.1 hc, hi⟩)))))))))) fun hA => ?_
  have hB : opField w = 0xB#4 := by
    simpa [h1, h2, h3, h4, h5, h6, h7, h8, h9, hA] using (ops (opField w)).resolve_left hop
  exact ok fun hi => .inr (.inr (.inr (.inr (.inr (.inr (.inr (.inr (.inr (.inr ⟨hB, hi⟩)))))))))

/-- A legal command carries the port it arrived on. -/
theorem decodeCommand_port {p : Port} {w : Word} {operand : List Byte} {i : Instr}
    (h : decodeCommand p w operand = .ok i) : i.port? = some p := by
  obtain ⟨-, -, h⟩ := decodeCommand_ok_cases h
  rcases h with ⟨-, rfl⟩ | ⟨-, rfl⟩ | ⟨-, rfl⟩ | ⟨-, -, rfl⟩ | ⟨-, rfl⟩ | ⟨-, rfl⟩ | ⟨-, rfl⟩ | ⟨-, rfl⟩ | ⟨-, rfl⟩ |
    ⟨-, -, rfl⟩ | ⟨-, rfl⟩ <;> rfl
/-! ## Byte classes -/

@[simp] theorem byteClass_delim : byteClass delimByte = .delim := by decide
@[simp] theorem byteClass_esc : byteClass escByte = .esc := by decide
@[simp] theorem byteClass_xon : byteClass xonByte = .xon := by decide
@[simp] theorem byteClass_xoff : byteClass xoffByte = .xoff := by decide

theorem byteClass_eq_data {b : Byte} : byteClass b = .data ↔ isDataByte b = true := by revert b; decide

theorem byteClass_eq_delim {b : Byte} : byteClass b = .delim ↔ b = delimByte := by revert b; decide

theorem byteClass_eq_esc {b : Byte} : byteClass b = .esc ↔ b = escByte := by revert b; decide

theorem byteClass_eq_xon {b : Byte} : byteClass b = .xon ↔ b = xonByte := by revert b; decide

theorem byteClass_eq_xoff {b : Byte} : byteClass b = .xoff ↔ b = xoffByte := by revert b; decide

theorem isSpecial_eq_not_isDataByte (b : Byte) : isSpecial b = !isDataByte b := by revert b; decide

end Sys2Proof
end

