-- ==== Sys2Proof/Laws/Codec.lean ====
section
/-! SUPPORT. The equations of the codec's pure functions, and their agreement with the words of Sys2Proof/Safety.lean. -/

namespace Sys2Proof.Machine

/-! ## Sums and checksums -/

theorem foldl_add_start (start : Byte) (bytes : List Byte) :
    bytes.foldl (· + ·) start = start + bytes.foldl (· + ·) 0#8 := by
  induction bytes generalizing start with
  | nil => simp
  | cons b rest ih => rw [List.foldl_cons, ih, List.foldl_cons, ih (0#8 + b), BitVec.zero_add, BitVec.add_assoc]

@[simp] theorem sumBytes_nil : sumBytes [] = 0#8 := rfl

@[simp] theorem sumBytes_cons (b : Byte) (rest : List Byte) : sumBytes (b :: rest) = b + sumBytes rest := by
  rw [sumBytes, List.foldl_cons, foldl_add_start, BitVec.zero_add, sumBytes]

@[simp] theorem sumBytes_append (xs ys : List Byte) : sumBytes (xs ++ ys) = sumBytes xs + sumBytes ys := by
  induction xs with
  | nil => simp
  | cons b rest ih => simp [ih, BitVec.add_assoc]

/-- The sum modulo 256 on numbers. -/
theorem sumBytes_toNat (bytes : List Byte) : (sumBytes bytes).toNat = (bytes.map BitVec.toNat).sum % 256 := by
  induction bytes with
  | nil => rfl
  | cons b rest ih => simp [ih, BitVec.toNat_add]

/-- The checksum by its two definitions. -/
theorem cks_eq_checksumOf (payload : List Byte) : cks payload = checksumOf payload := by
  have h := sumBytes_toNat payload
  apply BitVec.eq_of_toNat_eq
  simp only [cks, checksumOf, BitVec.toNat_sub, BitVec.toNat_ofNat, h]
  omega

/-! ## Stuffing -/

@[simp] theorem stuff_nil : stuff [] = [] := rfl

theorem stuff_cons_data {b : Byte} (h : isDataByte b = true) (rest : List Byte) : stuff (b :: rest) = b :: stuff rest := by
  simp [stuff, isSpecial_eq_not_isDataByte, h]

theorem stuff_cons_special {b : Byte} (h : isDataByte b = false) (rest : List Byte) :
    stuff (b :: rest) = escByte :: (b ^^^ escMask) :: stuff rest := by
  simp [stuff, isSpecial_eq_not_isDataByte, h]

/-- The stuffing transform by its two definitions. -/
theorem stuff_eq_replaceSpecial (bytes : List Byte) : stuff bytes = replaceSpecial bytes := by
  have hs : ∀ b : Byte, isSpecial b = decide (b ∈ [0x7E#8, 0x7D#8, 0x11#8, 0x13#8]) := by decide
  induction bytes with
  | nil => rfl
  | cons b rest ih =>
    rw [replaceSpecial, List.flatMap_cons, ← replaceSpecial, ← ih, stuff, hs]
    by_cases h : b ∈ [0x7E#8, 0x7D#8, 0x11#8, 0x13#8]
    · simp only [h, decide_true, if_true]
      rfl
    · simp only [h, decide_false, if_false]
      rfl

/-- A plain content byte is passed on. -/
theorem unstuffFrom_data {b : Byte} (h : isDataByte b = true) (rest : List Byte) :
    unstuffFrom false (b :: rest) = (unstuffFrom false rest).map fun out => b :: out := by
  have he : b ≠ escByte := by rintro rfl; revert h; decide
  rw [unstuffFrom]
  simp [he, isSpecial_eq_not_isDataByte, h]

/-- An escape pair is its second byte XORed, whatever that is. -/
theorem unstuffFrom_pair (v : Byte) (rest : List Byte) :
    unstuffFrom false (escByte :: v :: rest) = (unstuffFrom false rest).map fun out => (v ^^^ escMask) :: out := by
  simp [unstuffFrom]

/-- A special byte where a content byte begins is the error. -/
theorem unstuffFrom_special {b : Byte} (h : isDataByte b = false) (he : b ≠ escByte) (rest : List Byte) :
    unstuffFrom false (b :: rest) = .error (specialErr b) := by
  simp [unstuffFrom, he, isSpecial_eq_not_isDataByte, h]

/-! ## Frames -/

/-- The content region by its two definitions. -/
theorem envelope_eq_contentRegion {payload : List Byte} (h : payload.length ≤ maxPayload) :
    envelope payload = contentRegion payload := by
  have hlen : payload.length < 65536 := Nat.lt_succ_of_le h
  have hhi : (BitVec.ofNat 16 payload.length).extractLsb' 8 8 = BitVec.ofNat 8 (payload.length / 256) := by
    apply BitVec.eq_of_toNat_eq
    simp [Nat.shiftRight_eq_div_pow, Nat.mod_eq_of_lt hlen]
  have hlo : (BitVec.ofNat 16 payload.length).extractLsb' 0 8 = BitVec.ofNat 8 (payload.length % 256) := by
    apply BitVec.eq_of_toNat_eq
    simp [Nat.mod_eq_of_lt hlen]
  simp only [envelope, contentRegion, hhi, hlo, cks_eq_checksumOf]

/-- The length field as a number. -/
theorem frameLength_toNat (hi lo : Byte) : (frameLength hi lo).toNat = hi.toNat * 256 + lo.toNat := by
  have h1 := hi.isLt
  have h2 := lo.isLt
  simp only [frameLength, BitVec.toNat_add, BitVec.toNat_mul, BitVec.toNat_setWidth, BitVec.toNat_ofNat]
  omega

end Sys2Proof.Machine
end

