-- ==== Sys2Proof/Laws/Memory.lean ====
section
/-! SUPPORT. Ring memory: a read after a write, the canonical form, and the window of unread bytes. -/

namespace Sys2Proof.Machine

/-! ## Cells -/

theorem lookupCell_insertCell (a x : Nat) (b : Byte) (cells : List Host.Cell) :
    lookupCell x (insertCell a b cells) = if x = a then some b else lookupCell x cells := by
  induction cells with
  | nil => simp [insertCell, lookupCell]
  | cons c rest ih =>
    obtain ⟨y, z⟩ := c
    simp only [insertCell]
    split
    · simp [lookupCell]
    · split
      · subst_vars
        by_cases h : x = y <;> simp [lookupCell, h]
      · rename_i h1 h2
        by_cases h : x = y
        · subst h
          have : x ≠ a := fun h => h2 h.symm
          simp [lookupCell, this]
        · simp [lookupCell, h, ih]

theorem mem_insertCell {a : Nat} {b : Byte} {c : Host.Cell} {cells : List Host.Cell}
    (h : c ∈ insertCell a b cells) : c = (a, b) ∨ c ∈ cells := by
  induction cells with
  | nil => simpa [insertCell] using h
  | cons d rest ih =>
    obtain ⟨y, z⟩ := d
    simp only [insertCell] at h
    split at h
    · simpa using h
    · split at h
      · rcases List.mem_cons.1 h with h | h
        · exact .inl h
        · exact .inr (List.mem_cons_of_mem _ h)
      · rcases List.mem_cons.1 h with h | h
        · exact .inr (h ▸ List.mem_cons_self)
        · rcases ih h with h | h
          · exact .inl h
          · exact .inr (List.mem_cons_of_mem _ h)

theorem insertCell_sorted (a : Nat) (b : Byte) {cells : List Host.Cell}
    (h : cells.Pairwise fun c d => c.1 < d.1) : (insertCell a b cells).Pairwise fun c d => c.1 < d.1 := by
  induction cells with
  | nil => simp [insertCell]
  | cons c rest ih =>
    obtain ⟨y, z⟩ := c
    have hhead := (List.pairwise_cons.1 h).1
    have htail := (List.pairwise_cons.1 h).2
    simp only [insertCell]
    split
    · rename_i hlt
      refine List.pairwise_cons.2 ⟨fun d hd => ?_, h⟩
      rcases List.mem_cons.1 hd with rfl | hd
      · exact hlt
      · exact Nat.lt_trans hlt (hhead d hd)
    · split
      · rename_i heq
        subst heq
        exact List.pairwise_cons.2 ⟨hhead, htail⟩
      · rename_i h1 h2
        refine List.pairwise_cons.2 ⟨fun d hd => ?_, ih htail⟩
        rcases mem_insertCell hd with rfl | hd
        · show y < a
          omega
        · exact hhead d hd

/-! ## Memories -/

/-- A read after a write gives the value written; every other cell reads as before. -/
@[simp] theorem Memory.read_write (m : Memory) (a x : Nat) (b : Byte) :
    (m.write a b).read x = if x = a then some b else m.read x := lookupCell_insertCell a x b m.cells

/-- The write keeps the canonical form. -/
theorem Memory.write_wf {m : Memory} (a : Nat) (b : Byte) (h : m.wf) : (m.write a b).wf := insertCell_sorted a b h

theorem Memory.mem_write {m : Memory} {a : Nat} {b : Byte} {c : Host.Cell} (h : c ∈ (m.write a b).cells) :
    c = (a, b) ∨ c ∈ m.cells := mem_insertCell h

theorem Memory.reset_wf (capacity : Nat) (legal : LegalCapacity capacity) :
    (State.resetWith capacity legal).rbMem.wf := List.Pairwise.nil

/-- A run of writes keeps the canonical form. -/
theorem Memory.foldl_write_wf {α : Type} (f : α → Nat) (g : α → Byte) (xs : List α) {m : Memory} (h : m.wf) :
    (xs.foldl (fun n x => n.write (f x) (g x)) m).wf := by
  induction xs generalizing m with
  | nil => exact h
  | cons x rest ih => exact ih (Memory.write_wf _ _ h)

/-! ## Access to ring memory -/

/-- All that a read of ring memory can do. -/
theorem memRead_eq_ok {a : Nat} {s : State} {b : Byte} (h : memRead a s = .ok b) : a < s.cap ∧ b = cellValue s a := by
  unfold memRead at h
  split at h
  · exact ⟨‹_›, by simpa using h.symm⟩
  · simp at h

theorem memRead_ok {a : Nat} {s : State} (h : a < s.cap) : memRead a s = .ok (cellValue s a) := if_pos h

/-- All that a write of ring memory can do. -/
theorem memWrite_eq_ok {a : Nat} {b : Byte} {s t : State} (h : memWrite a b s = .ok t) :
    a < s.cap ∧ t = { s with rbMem := s.rbMem.write a b } := by
  unfold memWrite at h
  split at h
  · exact ⟨‹_›, by simpa using h.symm⟩
  · simp at h

theorem memWrite_ok {a : Nat} {b : Byte} {s : State} (h : a < s.cap) :
    memWrite a b s = .ok { s with rbMem := s.rbMem.write a b } := if_pos h

/-- The value of a cell depends on the memory alone. -/
theorem cellValue_congr {s t : State} (h : t.rbMem = s.rbMem) (a : Nat) : cellValue t a = cellValue s a := by
  simp [cellValue, h]

end Sys2Proof.Machine
end

