-- ==== Sys2Proof/Laws/Ring.lean ====
section
/-! SUPPORT. What the ring primitives and their loops can do, and that they keep the ring's invariants. -/

namespace Sys2Proof.Machine

/-! ## Indices -/

theorem nextIndex_lt {s : State} (i : Nat) (h : 1 ≤ s.cap) : nextIndex s i < s.cap := Nat.mod_lt _ h

/-- Two advances are one. -/
theorem add_mod_add_mod (i m n c : Nat) : ((i + m) % c + n) % c = (i + (m + n)) % c := by
  rw [Nat.mod_add_mod, Nat.add_assoc]

theorem rbConsumed_rbConsumed (s : State) (m n : Nat) : (s.rbConsumed m).rbConsumed n = s.rbConsumed (m + n) := by
  simp only [State.rbConsumed, add_mod_add_mod, Nat.sub_sub]

theorem rbConsumed_zero {s : State} (h : s.rbRd < s.cap) : s.rbConsumed 0 = s := by
  simp [State.rbConsumed, Nat.mod_eq_of_lt h]

theorem withoutOldest_eq (s : State) : s.withoutOldest = s.rbConsumed 1 := rfl

/-! ## One byte -/

/-- All that `rb_push` can do. -/
theorem rbPush_eq_ok {b : Byte} {s t : State} (h : rbPush b s = .ok t) :
    s.rbWr < s.cap ∧ t = ({ s with rbMem := s.rbMem.write s.rbWr b } : State).rbPushed := by
  unfold rbPush at h
  split at h
  · simp at h
  · rename_i u hu
    obtain ⟨hlt, rfl⟩ := memWrite_eq_ok hu
    exact ⟨hlt, by simpa using h.symm⟩

theorem rbPush_ok {b : Byte} {s : State} (h : s.rbWr < s.cap) :
    rbPush b s = .ok ({ s with rbMem := s.rbMem.write s.rbWr b } : State).rbPushed := by
  simp [rbPush, memWrite_ok h]

/-- All that `rb_pop` can do. -/
theorem rbPop_eq_ok {b : Byte} {s t : State} (h : rbPop s = .ok (b, t)) :
    s.rbRd < s.cap ∧ b = cellValue s s.rbRd ∧ t = s.rbConsumed 1 := by
  unfold rbPop at h
  split at h
  · simp at h
  · rename_i c hc
    obtain ⟨hlt, rfl⟩ := memRead_eq_ok hc
    simp only [Except.ok.injEq, Prod.mk.injEq] at h
    exact ⟨hlt, h.1.symm, h.2.symm⟩

theorem rbPop_ok {s : State} (h : s.rbRd < s.cap) : rbPop s = .ok (cellValue s s.rbRd, s.rbConsumed 1) := by
  simp [rbPop, memRead_ok h]

/-- The read side after one byte was stored is sound (40_ring_buffer.md R65). -/
theorem rbPushed_ringOk {s : State} (h : RingOk s) (m : Memory) :
    RingOk ({ s with rbMem := m } : State).rbPushed := by
  obtain ⟨h1, h2, hrd, hwr, hav, heq⟩ := h
  have hn : ∀ i, (i + 1) % s.cap < s.cap := fun i => Nat.mod_lt _ h1
  refine ⟨h1, h2, ?_, hn _, ?_, ?_⟩
  · simp only [rbPushed_rbRd, rbPushed_cap]
    split
    · exact hn _
    · exact hrd
  · simp only [rbPushed_rbAvail, rbPushed_cap, rbFull, beq_iff_eq]
    by_cases hf : s.rbAvail = s.cap
    · simp [hf]
    · simp only [hf, if_false]
      omega
  · simp only [rbPushed_rbWr, rbPushed_rbRd, rbPushed_rbAvail, rbPushed_cap, rbFull, nextIndex, beq_iff_eq]
    split
    · rename_i hf
      rw [heq, hf, Nat.add_mod_right, Nat.mod_eq_of_lt hrd, Nat.add_mod_right, Nat.mod_mod]
    · rw [heq, Nat.mod_add_mod, Nat.add_assoc]

/-- Taking unread bytes leaves the ring sound (40_ring_buffer.md R66, R70). -/
theorem rbConsumed_ringOk {s : State} (h : RingOk s) {n : Nat} (hn : n ≤ s.rbAvail) : RingOk (s.rbConsumed n) := by
  obtain ⟨h1, h2, hrd, hwr, hav, heq⟩ := h
  refine ⟨h1, h2, Nat.mod_lt _ h1, hwr, Nat.le_trans (Nat.sub_le _ _) hav, ?_⟩
  simp only [rbConsumed_rbWr, rbConsumed_rbRd, rbConsumed_rbAvail, rbConsumed_cap, add_mod_add_mod]
  rw [heq]
  congr 1
  omega

/-! ## The loops -/

/-- The write loop never leaves the ring: from a sound ring it ends, and the ring is sound. -/
theorem rbPushAll_ok (data : List Byte) {s : State} (h : RingOk s) : ∃ t, rbPushAll data s = .ok t ∧ RingOk t := by
  induction data generalizing s with
  | nil => exact ⟨s, rfl, h⟩
  | cons b rest ih =>
    obtain ⟨t, ht, hok⟩ := ih (rbPushed_ringOk h (s.rbMem.write s.rbWr b))
    exact ⟨t, by simp [rbPushAll, rbPush_ok h.2.2.2.1, ht], hok⟩

/-- All that the write loop can change: the memory and the ring registers. -/
theorem rbPushAll_frame {data : List Byte} {s t : State} (h : rbPushAll data s = .ok t) :
    t = { s with rbMem := t.rbMem, rbRd := t.rbRd, rbWr := t.rbWr, rbAvail := t.rbAvail } := by
  induction data generalizing s with
  | nil => simp only [rbPushAll, Except.ok.injEq] at h; subst h; rfl
  | cons b rest ih =>
    simp only [rbPushAll] at h
    split at h
    · simp at h
    · rename_i u hu
      obtain ⟨-, rfl⟩ := rbPush_eq_ok hu
      exact (ih h).trans rfl

/-- The write loop keeps the memory canonical. -/
theorem rbPushAll_wf {data : List Byte} {s t : State} (h : rbPushAll data s = .ok t) (hw : s.rbMem.wf) :
    t.rbMem.wf := by
  induction data generalizing s with
  | nil => simp only [rbPushAll, Except.ok.injEq] at h; rwa [← h]
  | cons b rest ih =>
    simp only [rbPushAll] at h
    split at h
    · simp at h
    · rename_i u hu
      obtain ⟨-, rfl⟩ := rbPush_eq_ok hu
      exact ih h (Memory.write_wf _ _ hw)

/-- The write loop over two operands is the loop over the first and then over the second. -/
theorem rbPushAll_append (xs ys : List Byte) (s : State) :
    rbPushAll (xs ++ ys) s =
      match rbPushAll xs s with
      | .error f => .error f
      | .ok t => rbPushAll ys t := by
  induction xs generalizing s with
  | nil => rfl
  | cons b rest ih =>
    simp only [List.cons_append, rbPushAll]
    cases rbPush b s with
    | error f => rfl
    | ok t => exact ih t

/-- The cells an `n`-byte read takes, oldest first. -/
theorem rbPopMany_ok (n : Nat) {s : State} (h : s.rbRd < s.cap) :
    rbPopMany n s =
      .ok ((List.range n).map fun i => cellValue s ((s.rbRd + i) % s.cap), s.rbConsumed n) := by
  induction n generalizing s with
  | zero => simp [rbPopMany, rbConsumed_zero h]
  | succ n ih =>
    have hc : 0 < s.cap := by omega
    have hlt : (s.rbConsumed 1).rbRd < (s.rbConsumed 1).cap := Nat.mod_lt _ hc
    simp only [rbPopMany, rbPop_ok h, ih hlt, List.range_succ_eq_map, List.map_cons, List.map_map]
    simp only [Except.ok.injEq, Prod.mk.injEq, List.cons.injEq, Nat.add_zero, Nat.mod_eq_of_lt h, true_and]
    refine ⟨?_, by rw [rbConsumed_rbConsumed, Nat.add_comm]⟩
    refine List.map_congr_left fun i _ => ?_
    simp only [Function.comp, rbConsumed_rbRd, rbConsumed_cap, add_mod_add_mod]
    rw [Nat.add_comm 1 i]
    exact cellValue_congr rfl _

/-- All that the read loop can do to the state, in every state: the bytes leave the ring, or
there were none to take. -/
theorem rbPopMany_state {n : Nat} {s t : State} {bytes : List Byte} (h : rbPopMany n s = .ok (bytes, t)) :
    t = if n = 0 then s else s.rbConsumed n := by
  induction n generalizing s t bytes with
  | zero => simp only [rbPopMany, Except.ok.injEq, Prod.mk.injEq] at h; simp [h.2]
  | succ n ih =>
    simp only [rbPopMany] at h
    split at h
    · simp at h
    · rename_i b u hu
      obtain ⟨-, -, rfl⟩ := rbPop_eq_ok hu
      split at h
      · simp at h
      · rename_i bs v hv
        have hs := ih hv
        simp only [Except.ok.injEq, Prod.mk.injEq] at h
        rw [← h.2, hs]
        by_cases hn : n = 0
        · simp [hn]
        · simp only [hn, if_false, rbConsumed_rbConsumed, Nat.add_comm 1 n, Nat.succ_ne_zero]

theorem length_contents (s : State) : (contents s).length = s.rbAvail := by simp [contents]

/-- The first `n` unread bytes are the cells from the read index on. -/
theorem contents_take {s : State} {n : Nat} (hn : n ≤ s.rbAvail) :
    (contents s).take n = (List.range n).map fun i => cellValue s ((s.rbRd + i) % s.cap) := by
  rw [contents, ← List.map_take, List.take_range, Nat.min_eq_left hn]

/-- The oldest unread byte stands at the read index. -/
theorem contents_head {s : State} {b : Byte} {more : List Byte} (hrd : s.rbRd < s.cap) (h : contents s = b :: more) :
    0 < s.rbAvail ∧ b = cellValue s s.rbRd := by
  have hlen := length_contents s
  rw [h] at hlen
  have hpos : 0 < s.rbAvail := by simp at hlen; omega
  have := contents_take (s := s) (n := 1) hpos
  rw [h] at this
  simp [Nat.mod_eq_of_lt hrd] at this
  exact ⟨hpos, this⟩

/-- What is unread after `n` bytes were taken. -/
theorem contents_rbConsumed (s : State) (n : Nat) : contents (s.rbConsumed n) = (contents s).drop n := by
  simp only [contents, rbConsumed_rbAvail, rbConsumed_rbRd, rbConsumed_cap, add_mod_add_mod]
  apply List.ext_getElem
  · simp
  · intro i h1 h2
    simp only [List.getElem_map, List.getElem_range, List.getElem_drop]
    exact cellValue_congr rfl _

/-- What is unread depends on the ring alone. -/
theorem contents_congr {s t : State} (hm : t.rbMem = s.rbMem) (hr : t.rbRd = s.rbRd) (ha : t.rbAvail = s.rbAvail)
    (hc : t.cap = s.cap) : contents t = contents s := by
  simp [contents, cellValue, hm, hr, ha, hc]

/-- The bytes from an index on, as the fetch reads them. -/
theorem peekFrom_ok {s : State} (n : Nat) {i : Nat} (h : i < s.cap) :
    peekFrom s n i = .ok ((List.range n).map fun k => cellValue s ((i + k) % s.cap)) := by
  induction n generalizing i with
  | zero => rfl
  | succ n ih =>
    have hc : 0 < s.cap := by omega
    simp only [peekFrom, memRead_ok h, ih (nextIndex_lt i hc), List.range_succ_eq_map, List.map_cons, List.map_map,
      Except.map, Nat.add_zero, Nat.mod_eq_of_lt h]
    congr 2
    refine List.map_congr_left fun k _ => ?_
    simp only [Function.comp, nextIndex, add_mod_add_mod, Nat.add_comm 1 k]

end Sys2Proof.Machine
end

