-- ==== Sys2Proof/Laws/Demux.lean ====
section
/-! SUPPORT. What a DM.STEP can do to the state: its cases, its frame, and the equations of its branches. -/

namespace Sys2Proof.Machine

/-! ## When there is a step -/

/-- The three conditions, as a proposition and as the machine computes them. -/
theorem dmEnabled_iff (s : State) : dmEnabled s = true ↔ DemuxEnabled s := by
  unfold dmEnabled DemuxEnabled dataAvail
  cases s.ctlMode <;> simp [parseable, Nat.pos_iff_ne_zero]

theorem dmStep_enabled {s : State} (h : DemuxEnabled s) (b : Byte) : dmStep b s = consumeByte b (s.rbConsumed 1) := by
  rw [dmStep, if_pos ((dmEnabled_iff s).2 h)]

theorem dmStep_held {s : State} (h : ¬ DemuxEnabled s) (b : Byte) : dmStep b s = s := by
  rw [dmStep, if_neg (mt (dmEnabled_iff s).1 h)]

/-! ## A content byte -/

theorem deliver_lenHi {s : State} (h : s.dmState = .lenHi) (v : Byte) : deliver v s = takeLenHi v s := by
  rw [deliver, h]

theorem deliver_lenLo {s : State} (h : s.dmState = .lenLo) (v : Byte) : deliver v s = takeLenLo v s := by
  rw [deliver, h]

theorem deliver_payload {s : State} (h : s.dmState = .payload) (v : Byte) : deliver v s = takePayload v s := by
  rw [deliver, h]

theorem deliver_checksum {s : State} (h : s.dmState = .checksum) (v : Byte) : deliver v s = closeFrame v s := by
  rw [deliver, h]

/-- The checksum a frame calls for is that of the bytes collected. -/
theorem expectedChecksum_eq {s : State} (h : s.dmSum = sumBytes s.dmFb) : expectedChecksum s = cks s.dmFb := by
  rw [expectedChecksum, cks, h]

/-! ## A wire byte -/

theorem consumeByte_hunt {s : State} (h : s.dmState = .hunt) (b : Byte) : consumeByte b s = huntByte b s := by
  rw [consumeByte, h]

/-- Inside a frame the mode says whether a byte may be special. -/
theorem consumeByte_frame {s : State} (h : s.dmState ≠ .hunt) (b : Byte) :
    consumeByte b s = if s.ctlMode = .api then deliver b s else escapedModeByte b s := by
  unfold consumeByte
  cases hs : s.dmState <;> first | exact absurd hs h | rfl

/-- A byte after a prefix is content, XORed, whatever it is. -/
theorem escapedModeByte_pending {s : State} (h : s.dmEsc = true) (b : Byte) :
    escapedModeByte b s = deliver (b ^^^ escMask) (s.withEsc false) := by
  rw [escapedModeByte, if_pos h]

theorem escapedModeByte_data {s : State} (h : s.dmEsc = false) {b : Byte} (hb : isDataByte b = true) :
    escapedModeByte b s = deliver b s := by
  simp [escapedModeByte, h, byteClass_eq_data.2 hb]

/-- All that a consumed byte can do, by what the demultiplexer is doing: discard it, open a frame, remember a prefix,
report an unescaped byte, or deliver a content byte. -/
theorem consumeByte_cases (b : Byte) (s : State) :
    (s.dmState = .hunt ∧ b ≠ delimByte ∧ consumeByte b s = s) ∨
      (s.dmState = .hunt ∧ b = delimByte ∧ consumeByte b s = openFrame s) ∨
      (s.dmState ≠ .hunt ∧ s.ctlMode ≠ .api ∧ s.dmEsc = false ∧ b = escByte ∧ consumeByte b s = s.withEsc true) ∨
      (s.dmState ≠ .hunt ∧ s.ctlMode ≠ .api ∧ s.dmEsc = false ∧ b = delimByte ∧ consumeByte b s = delimInFrame s) ∨
      (s.dmState ≠ .hunt ∧ s.ctlMode ≠ .api ∧ s.dmEsc = false ∧ (b = xonByte ∨ b = xoffByte) ∧
        consumeByte b s = flowInFrame b s) ∨
      (s.dmState ≠ .hunt ∧ s.ctlMode ≠ .api ∧ s.dmEsc = false ∧ isDataByte b = true ∧ consumeByte b s = deliver b s) ∨
      (s.dmState ≠ .hunt ∧ s.ctlMode ≠ .api ∧ s.dmEsc = true ∧
        consumeByte b s = deliver (b ^^^ escMask) (s.withEsc false)) ∨
      (s.dmState ≠ .hunt ∧ s.ctlMode = .api ∧ consumeByte b s = deliver b s) := by
  by_cases hs : s.dmState = .hunt
  · by_cases hb : b = delimByte
    · exact .inr (.inl ⟨hs, hb, by rw [consumeByte_hunt hs, huntByte, if_pos hb]⟩)
    · exact .inl ⟨hs, hb, by rw [consumeByte_hunt hs, huntByte, if_neg hb]⟩
  · have hc := consumeByte_frame hs b
    by_cases hm : s.ctlMode = .api
    · exact .inr (.inr (.inr (.inr (.inr (.inr (.inr ⟨hs, hm, by rw [hc, if_pos hm]⟩))))))
    · rw [if_neg hm] at hc
      by_cases he : s.dmEsc = true
      · exact .inr (.inr (.inr (.inr (.inr (.inr (.inl ⟨hs, hm, he, by rw [hc, escapedModeByte_pending he]⟩))))))
      · have he : s.dmEsc = false := by simpa using he
        rw [hc]
        cases hb : byteClass b with
        | esc =>
          exact .inr (.inr (.inl ⟨hs, hm, he, byteClass_eq_esc.1 hb, by simp [escapedModeByte, he, hb]⟩))
        | delim =>
          exact .inr (.inr (.inr (.inl ⟨hs, hm, he, byteClass_eq_delim.1 hb, by simp [escapedModeByte, he, hb]⟩)))
        | xon =>
          exact .inr (.inr (.inr (.inr (.inl
            ⟨hs, hm, he, .inl (byteClass_eq_xon.1 hb), by simp [escapedModeByte, he, hb]⟩))))
        | xoff =>
          exact .inr (.inr (.inr (.inr (.inl
            ⟨hs, hm, he, .inr (byteClass_eq_xoff.1 hb), by simp [escapedModeByte, he, hb]⟩))))
        | data =>
          have hd := byteClass_eq_data.1 hb
          exact .inr (.inr (.inr (.inr (.inr (.inl ⟨hs, hm, he, hd, escapedModeByte_data he hd⟩)))))

/-! ## Frames -/

/-- What the demultiplexer's work leaves alone: everything but its own registers and the event list, to which at most one
event is added. -/
abbrev DmFrame (s t : State) : Prop :=
  (t.events = s.events ∨ ∃ e, t.events = s.events ++ [e]) ∧
    t = { s with dmState := t.dmState, dmEsc := t.dmEsc, dmLen := t.dmLen, dmFb := t.dmFb, dmSum := t.dmSum,
                 events := t.events }

theorem deliver_frame (v : Byte) (s : State) : DmFrame s (deliver v s) := by
  unfold deliver
  split
  · exact ⟨.inl rfl, rfl⟩
  · exact ⟨.inl rfl, rfl⟩
  · exact ⟨.inl rfl, rfl⟩
  · exact ⟨.inl rfl, rfl⟩
  · exact ⟨.inr ⟨_, rfl⟩, rfl⟩

theorem consumeByte_dmFrame (b : Byte) (s : State) : DmFrame s (consumeByte b s) := by
  rcases consumeByte_cases b s with ⟨-, -, h⟩ | ⟨-, -, h⟩ | ⟨-, -, -, -, h⟩ | ⟨-, -, -, -, h⟩ | ⟨-, -, -, -, h⟩ |
    ⟨-, -, -, -, h⟩ | ⟨-, -, -, h⟩ | ⟨-, -, h⟩ <;> rw [h]
  · exact ⟨.inl rfl, rfl⟩
  · exact ⟨.inl rfl, rfl⟩
  · exact ⟨.inl rfl, rfl⟩
  · exact ⟨.inr ⟨_, rfl⟩, rfl⟩
  · exact ⟨.inr ⟨_, rfl⟩, rfl⟩
  · exact deliver_frame b s
  · obtain ⟨he, hf⟩ := deliver_frame (b ^^^ escMask) (s.withEsc false)
    exact ⟨he, hf.trans rfl⟩
  · exact deliver_frame b s

/-- All that a DM.STEP can do: nothing where it is held; else one byte leaves the ring and the demultiplexer works on
it. -/
theorem dmStep_cases (b : Byte) (s : State) :
    (¬ DemuxEnabled s ∧ dmStep b s = s) ∨
      (DemuxEnabled s ∧ dmStep b s = consumeByte b (s.rbConsumed 1) ∧ DmFrame (s.rbConsumed 1) (dmStep b s)) := by
  by_cases h : DemuxEnabled s
  · exact .inr ⟨h, dmStep_enabled h b, by rw [dmStep_enabled h]; exact consumeByte_dmFrame b _⟩
  · exact .inl ⟨h, dmStep_held h b⟩

/-- A DM.STEP leaves the memory, the write side, the control registers, the ports and the schedule alone. -/
theorem dmStep_frame (b : Byte) (s : State) :
    dmStep b s = { s with
      rbRd := (dmStep b s).rbRd, rbAvail := (dmStep b s).rbAvail, dmState := (dmStep b s).dmState
      dmEsc := (dmStep b s).dmEsc, dmLen := (dmStep b s).dmLen, dmFb := (dmStep b s).dmFb
      dmSum := (dmStep b s).dmSum, events := (dmStep b s).events } := by
  rcases dmStep_cases b s with ⟨-, h⟩ | ⟨-, -, -, h⟩
  · rw [h]
  · have hr : (dmStep b s).rbRd = (s.rbConsumed 1).rbRd := by rw [h]
    have ha : (dmStep b s).rbAvail = (s.rbConsumed 1).rbAvail := by rw [h]
    rw [hr, ha]
    exact h

/-- A DM.STEP keeps the ring sound. -/
theorem dmStep_ringOk {s : State} (h : RingOk s) (b : Byte) : RingOk (dmStep b s) := by
  rcases dmStep_cases b s with ⟨-, hs⟩ | ⟨he, -, -, hf⟩
  · rwa [hs]
  · have hr := rbConsumed_ringOk h (n := 1) he.2.2
    rw [hf]
    exact hr

/-- The row of a byte is one DM.STEP on it. -/
theorem exec_decodeByte (b : Byte) (s : State) : exec (decodeByte b) s = .next (dmStep b s) := by
  unfold decodeByte
  cases h : byteClass b with
  | delim => rw [byteClass_eq_delim.1 h]; rfl
  | esc => rw [byteClass_eq_esc.1 h]; rfl
  | xon => rw [byteClass_eq_xon.1 h]; rfl
  | xoff => rw [byteClass_eq_xoff.1 h]; rfl
  | data => rfl

end Sys2Proof.Machine
end

