-- ==== Sys2Proof/Laws/Exec.lean ====
section
/-! SUPPORT. What a host operation can do to the state: answering, and the three operations that change the block. -/

namespace Sys2Proof.Machine

/-! ## Answering -/

@[simp] theorem onHost_host (s : State) (result : Outcome) : onHost .host s result = result := rfl

@[simp] theorem onHost_prod (s : State) (result : Outcome) : onHost .prod s result = .next (takeError .prod portErr s) :=
  rfl

/-- All that a command for the HOST port can do: its own result on HOST, a refusal on PROD. -/
theorem onHost_eq_next {p : Port} {s t : State} {result : Outcome} (h : onHost p s result = .next t) :
    (p = .host ∧ result = .next t) ∨ (p = .prod ∧ t = s.answer .prod (errorResponse portErr)) := by
  cases p with
  | host => exact .inl ⟨rfl, h⟩
  | prod => exact .inr ⟨rfl, by simpa [takeError] using h.symm⟩

@[simp] theorem answerBytes_ok (p : Port) (out : List Byte) (s : State) :
    answerBytes p (.ok out) s = s.answer p (okResponse (toValue out.length) out) := rfl

@[simp] theorem answerBytes_error (p : Port) (e : CmdError) (s : State) :
    answerBytes p (.error e) s = s.answer p (errorResponse e) := rfl

/-- All that a codec operation's answer can do: one answer, the bytes or the error. -/
theorem answerBytes_cases (p : Port) (x : Except CmdError (List Byte)) (s : State) :
    (∃ out, x = .ok out ∧ answerBytes p x s = s.answer p (okResponse (toValue out.length) out)) ∨
      ∃ e, x = .error e ∧ answerBytes p x s = s.answer p (errorResponse e) := by
  cases x with
  | ok out => exact .inl ⟨out, rfl, rfl⟩
  | error e => exact .inr ⟨e, rfl, rfl⟩

/-- One answer more on its port. -/
theorem portOut_answer (p : Port) (r : Response) (s : State) : portOut p (s.answer p r) = portOut p s ++ [r] := by
  cases p <;> simp [portOut, State.answer]

/-- No answer more on the other port. -/
theorem portOut_answer_ne {p q : Port} (h : q ≠ p) (r : Response) (s : State) :
    portOut q (s.answer p r) = portOut q s := by
  cases p <;> cases q <;> simp [portOut, State.answer] at h ⊢

/-- An answer changes its port's answers alone. -/
theorem answer_eq_withPortOut (p : Port) (r : Response) (s : State) :
    s.answer p r = s.withPortOut p (portOut p s ++ [r]) := by
  cases p <;> simp [portOut, State.answer, State.withPortOut]

/-- An Ok answer has the code 0. -/
theorem okResponse_code (value : BitVec 24) (out : List Byte) : (okResponse value out).word.extractLsb' 28 4 = 0#4 := by
  apply BitVec.eq_of_getLsbD_eq
  intro i hi
  have h1 : ¬ 28 + i < 24 := by omega
  have h2 : ¬ 28 + i - 24 < 4 := by omega
  simp only [okResponse, resultWord, BitVec.getLsbD_extractLsb', BitVec.getLsbD_append, h1, h2, if_false]
  simp

/-- Any other answer has its kind's code. -/
theorem errorResponse_code (e : CmdError) : (errorResponse e).word.extractLsb' 28 4 = e.kind.code := by
  apply BitVec.eq_of_getLsbD_eq
  intro i hi
  have h1 : ¬ 28 + i < 24 := by omega
  have h2 : ¬ 28 + i - 24 < 4 := by omega
  simp only [errorResponse, resultWord, BitVec.getLsbD_extractLsb', BitVec.getLsbD_append, h1, h2, if_false]
  simp [hi, show 28 + i - 24 - 4 = i by omega]

/-! ## Control -/

/-- All that a legal write of CTRL can do. -/
theorem writeCtrl_cases (value : BitVec 16) (s : State) :
    (ctrlModeField value = s.ctlMode ∧ writeCtrl value s = s.withCtrl (ctrlRunBit value) s.ctlMode) ∨
      (ctrlModeField value ≠ s.ctlMode ∧
        writeCtrl value s = abandon (s.withCtrl (ctrlRunBit value) (ctrlModeField value))) := by
  unfold writeCtrl
  by_cases h : ctrlModeField value = s.ctlMode
  · exact .inl ⟨h, by simp [h]⟩
  · exact .inr ⟨h, by simp [h]⟩

/-- A number that is no register's, or a register that is read-only, or a reserved bit: the write is OperandError; else it
is a legal write of CTRL. -/
theorem execCsrWrite_cases (csr : BitVec 8) (value : BitVec 16) (s : State) :
    (csrOfNum csr = some .ctrl ∧ ctrlReservedSet value = false ∧
        execCsrWrite .host csr value s = .next ((writeCtrl value s).answer .host (okResponse 0#24 []))) ∨
      execCsrWrite .host csr value s = .next (s.answer .host (errorResponse operandErr)) := by
  unfold execCsrWrite onHost
  cases h : csrOfNum csr with
  | none => exact .inr rfl
  | some r =>
    cases r <;> try exact .inr rfl
    by_cases hr : ctrlReservedSet value = true
    · exact .inr (by simp [hr, takeError])
    · exact .inl ⟨rfl, by simpa using hr, by simp [hr, answerOk]⟩

/-! ## Host operations -/

/-- All that a host operation can do to the block: nothing; a ring write; a ring read or skip; a legal write of CTRL. It
ends with one answer on its port. -/
theorem exec_command_cases {i : Instr} {p : Port} {s t : State} (hp : i.port? = some p) (h : exec i s = .next t) :
    ∃ r u, t = u.answer p r ∧
      (u = s ∨ (∃ data, i = .rbWrite p data ∧ rbPushAll data s = .ok u ∧ r = okResponse (toValue data.length) []) ∨
        (p = .host ∧ ∃ count, (i = .rbRead .host count ∨ i = .rbSkip .host count) ∧
          u = s.rbConsumed (takeable count.toNat s)) ∨
        (p = .host ∧ ∃ csr value, i = .csrWrite .host csr value ∧ u = writeCtrl value s)) := by
  have pure_case : ∀ {result : Outcome}, onHost p s result = .next t → (result = .next t → ∃ r, t = s.answer p r) →
      ∃ r, t = s.answer p r := by
    intro result h' k
    rcases onHost_eq_next h' with ⟨-, h''⟩ | ⟨rfl, h''⟩
    · exact k h''
    · exact ⟨_, h''⟩
  have bytes_case : ∀ {x : Except CmdError (List Byte)}, onHost p s (.next (answerBytes p x s)) = .next t →
      ∃ r, t = s.answer p r := by
    intro x h'
    refine pure_case h' fun h'' => ?_
    rcases answerBytes_cases p x s with ⟨out, -, hx⟩ | ⟨e, -, hx⟩
    · exact ⟨_, by simpa [hx] using h''.symm⟩
    · exact ⟨_, by simpa [hx] using h''.symm⟩
  have done : (∃ r, t = s.answer p r) → ∃ r u, t = u.answer p r ∧
      (u = s ∨ (∃ data, i = .rbWrite p data ∧ rbPushAll data s = .ok u ∧ r = okResponse (toValue data.length) []) ∨
        (p = .host ∧ ∃ count, (i = .rbRead .host count ∨ i = .rbSkip .host count) ∧
          u = s.rbConsumed (takeable count.toNat s)) ∨
        (p = .host ∧ ∃ csr value, i = .csrWrite .host csr value ∧ u = writeCtrl value s)) :=
    fun ⟨r, hr⟩ => ⟨r, s, hr, .inl rfl⟩
  cases i <;> simp only [Instr.port?, Option.some.injEq, reduceCtorEq] at hp <;> subst hp
  case rbWrite q data =>
    simp only [exec, execRbWrite] at h
    split at h
    · simp at h
    · rename_i u hu
      exact ⟨_, u, by simpa [answerOk] using h.symm, .inr (.inl ⟨data, rfl, hu, rfl⟩)⟩
  case rbRead q count =>
    rcases onHost_eq_next h with ⟨rfl, h'⟩ | ⟨rfl, h'⟩
    · split at h'
      · simp at h'
      · rename_i bytes u hu
        have hs := rbPopMany_state hu
        by_cases hn : takeable count.toNat s = 0
        · rw [if_pos hn] at hs
          exact ⟨_, u, by simpa [answerOk] using h'.symm, .inl hs⟩
        · rw [if_neg hn] at hs
          exact ⟨_, u, by simpa [answerOk] using h'.symm, .inr (.inr (.inl ⟨rfl, count, .inl rfl, hs⟩))⟩
    · exact done ⟨_, h'⟩
  case rbSkip q count =>
    rcases onHost_eq_next h with ⟨rfl, h'⟩ | ⟨rfl, h'⟩
    · exact ⟨_, _, by simpa [answerOk] using h'.symm, .inr (.inr (.inl ⟨rfl, count, .inr rfl, rfl⟩))⟩
    · exact done ⟨_, h'⟩
  case rbAvail q => exact done (pure_case h fun h => ⟨_, by simpa [answerOk] using h.symm⟩)
  case fcChecksum q data => exact done (pure_case h fun h => ⟨_, by simpa [answerOk] using h.symm⟩)
  case fcEscape q data => exact done (bytes_case h)
  case fcUnescape q data => exact done (bytes_case h)
  case fcEncode q mode operand => exact done (bytes_case h)
  case fcDecode q mode data => exact done (bytes_case h)
  case csrRead q csr =>
    refine done (pure_case h fun h => ?_)
    split at h
    · exact ⟨_, by simpa [takeError] using h.symm⟩
    · exact ⟨_, by simpa [answerOk] using h.symm⟩
  case csrWrite q csr value =>
    cases q with
    | prod => exact done ⟨_, by simpa [exec, execCsrWrite, takeError] using h.symm⟩
    | host =>
      rcases execCsrWrite_cases csr value s with ⟨-, -, hx⟩ | hx
      · exact ⟨_, _, by simpa [exec, hx] using h.symm, .inr (.inr (.inr ⟨rfl, csr, value, rfl, rfl⟩))⟩
      · exact done ⟨_, by simpa [exec, hx] using h.symm⟩

end Sys2Proof.Machine
end

