-- ==== Sys2Proof/Laws/PerInstr.lean ====
section
/-! SUPPORT. Statements made of every instruction, one lemma for each constructor. -/

namespace Sys2Proof.Laws

/-! ## The row of spec/opcode_table.json that an encoding belongs to -/

/-- The first bits of an encoding as spec/opcode_table.json numbers them: the command word, or the wire bytes, first byte
in the highest bits. -/
def rowBits : List PortItem → BitVec 32
  | .word w :: _ => w
  | [.byte a] => 0#24 ++ a
  | [.byte a, .byte b] => 0#16 ++ (a ++ b)
  | [.byte a, .byte b, .byte c] => 0#8 ++ (a ++ (b ++ c))
  | _ => 0#32

/-- The `mask` and the `match` of an instruction's row. -/
def rowPattern : Instr → BitVec 32 × BitVec 32
  | .rbWrite _ _ => (0xFF000000#32, 0x10000000#32)
  | .rbRead _ _ => (0xFF000000#32, 0x20000000#32)
  | .rbSkip _ _ => (0xFF000000#32, 0x30000000#32)
  | .rbAvail _ => (0xFFFFFFFF#32, 0x40000000#32)
  | .fcChecksum _ _ => (0xFF000000#32, 0x50000000#32)
  | .fcEscape _ _ => (0xFF000000#32, 0x60000000#32)
  | .fcUnescape _ _ => (0xFF000000#32, 0x70000000#32)
  | .fcEncode _ _ _ => (0xF3000000#32, 0x80000000#32)
  | .fcDecode _ _ _ => (0xF3000000#32, 0x90000000#32)
  | .csrRead _ _ => (0xFFFFFF00#32, 0xA0000000#32)
  | .csrWrite _ _ _ => (0xFF000000#32, 0xB0000000#32)
  | .dmStepDelim => (0xFF#32, 0x7E#32)
  | .dmStepEsc => (0xFF#32, 0x7D#32)
  | .dmStepXon => (0xFF#32, 0x11#32)
  | .dmStepXoff => (0xFF#32, 0x13#32)
  | .dmStepData _ => (0x00#32, 0x00#32)
  | .escPair _ => (0xFF00#32, 0x7D00#32)
  | .frameHdr _ _ => (0xFF0000#32, 0x7E0000#32)

/-- The encoding of a well-formed instruction matches its row of the opcode table. -/
def TableRow.Statement (i : Instr) : Prop :=
  i.wellFormed = true → rowBits (encode i) &&& (rowPattern i).1 = (rowPattern i).2

/-- A command word under a mask of its fields. -/
theorem commandWord_and (op op' : BitVec 4) (mode mode' : BitVec 2) (count count' : BitVec 24) :
    commandWord op mode count &&& (op' ++ mode' ++ 3#2 ++ count') =
      (op &&& op') ++ (mode &&& mode') ++ 0#2 ++ (count &&& count') := by
  have h : (op ++ mode ++ 0#2 ++ count) &&& (op' ++ mode' ++ 3#2 ++ count') =
      (op &&& op') ++ (mode &&& mode') ++ (0#2 &&& 3#2) ++ (count &&& count') := by
    simp only [BitVec.and_append]
  exact h

theorem commandWord_and_wordMask (op : BitVec 4) (count : BitVec 24) :
    commandWord op 0#2 count &&& 0xFF000000#32 = op ++ 0#28 := by
  have h := commandWord_and op 0xF#4 0#2 3#2 count 0#24
  simp only [BitVec.and_zero, BitVec.zero_and] at h
  rw [show (0xFF000000#32) = (0xF#4 ++ 3#2 ++ 3#2 ++ 0#24 : BitVec 32) from rfl, h]
  clear h
  revert op
  decide

theorem commandWord_and_modeMask (op : BitVec 4) (mode : BitVec 2) (count : BitVec 24) :
    commandWord op mode count &&& 0xF3000000#32 = op ++ 0#28 := by
  have h := commandWord_and op 0xF#4 mode 0#2 count 0#24
  simp only [BitVec.and_zero] at h
  rw [show (0xF3000000#32) = (0xF#4 ++ 0#2 ++ 3#2 ++ 0#24 : BitVec 32) from rfl, h]
  clear h
  revert op
  decide

theorem TableRow.rbWrite (port : Port) (data : List Byte) : TableRow.Statement (.rbWrite port data) :=
  fun _ => commandWord_and_wordMask _ _

theorem TableRow.rbRead (port : Port) (count : BitVec 24) : TableRow.Statement (.rbRead port count) :=
  fun _ => commandWord_and_wordMask _ _

theorem TableRow.rbSkip (port : Port) (count : BitVec 24) : TableRow.Statement (.rbSkip port count) :=
  fun _ => commandWord_and_wordMask _ _

theorem TableRow.rbAvail (port : Port) : TableRow.Statement (.rbAvail port) :=
  fun _ => by simp only [encode, rowBits, rowPattern]; decide

theorem TableRow.fcChecksum (port : Port) (data : List Byte) : TableRow.Statement (.fcChecksum port data) :=
  fun _ => commandWord_and_wordMask _ _

theorem TableRow.fcEscape (port : Port) (data : List Byte) : TableRow.Statement (.fcEscape port data) :=
  fun _ => commandWord_and_wordMask _ _

theorem TableRow.fcUnescape (port : Port) (data : List Byte) : TableRow.Statement (.fcUnescape port data) :=
  fun _ => commandWord_and_wordMask _ _

theorem TableRow.fcEncode (port : Port) (mode : Mode) (operand : List Byte) :
    TableRow.Statement (.fcEncode port mode operand) :=
  fun _ => commandWord_and_modeMask _ _ _

theorem TableRow.fcDecode (port : Port) (mode : Mode) (data : List Byte) :
    TableRow.Statement (.fcDecode port mode data) :=
  fun _ => commandWord_and_modeMask _ _ _

theorem TableRow.csrRead (port : Port) (csr : BitVec 8) : TableRow.Statement (.csrRead port csr) := by
  intro _
  have h := commandWord_and 0xA#4 0xF#4 0#2 3#2 (0#16 ++ csr) (0xFFFF#16 ++ 0#8)
  have hc : (0#16 ++ csr) &&& (0xFFFF#16 ++ 0#8) = 0#24 := by
    simp only [BitVec.and_append, BitVec.and_zero]
    decide
  rw [hc] at h
  exact h

theorem TableRow.csrWrite (port : Port) (csr : BitVec 8) (value : BitVec 16) :
    TableRow.Statement (.csrWrite port csr value) :=
  fun _ => commandWord_and_wordMask _ _

theorem TableRow.dmStepDelim : TableRow.Statement .dmStepDelim := fun _ => rfl

theorem TableRow.dmStepEsc : TableRow.Statement .dmStepEsc := fun _ => rfl

theorem TableRow.dmStepXon : TableRow.Statement .dmStepXon := fun _ => rfl

theorem TableRow.dmStepXoff : TableRow.Statement .dmStepXoff := fun _ => rfl

theorem TableRow.dmStepData (b : Byte) : TableRow.Statement (.dmStepData b) := fun _ => BitVec.and_zero

theorem TableRow.escPair (v : Byte) : TableRow.Statement (.escPair v) := by
  intro _
  show (0#16 ++ (escByte ++ v) : BitVec 32) &&& (0#16 ++ (0xFF#8 ++ 0#8)) = 0x7D00#32
  simp only [BitVec.and_append, BitVec.and_zero]
  rfl

theorem TableRow.frameHdr (lenHi lenLo : Byte) : TableRow.Statement (.frameHdr lenHi lenLo) := by
  intro _
  show (0#8 ++ (delimByte ++ (lenHi ++ lenLo)) : BitVec 32) &&& (0#8 ++ (0xFF#8 ++ (0#8 ++ 0#8))) = 0x7E0000#32
  simp only [BitVec.and_append, BitVec.and_zero]
  rfl

end Sys2Proof.Laws
end

