-- ==== Sys2Proof/Laws/Step.lean ====
section
/-! SUPPORT. What the schedule and the fetch can give, and what a step can do. -/

namespace Sys2Proof.Machine

/-! ## Turns -/

theorem nextTurn_cons {s : State} {t : Turn} {rest : List Turn} (h : s.sched = t :: rest) :
    nextTurn s = some (t, s.withSched rest) := by
  simp [nextTurn, h]

/-- All that the scheduler can do: follow the schedule, or past its end leave the turn to an enabled agent, or find none. -/
theorem nextTurn_cases (s : State) :
    (∃ t rest, s.sched = t :: rest ∧ nextTurn s = some (t, s.withSched rest)) ∨
      (s.sched = [] ∧ enabledTurns s = [] ∧ nextTurn s = none) ∨
      (s.sched = [] ∧ ∃ t, enabledTurns s = [t] ∧ nextTurn s = some (t, s)) ∨
      (s.sched = [] ∧ 2 ≤ (enabledTurns s).length ∧ ∃ t ∈ enabledTurns s, nextTurn s = some (t, s.choiceTaken)) := by
  unfold nextTurn
  cases hs : s.sched with
  | cons t rest => exact .inl ⟨t, rest, rfl, rfl⟩
  | nil =>
    right
    cases he : enabledTurns s with
    | nil => exact .inl ⟨rfl, rfl, rfl⟩
    | cons t more =>
      cases more with
      | nil => exact .inr (.inl ⟨rfl, t, rfl, rfl⟩)
      | cons u more =>
        refine .inr (.inr ⟨rfl, by simp, _, ?_, rfl⟩)
        rw [List.getD_eq_getElem _ _ (Nat.mod_lt _ (by simp))]
        exact List.getElem_mem _

/-- The scheduler changes the schedule and the count of choices alone. -/
theorem nextTurn_frame {s u : State} {t : Turn} (h : nextTurn s = some (t, u)) :
    u = { s with sched := u.sched, choices := u.choices } := by
  rcases nextTurn_cases s with ⟨x, rest, -, hx⟩ | ⟨-, -, hx⟩ | ⟨-, x, -, hx⟩ | ⟨-, -, x, -, hx⟩ <;>
    rw [h] at hx <;> simp only [Option.some.injEq, Prod.mk.injEq, reduceCtorEq] at hx <;> rw [hx.2] <;> rfl

/-! ## Fetch -/

/-- All that a port's fetch can give. -/
theorem fetchPort_cases (p : Port) (s : State) :
    fetchPort p s = .idle s ∨ (∃ why q, fetchPort p s = .illegal p why (s.withPortIn p q)) ∨
      ∃ i q, decodePort p (portIn p s) = .command i q ∧ fetchPort p s = .run i (s.withPortIn p q) := by
  unfold fetchPort
  cases h : decodePort p (portIn p s) with
  | incomplete => exact .inl rfl
  | illegal why q => exact .inr (.inl ⟨why, q, rfl⟩)
  | command i q => exact .inr (.inr ⟨i, q, rfl, rfl⟩)

/-- A command taken from a port carries that port. -/
theorem decodePort_port {p : Port} {items q : List PortItem} {i : Instr} (h : decodePort p items = .command i q) :
    i.port? = some p := by
  unfold decodePort at h
  repeat' (split at h <;> try (simp only [Decoded.command.injEq, reduceCtorEq] at h))
  rename_i hd
  exact h.1 ▸ decodeCommand_port hd

/-- The wire forms are the demultiplexer's own. -/
theorem decodeWire_port {bytes : List Byte} {i : Instr} (h : decodeWire bytes = some i) : i.port? = none := by
  unfold decodeWire at h
  split at h
  · rename_i b
    simp only [Option.some.injEq] at h
    subst h
    unfold decodeByte
    cases byteClass b <;> rfl
  · split at h <;> simp only [Option.some.injEq, reduceCtorEq] at h
    subst h
    rfl
  · split at h <;> simp only [Option.some.injEq, reduceCtorEq] at h
    subst h
    rfl
  · simp at h

/-- In a sound ring the demultiplexer's fetch never faults: it finds the wire form of the oldest unread bytes, or
nothing to do. -/
theorem fetchWire_cases {s : State} (h : RingOk s) (n : Nat) :
    fetchWire n s = .idle s ∨
      ∃ i, DemuxEnabled s ∧ n ≤ s.rbAvail ∧ decodeWire ((contents s).take n) = some i ∧ fetchWire n s = .run i s := by
  unfold fetchWire
  split
  · exact .inl rfl
  · rename_i hc
    simp only [not_or, Bool.not_eq_false, Nat.not_lt] at hc
    rw [peekFrom_ok n h.2.2.1, ← contents_take hc.2]
    simp only
    cases hw : decodeWire ((contents s).take n) with
    | none => exact .inl rfl
    | some i => exact .inr ⟨i, (dmEnabled_iff s).1 hc.1, hc.2, rfl, rfl⟩

/-- All that a turn can find in a sound ring: nothing to do, an illegal command of a port, a command of a port, a wire
form of the ring. -/
theorem fetch_cases {s : State} (h : RingOk s) (t : Turn) :
    fetch t s = .idle s ∨ (∃ p why q, fetch t s = .illegal p why (s.withPortIn p q)) ∨
      (∃ p i q, i.port? = some p ∧ fetch t s = .run i (s.withPortIn p q)) ∨
      ∃ i, i.port? = none ∧ DemuxEnabled s ∧ fetch t s = .run i s := by
  have port : ∀ p, fetchPort p s = .idle s ∨ (∃ p' why q, fetchPort p s = .illegal p' why (s.withPortIn p' q)) ∨
      (∃ p' i q, i.port? = some p' ∧ fetchPort p s = .run i (s.withPortIn p' q)) := by
    intro p
    rcases fetchPort_cases p s with hf | ⟨why, q, hf⟩ | ⟨i, q, hd, hf⟩
    · exact .inl hf
    · exact .inr (.inl ⟨p, why, q, hf⟩)
    · exact .inr (.inr ⟨p, i, q, decodePort_port hd, hf⟩)
  have wire : ∀ n, fetchWire n s = .idle s ∨ ∃ i, i.port? = none ∧ DemuxEnabled s ∧ fetchWire n s = .run i s := by
    intro n
    rcases fetchWire_cases h n with hf | ⟨i, he, -, hd, hf⟩
    · exact .inl hf
    · exact .inr ⟨i, decodeWire_port hd, he, hf⟩
  cases t
  case prod => exact (port .prod).imp_right (Or.imp_right .inl)
  case host => exact (port .host).imp_right (Or.imp_right .inl)
  case demux => exact (wire 1).imp_right fun hw => .inr (.inr hw)
  case demuxPair => exact (wire 2).imp_right fun hw => .inr (.inr hw)
  case demuxHeader => exact (wire 3).imp_right fun hw => .inr (.inr hw)

/-- Taking items from a port touches nothing else. -/
theorem withPortIn_frame (p : Port) (q : List PortItem) (s : State) :
    s.withPortIn p q = { s with prodIn := (s.withPortIn p q).prodIn, hostIn := (s.withPortIn p q).hostIn } := rfl

/-! ## Meanings of the demultiplexer's own forms -/

/-- All that a form of the demultiplexer can do: one, two or three DM.STEPs. -/
theorem exec_wire_cases {i : Instr} (h : i.port? = none) (s : State) :
    (∃ b, exec i s = .next (dmStep b s)) ∨ (∃ b c, exec i s = .next (dmStep c (dmStep b s))) ∨
      ∃ b c d, exec i s = .next (dmStep d (dmStep c (dmStep b s))) := by
  cases i <;> simp only [Instr.port?, reduceCtorEq] at h
  case dmStepDelim => exact .inl ⟨_, rfl⟩
  case dmStepEsc => exact .inl ⟨_, rfl⟩
  case dmStepXon => exact .inl ⟨_, rfl⟩
  case dmStepXoff => exact .inl ⟨_, rfl⟩
  case dmStepData b => exact .inl ⟨b, rfl⟩
  case escPair v => exact .inr (.inl ⟨_, v, rfl⟩)
  case frameHdr hi lo => exact .inr (.inr ⟨_, hi, lo, rfl⟩)

/-! ## The bytes that withFetchWord places -/

/-- Placing wire bytes keeps the ring memory canonical. -/
theorem placeWire_wf (bytes : List Byte) {s : State} (h : s.rbMem.wf) : (placeWire bytes s).rbMem.wf :=
  Memory.foldl_write_wf (fun c : Byte × Nat => (s.rbRd + c.2) % s.cap) (fun c => c.1) bytes.zipIdx h

end Sys2Proof.Machine
end

