-- ==== Sys2Proof/Tests/Slice0.lean ====
section
/-! SUPPORT. Checks of the model's own: ill-formed terms, words written out from 30_encoding.md, single steps with the
results of 95_test_vectors.md (its row ids stand in the comments), and for every statement with hypotheses a state and
operands that meet them. -/

namespace Sys2Proof.Tests

open Sys2Proof.Machine

/-! ## Helpers -/

/-- The next state of an outcome. -/
def after : Outcome → Option State
  | .next t => some t
  | .fault _ => none
  | .refused _ => none

/-- A block of capacity `capacity` with `bytes` unread from index `rd` on. -/
def ring (capacity rd : Nat) (bytes : List Byte) : State :=
  placeWire bytes { State.reset with cap := capacity, rbRd := rd }

/-- A demultiplexer that runs in a mode. -/
def running (mode : Mode) (s : State) : State := { s with ctlRun := true, ctlMode := mode }

/-- A demultiplexer inside a frame of announced length `len` whose first payload bytes are `fb`. -/
def inFrame (d : DmState) (len : BitVec 16) (fb : List Byte) (s : State) : State :=
  { s with dmState := d, dmLen := len, dmFb := fb, dmSum := sumBytes fb }

/-- What an instruction answers on HOST, from a block with nothing in its ring. -/
def answers (i : Instr) : Option (List Response) := (after (exec i (ring 4 0 []))).map (·.hostOut)

/-- The ring after an instruction: `rd/wr/avail`, what is unread, and the answers on HOST. -/
def ringAfter (i : Instr) (s : State) : Option (Nat × Nat × Nat × List Byte × List Response) :=
  (after (exec i s)).map fun t => (t.rbRd, t.rbWr, t.rbAvail, contents t, t.hostOut)

/-- The demultiplexer's registers and its events. -/
structure DmView where
  state : DmState
  esc : Bool
  len : BitVec 16
  fb : List Byte
  sum : Byte
  events : List Event
deriving DecidableEq, Repr

/-- The demultiplexer after an instruction. -/
def dmAfter (i : Instr) (s : State) : Option DmView :=
  (after (exec i s)).map fun t => ⟨t.dmState, t.dmEsc, t.dmLen, t.dmFb, t.dmSum, t.events⟩

/-- More operand bytes than the 24-bit count can announce. -/
def tooLong : List Byte := List.replicate 16777216 0#8

theorem tooLong_length : tooLong.length = 16777216 := List.length_replicate

theorem tooLong_unfit : operandFits tooLong = false := by
  rw [operandFits, tooLong_length]
  rfl

/-! ## Ill-formed terms -/

theorem test_illFormed_rbWrite : (Instr.rbWrite .prod tooLong).wellFormed = false := by
  rw [Instr.wellFormed, tooLong_unfit]
theorem test_illFormed_fcChecksum : (Instr.fcChecksum .host tooLong).wellFormed = false := by
  rw [Instr.wellFormed, tooLong_unfit]
theorem test_illFormed_fcEscape : (Instr.fcEscape .host tooLong).wellFormed = false := by
  rw [Instr.wellFormed, tooLong_unfit]
theorem test_illFormed_fcUnescape : (Instr.fcUnescape .host tooLong).wellFormed = false := by
  rw [Instr.wellFormed, tooLong_unfit]
theorem test_illFormed_fcEncode : (Instr.fcEncode .host .api tooLong).wellFormed = false := by
  rw [Instr.wellFormed, tooLong_unfit]
theorem test_illFormed_fcDecode : (Instr.fcDecode .host .api tooLong).wellFormed = false := by
  rw [Instr.wellFormed, tooLong_unfit]
theorem test_illFormed_dmStepData :
    (Instr.dmStepData 0x7E#8).wellFormed = false ∧ (Instr.dmStepData 0x7D#8).wellFormed = false ∧
      (Instr.dmStepData 0x11#8).wellFormed = false ∧ (Instr.dmStepData 0x13#8).wellFormed = false := by decide

/-! ## Words written out from 30_encoding.md R45, R49, R50, R53, R55 -/

theorem test_decode_rbWrite :
    decodePort .prod [.word 0x10000002#32, .byte 0x44#8, .byte 0x45#8, .byte 0x46#8] =
      .command (.rbWrite .prod [0x44#8, 0x45#8]) [.byte 0x46#8] := by decide
theorem test_decode_rbRead : decodePort .host [.word 0x20ABCDEF#32] = .command (.rbRead .host 0xABCDEF#24) [] := by
  decide
theorem test_decode_rbSkip : decodePort .host [.word 0x30FFFFFF#32] = .command (.rbSkip .host 0xFFFFFF#24) [] := by
  decide
theorem test_decode_rbAvail : decodePort .host [.word 0x40000000#32] = .command (.rbAvail .host) [] := by decide
theorem test_decode_fcChecksum :
    decodePort .host [.word 0x50000001#32, .byte 0x08#8] = .command (.fcChecksum .host [0x08#8]) [] := by decide
theorem test_decode_fcEscape :
    decodePort .host [.word 0x60000001#32, .byte 0x7E#8] = .command (.fcEscape .host [0x7E#8]) [] := by decide
theorem test_decode_fcUnescape :
    decodePort .host [.word 0x70000001#32, .byte 0x7E#8] = .command (.fcUnescape .host [0x7E#8]) [] := by decide
theorem test_decode_fcEncode :
    decodePort .host [.word 0x88000002#32, .byte 0x7E#8, .byte 0x7D#8] =
        .command (.fcEncode .host .apiEsc [0x7E#8, 0x7D#8]) [] ∧
      decodePort .host [.word 0x8C000000#32] = .command (.fcEncode .host .unknown []) [] := by decide
theorem test_decode_fcDecode :
    decodePort .host [.word 0x94000001#32, .byte 0x7E#8] = .command (.fcDecode .host .api [0x7E#8]) [] ∧
      decodePort .host [.word 0x90000000#32] = .command (.fcDecode .host .transparent []) [] := by decide
theorem test_decode_csrRead : decodePort .host [.word 0xA0000005#32] = .command (.csrRead .host 0x05#8) [] := by decide
theorem test_decode_csrWrite :
    decodePort .host [.word 0xB0123456#32] = .command (.csrWrite .host 0x56#8 0x1234#16) [] := by decide
theorem test_decode_dmStepDelim : decodeWire [0x7E#8] = some .dmStepDelim := by decide
theorem test_decode_dmStepEsc : decodeWire [0x7D#8] = some .dmStepEsc := by decide
theorem test_decode_dmStepXon : decodeWire [0x11#8] = some .dmStepXon := by decide
theorem test_decode_dmStepXoff : decodeWire [0x13#8] = some .dmStepXoff := by decide
theorem test_decode_dmStepData : decodeWire [0x5E#8] = some (.dmStepData 0x5E#8) := by decide
theorem test_decode_escPair : decodeWire [0x7D#8, 0x41#8] = some (.escPair 0x41#8) := by decide
theorem test_decode_frameHdr : decodeWire [0x7E#8, 0x01#8, 0x02#8] = some (.frameHdr 0x01#8 0x02#8) := by decide

/-- CS10 to CS15: illegal words, by reason; CS15's four operand bytes are consumed. -/
theorem test_decode_illegal :
    decodePort .host [.word 0x00000000#32] = .illegal .reservedOp [] ∧
      decodePort .host [.word 0xC0000000#32] = .illegal .reservedOp [] ∧
      decodePort .host [.word 0xA0000100#32] = .illegal .countField [] ∧
      decodePort .host [.word 0x40000001#32] = .illegal .countField [] ∧
      decodePort .host [.word 0x24000001#32] = .illegal .modeField [] ∧
      decodePort .host [.word 0x91000004#32, .byte 1#8, .byte 2#8, .byte 3#8, .byte 4#8] =
        .illegal .reservedBits [] := by decide

/-- A command whose operand bytes have not all arrived is not taken. -/
theorem test_decode_incomplete : decodePort .host [.word 0x50000002#32, .byte 0x08#8] = .incomplete := by decide

/-- The words of spec/opcode_table.json, as the table numbers their bits. -/
theorem test_decodeTableWord :
    decodeTableWord 32 0xB0000500 = some (.csrWrite .host 0x00#8 0x0005#16) ∧
      decodeTableWord 32 0x10000002 = some (.rbWrite .host [0#8, 0#8]) ∧
      decodeTableWord 8 0x11 = some .dmStepXon ∧ decodeTableWord 8 0x41 = some (.dmStepData 0x41#8) ∧
      decodeTableWord 16 0x7D5E = some (.escPair 0x5E#8) ∧
      decodeTableWord 24 0x7E0102 = some (.frameHdr 0x01#8 0x02#8) ∧ decodeTableWord 16 0x7E5E = none := by decide

/-- The step after `withFetchWord` runs the placed instruction, as the first one after reset. -/
theorem test_withFetchWord :
    (after (step (State.reset.withFetchWord 32 0xB0000500))).map (fun t => (t.ctlRun, t.ctlMode, t.hostOut)) =
        some (true, .apiEsc, [⟨0#32, []⟩]) ∧
      (after (step (State.reset.withFetchWord 24 0x7E0102))).map (fun t => (t.dmState, t.dmLen, t.rbAvail)) =
        some (.payload, 0x0102#16, 0) := by decide

/-! ## Ring operations -/

/-- RB2: wrap and overwrite of one byte. -/
theorem test_rbWrite_overwrites :
    ringAfter (.rbWrite .host [0x44#8, 0x45#8]) (ring 4 0 [0x41#8, 0x42#8, 0x43#8]) =
      some (1, 1, 4, [0x42#8, 0x43#8, 0x44#8, 0x45#8], [⟨2#32, []⟩]) := by decide
/-- RB16: more than CAP from a state that is not empty, on PROD. -/
theorem test_rbWrite_burst :
    ringAfter (.rbWrite .prod [4#8, 5#8, 6#8, 7#8, 8#8, 9#8, 10#8]) (ring 5 2 [3#8]) =
      some (0, 0, 5, [6#8, 7#8, 8#8, 9#8, 10#8], []) := by decide
/-- RB4: a read takes what there is. -/
theorem test_rbRead_clamps : ringAfter (.rbRead .host 9#24) (ring 4 0 [0x45#8]) =
    some (1, 1, 0, [], [⟨1#32, [0x45#8]⟩]) := by decide
/-- S3: five written, five read, on a buffer of ten. -/
theorem test_rbRead_all : ringAfter (.rbRead .host 5#24) (ring 10 0 [1#8, 2#8, 3#8, 4#8, 5#8]) =
    some (5, 5, 0, [], [⟨5#32, [1#8, 2#8, 3#8, 4#8, 5#8]⟩]) := by decide
/-- RB3: a skip wraps. -/
theorem test_rbSkip_wraps : ringAfter (.rbSkip .host 3#24) (ring 4 1 [0x42#8, 0x43#8, 0x44#8, 0x45#8]) =
    some (0, 1, 1, [0x45#8], [⟨3#32, []⟩]) := by decide
/-- RB15: RB.FLUSH moves the read index to the write index. -/
theorem test_rbSkip_flush : ringAfter pseudoFlush (ring 3 2 [3#8, 4#8, 5#8]) = some (2, 2, 0, [], [⟨3#32, []⟩]) := by
  decide
/-- RB18. -/
theorem test_rbAvail : ringAfter (.rbAvail .host) (ring 3 2 [3#8, 4#8]) =
    some (2, 1, 2, [3#8, 4#8], [⟨2#32, []⟩]) := by decide
/-- RB19: a transfer beyond the caller's array. -/
theorem test_rbWriteFrom_beyond :
    rbWriteFrom [1#8, 2#8, 3#8, 4#8] 2 3 (ring 4 0 []) = .ok (.error operandErr, ring 4 0 []) := by rfl
/-- RB20: PROD may not read. -/
theorem test_rbRead_prod : (after (exec (.rbRead .prod 1#24) (ring 4 0 [1#8]))).map (fun t => (t.prodOut, t.rbAvail)) =
    some ([⟨0x80000000#32, []⟩], 1) := by decide

/-! ## The frame codec -/

/-- CK6, CK7. -/
theorem test_fcChecksum : answers (.fcChecksum .host [0x08#8, 0x01#8, 0x4E#8, 0x49#8, 0x41#8, 0x54#8]) =
    some [⟨0x000000CA#32, []⟩] := by decide
theorem test_fcChecksum_special : answers (.fcChecksum .host [0x7E#8, 0x7D#8, 0x11#8, 0x13#8]) =
    some [⟨0x000000E0#32, []⟩] := by decide
/-- S4, and the neighbours of ES8. -/
theorem test_fcEscape : answers (.fcEscape .host [0x7E#8, 0x7D#8, 0x11#8, 0x13#8, 0x00#8, 0x5E#8]) =
    some [⟨10#32, [0x7D#8, 0x5E#8, 0x7D#8, 0x5D#8, 0x7D#8, 0x31#8, 0x7D#8, 0x33#8, 0x00#8, 0x5E#8]⟩] := by decide
theorem test_fcEscape_neighbours : answers (.fcEscape .host [0x10#8, 0x12#8, 0x7C#8, 0x7F#8]) =
    some [⟨4#32, [0x10#8, 0x12#8, 0x7C#8, 0x7F#8]⟩] := by decide
/-- UN4: a special byte after a prefix. -/
theorem test_fcUnescape_pair : answers (.fcUnescape .host [0x7D#8, 0x7E#8]) = some [⟨1#32, [0x5E#8]⟩] := by decide
/-- UN12: the first offence wins over the trailing prefix. -/
theorem test_fcUnescape_special : answers (.fcUnescape .host [0x01#8, 0x11#8, 0x7D#8]) = some [⟨0x40000011#32, []⟩] := by
  decide
/-- EN5: every special byte in the payload. -/
theorem test_fcEncode_apiEsc : answers (.fcEncode .host .apiEsc [0x7E#8, 0x7D#8, 0x11#8, 0x13#8]) =
    some [⟨12#32, [0x7E#8, 0x00#8, 0x04#8, 0x7D#8, 0x5E#8, 0x7D#8, 0x5D#8, 0x7D#8, 0x31#8, 0x7D#8, 0x33#8,
      0xE0#8]⟩] := by decide
/-- EN20: the mode before the operand. -/
theorem test_fcEncode_mode : answers (.fcEncode .host .unknown []) = some [⟨0x10000000#32, []⟩] := by decide
/-- DE26: an escaped frame read in API mode. -/
theorem test_fcDecode_crossed :
    answers (.fcDecode .host .api [0x7E#8, 0x00#8, 0x04#8, 0x7D#8, 0x5E#8, 0x7D#8, 0x5D#8, 0x7D#8, 0x31#8, 0x7D#8,
      0x33#8, 0xE0#8]) = some [⟨0x6000004A#32, []⟩] := by decide
/-- DE23: 7D 7E is the pair for 5E. -/
theorem test_fcDecode_apiEsc : answers (.fcDecode .host .apiEsc [0x7E#8, 0x00#8, 0x01#8, 0x7D#8, 0x7E#8, 0xA1#8]) =
    some [⟨1#32, [0x5E#8]⟩] := by decide

/-! ## Control -/

/-- P5, line 12: CHECKSUM, sum 10. -/
theorem test_csrRead_dmStatus :
    (after (exec (.csrRead .host 0x05#8) (inFrame .checksum 1#16 [0x10#8] (ring 8 0 [])))).map (·.hostOut) =
      some [⟨0x00001004#32, []⟩] := by decide
/-- CS7. -/
theorem test_csrRead_undefined : answers (.csrRead .host 0x07#8) = some [⟨0x20000000#32, []⟩] := by decide
/-- P5, line 13: a change of mode resets the demultiplexer, without an event. -/
theorem test_csrWrite_mode :
    (after (exec (.csrWrite .host 0#8 5#16) (inFrame .checksum 1#16 [0x10#8] (running .api (ring 8 0 []))))).map
        (fun t => (t.ctlRun, t.ctlMode, t.dmState, t.dmFb, t.events)) = some (true, .apiEsc, .hunt, [], []) := by decide
/-- CS8: an undefined register. -/
theorem test_csrWrite_undefined : answers (.csrWrite .host 0xFF#8 0xFFFF#16) = some [⟨0x20000000#32, []⟩] := by decide

/-! ## The demultiplexer -/

/-- Section 4.1, step 1. -/
theorem test_dmStepDelim_opens : dmAfter .dmStepDelim (running .apiEsc (ring 8 0 [0x7E#8])) =
    some ⟨.lenHi, false, 0#16, [], 0#8, []⟩ := by decide
/-- DM9: in API mode 7E in the payload is data. -/
theorem test_dmStepDelim_api : dmAfter .dmStepDelim (inFrame .payload 1#16 [] (running .api (ring 8 0 [0x7E#8]))) =
    some ⟨.checksum, false, 1#16, [0x7E#8], 0x7E#8, []⟩ := by decide
/-- Section 4.1, step 4. -/
theorem test_dmStepEsc_prefix : dmAfter .dmStepEsc (inFrame .payload 1#16 [] (running .apiEsc (ring 8 0 [0x7D#8]))) =
    some ⟨.payload, true, 1#16, [], 0#8, []⟩ := by decide
/-- DM6: an unescaped 11. -/
theorem test_dmStepXon_error : dmAfter .dmStepXon (inFrame .payload 2#16 [0x10#8] (running .apiEsc (ring 8 0 [0x11#8]))) =
    some ⟨.hunt, false, 0#16, [], 0#8, [.err .specialByteNotEscaped 0x11#8]⟩ := by decide
/-- DM5 and DM12: between frames it is noise. -/
theorem test_dmStepXon_noise : dmAfter .dmStepXon (running .apiEsc (ring 8 0 [0x11#8])) =
    some ⟨.hunt, false, 0#16, [], 0#8, []⟩ := by decide
/-- R101, for 13. -/
theorem test_dmStepXoff_error :
    dmAfter .dmStepXoff (inFrame .payload 2#16 [0x10#8] (running .apiEsc (ring 8 0 [0x13#8]))) =
      some ⟨.hunt, false, 0#16, [], 0#8, [.err .specialByteNotEscaped 0x13#8]⟩ := by decide
/-- Section 4.1, step 6. -/
theorem test_dmStepData_closes :
    dmAfter (.dmStepData 0x81#8) (inFrame .checksum 1#16 [0x7E#8] (running .apiEsc (ring 8 0 [0x81#8]))) =
      some ⟨.hunt, false, 0#16, [], 0#8, [.frame [0x7E#8]]⟩ := by decide
/-- DM2: a bad checksum names the expected one. -/
theorem test_dmStepData_bad :
    dmAfter (.dmStepData 0xCB#8) (inFrame .checksum 6#16 [0x08#8, 0x01#8, 0x4E#8, 0x49#8, 0x41#8, 0x54#8]
      (running .api (ring 8 0 [0xCB#8]))) =
      some ⟨.hunt, false, 0#16, [], 0#8, [.err .invalidChecksum 0xCA#8]⟩ := by decide
/-- Section 4.1, steps 4 and 5. -/
theorem test_escPair :
    dmAfter (.escPair 0x5E#8) (inFrame .payload 1#16 [] (running .apiEsc (ring 8 0 [0x7D#8, 0x5E#8]))) =
      some ⟨.checksum, false, 1#16, [0x7E#8], 0x7E#8, []⟩ := by decide
/-- Section 4.1, steps 1 to 3. -/
theorem test_frameHdr : dmAfter (.frameHdr 0x00#8 0x01#8) (running .apiEsc (ring 8 0 [0x7E#8, 0x00#8, 0x01#8])) =
    some ⟨.payload, false, 1#16, [], 0#8, []⟩ := by decide

/-! ## Creation and the indications -/

/-- R76: a block with CAP = 0 is refused; so is one beyond R5's range. -/
theorem test_create : State.create 0 = none ∧ State.create 16777216 = none ∧
    (State.create 1).map (·.cap) = some 1 ∧ State.create 10 = some State.reset := by decide

/-- R132, R138: `data_avail` is the level of the ring; the sink has taken every event. -/
theorem test_indications :
    (dataAvail State.reset, eventValid State.reset) = (false, false) ∧
      (after (exec (.dmStepData 0x81#8) (inFrame .checksum 1#16 [0x7E#8] (running .apiEsc (ring 8 0 [0x81#8, 0#8]))))).map
        (fun t => (dataAvail t, eventValid t, t.events)) = some (true, false, [.frame [0x7E#8]]) := by decide

/-! ## The numbers of 30_encoding.md R52 and 10_state.md R24 -/

theorem test_modeNumbers : modeNum .transparent = 0#2 ∧ modeNum .api = 1#2 ∧ modeNum .apiEsc = 2#2 ∧
    modeNum .unknown = 3#2 := by decide

theorem test_dmStateNumbers : dmStateNum .hunt = 0#3 ∧ dmStateNum .lenHi = 1#3 ∧ dmStateNum .lenLo = 2#3 ∧
    dmStateNum .payload = 3#3 ∧ dmStateNum .checksum = 4#3 := by decide

/-! ## The text form (30_encoding.md R61) -/

theorem test_text :
    instrText (.fcEncode .host .apiEsc [0x7E#8, 0x0A#8]) = "HOST: FC.ENCODE API_ESC, 7E, " ++ bytesText [0x0A#8] ∧
      errorText (checksumErr 0xCA#8) = "Error(InvalidChecksum, 0xCA)" ∧ errorText portErr = "Refused(PortViolation)" := by
  decide

/-! ## Witnesses: for each statement with hypotheses, what meets them -/

/-- Full, read and write index equal, wrapped. -/
abbrev fullRing : State := ring 4 1 [0x42#8, 0x43#8, 0x44#8, 0x45#8]
/-- The smallest buffer, full. -/
abbrev tinyRing : State := ring 1 0 [0xAA#8]
/-- A running demultiplexer between frames. -/
abbrev hunting (mode : Mode) (bytes : List Byte) : State := running mode (ring 8 6 bytes)
/-- A running demultiplexer in the payload of a frame of two bytes. -/
abbrev inPayload (mode : Mode) (bytes : List Byte) : State := inFrame .payload 2#16 [0x10#8] (hunting mode bytes)
/-- The same with a prefix pending. -/
abbrev pending (d : DmState) (bytes : List Byte) : State :=
  { inFrame d 0#16 [] (hunting .apiEsc bytes) with dmEsc := true }

theorem witness_DecodeEncodeRoundTrip :
    (Instr.rbWrite .prod [0x7E#8]).wellFormed = true ∧ (Instr.rbWrite .prod [0x7E#8]).port? = some .prod ∧
      (Instr.dmStepData 0x5E#8).wellFormed = true ∧ (Instr.dmStepData 0x5E#8).port? = none := by decide

theorem witness_LegalWordReencodes :
    [0x7E#8].length = operandBytesDue 0x98000001#32 ∧
      decodeCommand .host 0x98000001#32 [0x7E#8] = .ok (.fcDecode .host .apiEsc [0x7E#8]) := ⟨by decide, by rfl⟩

/-- The edges of class DATA beside the special bytes (ES8), and each special byte. -/
theorem witness_ByteClassesPartitionBytes :
    byteClass 0x7E#8 = .delim ∧ byteClass 0x7D#8 = .esc ∧ byteClass 0x11#8 = .xon ∧ byteClass 0x13#8 = .xoff ∧
      ∀ b ∈ [0x00#8, 0x10#8, 0x12#8, 0x14#8, 0x7C#8, 0x7F#8, 0xFF#8], byteClass b = .data := by decide

/-- One word for each reason of R56: `op` 0, C and F, reserved bits, mode, RB.AVAIL's count, CSR.READ's bits 23:8. -/
theorem witness_IllegalWordIsRefused :
    (∀ c ∈ [(0x00000000#32, 0), (0xC0000000#32, 0), (0xF0000000#32, 0), (0x91000004#32, 4), (0x24000001#32, 0),
        (0x40000001#32, 0), (0xA0000100#32, 0)],
      IllegalWord c.1 ∧ (List.replicate c.2 0#8).length = operandBytesDue c.1) ∧
    (∃ (s : State) (rest : List Turn) (q : List PortItem), s.sched = .host :: rest ∧ s.hostIn = .word 0xC0000000#32 :: ([] ++ q)) ∧
    ∃ (s : State) (rest : List Turn) (q : List PortItem), s.sched = .prod :: rest ∧ s.prodIn = .word 0xC0000000#32 :: ([] ++ q) :=
  ⟨by decide, ⟨{ State.reset with sched := [.host], hostIn := [.word 0xC0000000#32] }, [], [], rfl, rfl⟩,
    ⟨{ State.reset with sched := [.prod], prodIn := [.word 0xC0000000#32] }, [], [], rfl, rfl⟩⟩

/-- The legal words nearest to the illegal ones, on both ports. -/
theorem witness_LegalWordIsCarriedOut :
    (∀ c ∈ [(0x10000001#32, 1), (0xB0FFFFFF#32, 0), (0x9C000000#32, 0), (0x40000000#32, 0), (0xA00000FF#32, 0)],
      ¬ IllegalWord c.1 ∧ (List.replicate c.2 0#8).length = operandBytesDue c.1) ∧
    (∃ (s : State) (rest : List Turn) (q : List PortItem), s.sched = .host :: rest ∧ s.hostIn = .word 0x40000000#32 :: ([] ++ q)) ∧
    ∃ (s : State) (rest : List Turn) (q : List PortItem), s.sched = .prod :: rest ∧ s.prodIn = .word 0x10000001#32 :: ([.byte 0x7E#8] ++ q) :=
  ⟨by decide, ⟨{ State.reset with sched := [.host], hostIn := [.word 0x40000000#32] }, [], [], rfl, rfl⟩,
    ⟨{ State.reset with sched := [.prod], prodIn := [.word 0x10000001#32, .byte 0x7E#8] }, [], [], rfl, rfl⟩⟩

theorem witness_EveryCommandIsAnsweredOnce : RingOk fullRing ∧ (Instr.fcEscape .host [0x7E#8]).port? = some .host := by
  decide

theorem witness_FailedCommandChangesNothing :
    ∃ i p s t r, Instr.port? i = some p ∧ exec i s = .next t ∧ portOut p t = portOut p s ++ [r] ∧
      r.word.extractLsb' 28 4 ≠ 0#4 :=
  ⟨.csrRead .host 7#8, .host, fullRing, takeError .host operandErr fullRing, errorResponse operandErr, rfl, rfl, rfl,
    by decide⟩

theorem witness_ProdPortAcceptsWritesOnly :
    ((Instr.rbRead .prod 1#24).port? = some .prod ∧ ∀ data, Instr.rbRead .prod 1#24 ≠ .rbWrite .prod data) ∧
    (∃ t r, exec (.rbAvail .host) fullRing = .next t ∧ portOut .host t = portOut .host fullRing ++ [r]) ∧
    ∃ t r, exec (.rbWrite .prod []) fullRing = .next t ∧ portOut .prod t = portOut .prod fullRing ++ [r] :=
  ⟨⟨rfl, nofun⟩, ⟨_, _, rfl, rfl⟩, ⟨_, _, rfl, rfl⟩⟩

/-- A buffer that just fits, a full one, and an operand of no bytes. -/
theorem witness_RbWriteMovesIndices :
    RingOk (ring 4 3 [1#8]) ∧ [2#8, 3#8, 4#8].length ≤ 16777215 ∧
      (ring 4 3 [1#8]).rbAvail + [2#8, 3#8, 4#8].length ≤ (ring 4 3 [1#8]).cap ∧
      (ring 4 3 [1#8]).cap ≤ (ring 4 3 [1#8]).rbAvail + [2#8, 3#8, 4#8].length ∧
      RingOk fullRing ∧ fullRing.cap ≤ fullRing.rbAvail + ([] : List Byte).length := by decide

/-- A burst over capacity (RB6): bytes 6 to 9 stay; and a cell that is not written. -/
theorem witness_RbWriteStoresBytes :
    RingOk (ring 4 0 []) ∧ (∃ t, exec (.rbWrite .prod [0#8, 1#8, 2#8, 3#8, 4#8, 5#8, 6#8, 7#8, 8#8, 9#8]) (ring 4 0 []) =
        .next t) ∧
      [0#8, 1#8, 2#8, 3#8, 4#8, 5#8, 6#8, 7#8, 8#8, 9#8][6]? = some 6#8 ∧ 10 ≤ 6 + 4 ∧
      RingOk (ring 4 3 [1#8]) ∧ (∃ t, exec (.rbWrite .prod [2#8]) (ring 4 3 [1#8]) = .next t) ∧
      ∀ i < 1, 1 ≠ ((ring 4 3 [1#8]).rbWr + i) % 4 :=
  ⟨by decide, ⟨_, rfl⟩, by decide, by decide, by decide, ⟨_, rfl⟩, by decide⟩

theorem witness_RbWriteKeepsLastBytes :
    RingOk fullRing ∧ fullRing.cap ≤ [5#8, 6#8, 7#8, 8#8].length ∧ RingOk tinyRing ∧ tinyRing.cap ≤ [0xBB#8, 0xCC#8].length := by
  decide

/-- RB17. -/
theorem witness_SplitWriteEqualsWholeWrite :
    ∃ t u, RingOk (ring 4 0 []) ∧ exec (.rbWrite .host [1#8, 2#8, 3#8]) (ring 4 0 []) = .next t ∧
      exec (.rbWrite .host [4#8, 5#8, 6#8, 7#8]) t = .next u :=
  ⟨_, _, by decide, rfl, rfl⟩

theorem witness_RbReadReturnsOldestBytes : RingOk fullRing ∧ RingOk (ring 4 2 []) := by decide

theorem witness_RbSkipDiscardsOldestBytes :
    RingOk fullRing ∧ fullRing.rbAvail ≤ (4#24).toNat ∧ ∃ u, exec (.rbRead .host 4#24) fullRing = .next u :=
  ⟨by decide, by decide, ⟨_, rfl⟩⟩

theorem witness_RbAvailReturnsCount : RingOk fullRing ∧ RingOk { State.reset with cap := 16777215 } := by decide

/-- One byte beyond the array, and the whole array. -/
theorem witness_AbstractTransfersMatchCommands :
    RingOk fullRing ∧ [1#8, 2#8, 3#8, 4#8].length < 2 + (3#24).toNat ∧
      0 + (4#24).toNat ≤ [1#8, 2#8, 3#8, 4#8].length := by decide

theorem witness_BytesAreConserved :
    RingOk tinyRing ∧ ∃ t, execAll [.rbWrite .host [0xBB#8, 0xCC#8], .rbRead .host 5#24] tinyRing = .next t :=
  ⟨by decide, ⟨_, rfl⟩⟩

theorem witness_FcChecksumComplementsSum : [1#8, 2#8].Perm [2#8, 1#8] := by decide

/-- ES10 and ES11: the longest operand of special bytes that fits, and the shortest that does not. -/
theorem witness_FcEscapeReplacesSpecialBytes :
    (replaceSpecial (List.replicate 8388607 0x7E#8)).length ≤ 16777215 ∧
      16777215 < (replaceSpecial (List.replicate 8388608 0x7E#8)).length := by
  have h : ∀ n, (replaceSpecial (List.replicate n 0x7E#8)).length = 2 * n := by
    intro n
    induction n with
    | zero => rfl
    | succ n ih =>
      rw [List.replicate_succ, replaceSpecial, List.flatMap_cons, ← replaceSpecial, List.length_append, ih]
      simp only [List.mem_cons, true_or, if_true, List.length_cons, List.length_nil]
      omega
  constructor <;> rw [h] <;> norm_num

theorem witness_FcUnescapeRemovesStuffing :
    (∀ x ∈ [Piece.plain 0x5E#8, Piece.pair 0x7E#8, Piece.pair 0x41#8], Piece.ok x = true) ∧
      [Piece.plain 0x5E#8, Piece.pair 0x7E#8, Piece.pair 0x41#8].length ≤ 16777215 ∧
      ∀ b ∈ [0x7E#8, 0x11#8, 0x13#8], b ∈ [0x7E#8, 0x11#8, 0x13#8] := by decide

theorem witness_UnescapeUndoesEscape : (replaceSpecial [0x7E#8, 0x00#8]).length ≤ 16777215 := by decide

/-- No byte, one byte, 65535 bytes, 65536 bytes. -/
theorem witness_FcEncodeBuildsFrame :
    ([] : List Byte) = [] ∧ 65535 < (List.replicate 65536 0#8 : List Byte).length ∧
      ([0x00#8] : List Byte) ≠ [] ∧ (List.replicate 65535 0#8 : List Byte).length ≤ 65535 := by
  refine ⟨rfl, ?_, by decide, ?_⟩
  · rw [List.length_replicate]
    norm_num
  · rw [List.length_replicate]

/-- Length 0, length 2 with a surplus byte (DE11), one byte too few (DE12). -/
theorem witness_FcDecodeReadsApiFrame :
    ([] : List Byte).length = (0x00#8).toNat * 256 + (0x00#8).toNat ∧
      [0x10#8, 0x20#8].length = (0x00#8).toNat * 256 + (0x02#8).toNat ∧
      [0x10#8, 0x20#8, 0xCF#8].length ≤ (0x00#8).toNat * 256 + (0x03#8).toNat := by decide

theorem witness_FcDecodeUnstuffsFirst :
    (∀ x ∈ [Piece.plain 0x00#8, Piece.plain 0x01#8, Piece.pair 0x7E#8, Piece.plain 0xA1#8], Piece.ok x = true) ∧
      ∀ b ∈ [0x7E#8, 0x11#8, 0x13#8], b ∈ [0x7E#8, 0x11#8, 0x13#8] := by decide

theorem witness_FcDecodeChecksModeThenDelimiter : 0x7F#8 ≠ 0x7E#8 ∧ 0x7D#8 ≠ 0x7E#8 := by decide

theorem witness_DecodeUndoesEncode :
    Mode.apiEsc ∈ [Mode.api, Mode.apiEsc] ∧ (List.replicate 65534 0#8 : List Byte).length ≤ 65534 := by
  refine ⟨by decide, ?_⟩
  rw [List.length_replicate]

/-- S7. -/
theorem witness_FlippedPayloadBitFailsChecksum :
    0 < 8 ∧ 7 < 8 ∧ ([] : List Byte).length + [0x01#8, 0x4E#8, 0x49#8, 0x41#8, 0x54#8].length ≤ 65534 := by decide

theorem witness_CsrReadReturnsRegister : RingOk fullRing ∧ 7 ≤ (0x07#8).toNat ∧ 7 ≤ (0xFF#8).toNat := by decide

/-- CS5 and CS6: the first reserved bit of CTRL, the first register after CTRL. -/
theorem witness_CsrWriteRefusesBadOperand :
    (1 ≤ (0x00#8).toNat ∨ 8 ≤ (8#16).toNat) ∧ (1 ≤ (0x01#8).toNat ∨ 8 ≤ (0#16).toNat) := by decide

/-- Value 3 with the mode unchanged, value 5 with another mode. -/
theorem witness_CtrlWriteSetsRunAndMode :
    (3#16, true, Mode.api) ∈ [(0#16, false, Mode.transparent), (1#16, true, .transparent), (2#16, false, .api),
        (3#16, true, .api), (4#16, false, .apiEsc), (5#16, true, .apiEsc), (6#16, false, .unknown), (7#16, true, .unknown)] ∧
      (5#16, true, Mode.apiEsc) ∈ [(0#16, false, Mode.transparent), (1#16, true, .transparent), (2#16, false, .api),
        (3#16, true, .api), (4#16, false, .apiEsc), (5#16, true, .apiEsc), (6#16, false, .unknown), (7#16, true, .unknown)] ∧
      Mode.api = (inPayload .api []).ctlMode ∧ Mode.apiEsc ≠ (inPayload .api []).ctlMode := by decide

theorem witness_PseudoOperationsExpand :
    RingOk (hunting .api [1#8, 2#8]) ∧ contents (hunting .api [1#8, 2#8]) = [1#8, 2#8] ∧
      (hunting .api [1#8, 2#8]).rbAvail < (hunting .api [1#8, 2#8]).cap ∧
      (3#16).toNat = (if (hunting .api [1#8, 2#8]).ctlRun then 1 else 0) + 2 * 1 ∧
      (hunting .api [1#8, 2#8]).ctlMode = .api := by decide

/-- Held by `run`, by the mode (DM14), by an empty ring. -/
theorem witness_HeldDemuxChangesNothing :
    ¬ DemuxEnabled { hunting .api [0x7E#8] with ctlRun := false } ∧ ¬ DemuxEnabled (hunting .transparent [0x7E#8]) ∧
      ¬ DemuxEnabled (hunting .unknown [0x7E#8]) ∧ ¬ DemuxEnabled (hunting .apiEsc []) := by decide

theorem witness_DmStepConsumesOneByte : DemuxEnabled (hunting .api [0x7E#8]) ∧ DemuxEnabled (inPayload .apiEsc [0x11#8]) := by
  decide

theorem witness_HuntDiscardsOtherBytes :
    DemuxEnabled (hunting .apiEsc [0x11#8]) ∧ (hunting .apiEsc [0x11#8]).dmState = .hunt ∧ isDataByte 0x12#8 = true := by
  decide

theorem witness_HuntDelimiterOpensFrame :
    DemuxEnabled (hunting .api [0x7E#8]) ∧ (hunting .api [0x7E#8]).dmState = .hunt := by decide

theorem witness_PrefixIsRemembered :
    DemuxEnabled (inPayload .apiEsc [0x7D#8]) ∧ (inPayload .apiEsc [0x7D#8]).dmState ≠ .hunt ∧
      (inPayload .apiEsc [0x7D#8]).ctlMode = .apiEsc ∧ (inPayload .apiEsc [0x7D#8]).dmEsc = false := by decide

theorem witness_FlowByteAbandonsFrame :
    DemuxEnabled (inPayload .apiEsc [0x13#8]) ∧ (inPayload .apiEsc [0x13#8]).dmState ≠ .hunt ∧
      (inPayload .apiEsc [0x13#8]).ctlMode = .apiEsc ∧ (inPayload .apiEsc [0x13#8]).dmEsc = false := by decide

theorem witness_DelimiterInFrameReopens :
    DemuxEnabled (inPayload .apiEsc [0x7E#8]) ∧ (inPayload .apiEsc [0x7E#8]).dmState ≠ .hunt ∧
      (inPayload .apiEsc [0x7E#8]).ctlMode = .apiEsc ∧ (inPayload .apiEsc [0x7E#8]).dmEsc = false := by decide

/-- A special byte as it stands in API mode, a byte of class DATA in API_ESC mode, and a special byte after a prefix. -/
theorem witness_ContentByteIsLengthHigh :
    (∀ s ∈ [inFrame .lenHi 0#16 [] (hunting .api [0x7E#8])],
      DemuxEnabled s ∧ Delivers 0x7E#8 0x7E#8 s ∧ s.dmState = .lenHi) ∧
    (∀ s ∈ [inFrame .lenHi 0#16 [] (hunting .apiEsc [0xFF#8])],
      DemuxEnabled s ∧ Delivers 0xFF#8 0xFF#8 s ∧ s.dmState = .lenHi) ∧
    ∀ s ∈ [pending .lenHi [0x7E#8]], DemuxEnabled s ∧ Delivers 0x7E#8 0x5E#8 s ∧ s.dmState = .lenHi := by decide

/-- A length of 0 and a length of 65535. -/
theorem witness_ContentByteIsLengthLow :
    (∀ s ∈ [inFrame .lenLo 0#16 [] (hunting .apiEsc [0x00#8])],
      DemuxEnabled s ∧ Delivers 0x00#8 0x00#8 s ∧ s.dmState = .lenLo) ∧
    ∀ s ∈ [inFrame .lenLo 0xFF00#16 [] (hunting .api [0xFF#8])],
      DemuxEnabled s ∧ Delivers 0xFF#8 0xFF#8 s ∧ s.dmState = .lenLo := by decide

/-- The last payload byte, and one before it. -/
theorem witness_ContentByteIsPayload :
    (∀ s ∈ [inPayload .apiEsc [0x20#8]], DemuxEnabled s ∧ Delivers 0x20#8 0x20#8 s ∧ s.dmState = .payload) ∧
    ∀ s ∈ [inFrame .payload 2#16 [] (hunting .api [0x20#8])],
      DemuxEnabled s ∧ Delivers 0x20#8 0x20#8 s ∧ s.dmState = .payload := by decide

/-- The right checksum of `10 20`, and a wrong one. -/
theorem witness_ContentByteClosesFrame :
    ∀ b ∈ [0xCF#8, 0xCE#8], ∀ s ∈ [inFrame .checksum 2#16 [0x10#8, 0x20#8] (hunting .apiEsc [b])],
      DemuxEnabled s ∧ DmOk s ∧ Delivers b b s ∧ s.dmState = .checksum := by decide

theorem witness_EscPairDeliversXoredByte :
    ∀ s ∈ [inPayload .apiEsc [0x7D#8, 0x5E#8]],
      DemuxEnabled s ∧ 2 ≤ s.rbAvail ∧ s.ctlMode = .apiEsc ∧ s.dmEsc = false ∧ s.dmState = .payload := by decide

/-- In API mode with a special length byte, in API_ESC mode without one. -/
theorem witness_FrameHdrOpensFrame :
    (∀ s ∈ [hunting .api [0x7E#8, 0x11#8, 0x00#8]], DemuxEnabled s ∧ 3 ≤ s.rbAvail ∧ s.dmState = .hunt ∧
      s.ctlMode ≠ .apiEsc) ∧
    ∀ s ∈ [hunting .apiEsc [0x7E#8, 0x00#8, 0x00#8]], DemuxEnabled s ∧ 3 ≤ s.rbAvail ∧ s.dmState = .hunt ∧
      s.ctlMode = .apiEsc ∧ isDataByte 0x00#8 = true := by decide

/-- The state of `witness_DemuxAgreesWithFcDecode`: `F` and one byte more in the ring, a turn for each byte of `F`. -/
abbrev aboutToDemux (F : List Byte) : State :=
  { running .apiEsc (ring 8 6 (F ++ [0x55#8])) with sched := List.replicate F.length .demux }

/-- A frame (section 4.1), a bad checksum, an unescaped 11, an unescaped 7E, and a part of a frame. -/
theorem witness_DemuxAgreesWithFcDecode :
    (∀ F ∈ [[0x7E#8, 0x00#8, 0x01#8, 0x7D#8, 0x5E#8, 0x81#8], [0x7E#8, 0x00#8, 0x00#8, 0xFE#8], [0x7E#8, 0x00#8, 0x11#8],
        [0x7E#8, 0x7E#8], [0x7E#8, 0x00#8, 0x01#8, 0x7D#8]],
      RingOk (aboutToDemux F) ∧ (aboutToDemux F).ctlRun = true ∧ (aboutToDemux F).ctlMode = .apiEsc ∧
        (aboutToDemux F).dmState = .hunt ∧ contents (aboutToDemux F) = F ++ [0x55#8] ∧ F.head? = some 0x7E#8 ∧
        (aboutToDemux F).sched = List.replicate F.length .demux ++ []) ∧
    (∀ k < 6, decodeOp .apiEsc ([0x7E#8, 0x00#8, 0x01#8, 0x7D#8, 0x5E#8, 0x81#8].take k) = .error incompleteErr) ∧
    (∀ k < 4, decodeOp .apiEsc ([0x7E#8, 0x00#8, 0x00#8, 0xFE#8].take k) = .error incompleteErr) ∧
    (∀ k < 3, decodeOp .apiEsc ([0x7E#8, 0x00#8, 0x11#8].take k) = .error incompleteErr) ∧
    (∀ k < 2, decodeOp .apiEsc ([0x7E#8, 0x7E#8].take k) = .error incompleteErr) ∧
    (∀ k < 4, decodeOp .apiEsc ([0x7E#8, 0x00#8, 0x01#8, 0x7D#8].take k) = .error incompleteErr) ∧
    decodeOp .apiEsc [0x7E#8, 0x00#8, 0x01#8, 0x7D#8, 0x5E#8, 0x81#8] = .ok [0x7E#8] ∧
    decodeOp .apiEsc [0x7E#8, 0x00#8, 0x00#8, 0xFE#8] = .error (checksumErr 0xFF#8) ∧
    decodeOp .apiEsc [0x7E#8, 0x00#8, 0x11#8] = .error (specialErr 0x11#8) ∧
    decodeOp .apiEsc [0x7E#8, 0x7E#8] = .error (specialErr 0x7E#8) ∧
    decodeOp .apiEsc [0x7E#8, 0x00#8, 0x01#8, 0x7D#8] = .error incompleteErr := by decide

theorem witness_StepRunsPortCommand :
    decodePort .host [.word 0x40000000#32] = .command (.rbAvail .host) [] ∧
      decodePort .prod [.word 0x10000001#32, .byte 0x7E#8] = .command (.rbWrite .prod [0x7E#8]) [] ∧
      (∃ s : State, s.sched = .host :: [] ∧ s.hostIn = [.word 0x40000000#32]) ∧
      ∃ s : State, s.sched = .prod :: [] ∧ s.prodIn = [.word 0x10000001#32, .byte 0x7E#8] :=
  ⟨by decide, by decide, ⟨{ State.reset with sched := [.host], hostIn := [.word 0x40000000#32] }, rfl, rfl⟩,
    ⟨{ State.reset with sched := [.prod], prodIn := [.word 0x10000001#32, .byte 0x7E#8] }, rfl, rfl⟩⟩

theorem witness_StepRunsOldestByte :
    ∀ s ∈ [{ hunting .api [0x7E#8, 0x00#8] with sched := [.demux] }],
      RingOk s ∧ DemuxEnabled s ∧ s.sched = .demux :: [] ∧ contents s = 0x7E#8 :: [0x00#8] := by decide

theorem witness_DerivedFormsAreDmSteps :
    (∀ s ∈ [{ inPayload .apiEsc [0x7D#8, 0x5E#8] with sched := [.demuxPair] }],
      RingOk s ∧ DemuxEnabled s ∧ s.sched = .demuxPair :: [] ∧ contents s = 0x7D#8 :: 0x5E#8 :: []) ∧
    ∀ s ∈ [{ hunting .api [0x7E#8, 0x00#8, 0x01#8] with sched := [.demuxHeader] }],
      RingOk s ∧ DemuxEnabled s ∧ s.sched = .demuxHeader :: [] ∧ contents s = 0x7E#8 :: 0x00#8 :: 0x01#8 :: [] := by
  decide

/-- Nothing enabled; the demultiplexer alone; the demultiplexer and a port. -/
theorem witness_StepTakesAnEnabledTurn :
    (State.reset.sched = [] ∧ enabledTurns State.reset = []) ∧
    ((hunting .api [0x7E#8]).sched = [] ∧ enabledTurns (hunting .api [0x7E#8]) = [.demux]) ∧
    ∀ s ∈ [{ hunting .api [0x7E#8] with hostIn := [.word 0x40000000#32] }],
      s.sched = [] ∧ 2 ≤ (enabledTurns s).length := by decide

theorem witness_QuiescenceIsReached :
    ∀ s ∈ [hunting .api [0x7E#8, 0x00#8]],
      RingOk s ∧ s.sched = [] ∧ portReady .prod s = false ∧ portReady .host s = false := by decide

theorem witness_EventsAreAppendOnly :
    ∃ s t, step s = .next t ∧ s.sched = .host :: [] :=
  ⟨{ State.reset with sched := [.host], hostIn := [.word 0x40000000#32] }, _, rfl, rfl⟩

theorem witness_StepKeepsRingInvariant :
    RingOk { fullRing with sched := [.host], hostIn := [.word 0x10000001#32, .byte 0x7E#8] } ∧
      ∃ t, step { fullRing with sched := [.host], hostIn := [.word 0x10000001#32, .byte 0x7E#8] } = .next t :=
  ⟨by decide, ⟨_, rfl⟩⟩

theorem witness_StepKeepsDemuxInvariant :
    DmOk { inPayload .apiEsc [0x20#8] with sched := [.demux] } ∧
      ∃ t, step { inPayload .apiEsc [0x20#8] with sched := [.demux] } = .next t :=
  ⟨by decide, ⟨_, rfl⟩⟩

theorem witness_StepKeepsMemoryWritten :
    RingOk { fullRing with sched := [.host], hostIn := [.word 0x10000001#32, .byte 0x7E#8] } ∧
      MemOk { fullRing with sched := [.host], hostIn := [.word 0x10000001#32, .byte 0x7E#8] } ∧
      ∃ t, step { fullRing with sched := [.host], hostIn := [.word 0x10000001#32, .byte 0x7E#8] } = .next t :=
  ⟨by decide, by decide, ⟨_, rfl⟩⟩

theorem witness_StepKeepsEventsAndAnswersLegal :
    ∃ s t, DmOk s ∧ EventsOk s ∧ ResponsesOk s ∧ step s = .next t :=
  ⟨{ inPayload .apiEsc [0x11#8] with sched := [.demux], events := [.frame [1#8]], hostOut := [⟨0x80000000#32, []⟩] }, _,
    by decide, by decide, by decide, rfl⟩

theorem witness_SoundStateAlwaysSteps :
    Sound { inPayload .apiEsc [0x11#8] with sched := [.demux], events := [.frame [1#8]], hostOut := [⟨0x80000000#32, []⟩] } := by
  decide

/-- The smallest and the largest capacity, and the ones beside them. -/
theorem witness_ResetIsSound :
    1 ≤ 1 ∧ 1 ≤ 16777215 ∧ 16777215 ≤ 16777215 ∧ (0 = 0 ∨ 16777215 < 0) ∧ (16777216 = 0 ∨ 16777215 < 16777216) := by
  decide

theorem witness_ResetCsrsReadZero : 1 ≤ 1 ∧ 1 ≤ 16777215 ∧ 16777215 ≤ 16777215 ∧ 0 < 7 ∧ 6 < 7 := by decide

theorem witness_EventRecordsCarryCodeAndLength : ([] : List Byte).length ≤ 65535 ∧ [0x7E#8].length ≤ 65535 := by decide

end Sys2Proof.Tests
end

section
/-! PROOFS. The family 30_encoding.md: illegal command words (R56) and the port restriction (R57). -/

namespace Sys2Proof.Machine

/-! ## Illegal command words -/

/-- No word of R56 decodes to a command. -/
theorem not_illegalWord_of_decodeCommand_ok {p : Port} {w : Word} {operand : List Byte} {i : Instr}
    (h : decodeCommand p w operand = .ok i) : ¬ IllegalWord w := by
  have noMode : ∀ op : BitVec 4, op ∉ [0x8#4, 0x9#4] → opTakesMode op = false := by decide
  obtain ⟨hreserved, hmode, hop⟩ := decodeCommand_ok_cases h
  rintro (hbad | hbits | ⟨hfield, hnot⟩ | ⟨h4, hcount⟩ | ⟨hA, hvalue⟩)
  · simp only [List.mem_cons, List.not_mem_nil, or_false] at hbad
    rcases hbad with hbad | hbad | hbad | hbad | hbad <;> simp [opField, hbad] at hop
  · exact hbits hreserved
  · exact hfield (hmode (noMode _ hnot))
  · have hop4 : countField w = 0#24 ∧ i = .rbAvail p := by simpa [opField, h4] using hop
    exact hcount hop4.1
  · have hopA : valueField w = 0#16 ∧ i = .csrRead p (csrField w) := by simpa [opField, hA] using hop
    exact hvalue hopA.1

/-- A port whose stream begins with an illegal word and the operand bytes due to it: both are taken (R129). -/
theorem fetchPort_illegalWord {p : Port} {s : State} {w : Word} {operand : List Byte} {q : List PortItem}
    (hw : IllegalWord w) (hlen : operand.length = operandBytesDue w)
    (hin : portIn p s = .word w :: (operand.map .byte ++ q)) :
    ∃ why, fetchPort p s = .illegal p why (s.withPortIn p q) := by
  cases hd : decodeCommand p w operand with
  | ok i => exact absurd hw (not_illegalWord_of_decodeCommand_ok hd)
  | error why => exact ⟨why, by rw [fetchPort, hin, decodePort_word (hlen.trans (operandBytesDue_eq w)), hd]⟩

/-- The step of a scheduled turn. -/
theorem step_scheduled {s : State} {t : Turn} {rest : List Turn} (h : s.sched = t :: rest) :
    step s = carryOut (fetch t (s.withSched rest)) := by
  rw [step, nextTurn_cons h]

/-- A scheduled turn of a port (`hfetch`) that finds an illegal word: the answer is Refused(IllegalCommand). -/
theorem step_illegalWord {p : Port} {s : State} {t : Turn} {rest : List Turn} {w : Word} {operand : List Byte}
    {q : List PortItem} (hw : IllegalWord w) (hlen : operand.length = operandBytesDue w)
    (hsched : s.sched = t :: rest) (hfetch : fetch t = fetchPort p)
    (hin : portIn p (s.withSched rest) = .word w :: (operand.map .byte ++ q)) :
    step s = .next (((s.withSched rest).withPortIn p q).answer p (errorResponse illegalErr)) := by
  obtain ⟨why, hf⟩ := fetchPort_illegalWord hw hlen hin
  rw [step_scheduled hsched, hfetch, hf, carryOut, refuseIllegal, takeError_eq]

/-- Settles O5: an illegal word never decodes to a command, so either port's turn takes it with its operand bytes and
refuses it. -/
theorem illegalWordIsRefused : Obligations.IllegalWordIsRefused := by
  intro s w operand rest q hw hlen
  exact ⟨fun hsched hin => step_illegalWord hw hlen hsched (p := .host) rfl hin,
    fun hsched hin => step_illegalWord hw hlen hsched (p := .prod) rfl hin⟩

/-! ## The port restriction: PROD -/

/-- Every host operation but RB.WRITE is restricted to HOST. -/
theorem exec_eq_onHost {i : Instr} {p : Port} (hp : i.port? = some p) (hi : ∀ data, i ≠ .rbWrite p data) (s : State) :
    ∃ result, exec i s = onHost p s result := by
  cases i <;> simp only [Instr.port?, Option.some.injEq, reduceCtorEq] at hp <;> subst hp
  case rbWrite data => exact absurd rfl (hi data)
  all_goals exact ⟨_, rfl⟩

/-! ## The codec's errors are no refusals -/

/-- An error of a mapped result is the result's own. -/
theorem map_eq_error {α β : Type} {f : α → β} {x : Except CmdError α} {e : CmdError} (h : x.map f = .error e) :
    x = .error e := by
  cases x with
  | ok a => simp [Except.map] at h
  | error e' => simpa [Except.map] using h

/-- An error that is written out is judged by its kind. -/
theorem isRefusal_of_error_eq {α : Type} {x e : CmdError} (h : (.error x : Except CmdError α) = .error e)
    (hx : x.kind.isRefusal = false) : e.kind.isRefusal = false := by
  cases h
  exact hx

theorem unstuffFrom_error_not_refusal {pending : Bool} {bytes : List Byte} {e : CmdError}
    (h : unstuffFrom pending bytes = .error e) : e.kind.isRefusal = false := by
  induction bytes generalizing pending with
  | nil =>
    cases pending with
    | true => exact isRefusal_of_error_eq h rfl
    | false => simp [unstuffFrom] at h
  | cons b rest ih =>
    cases pending with
    | true => exact ih (map_eq_error h)
    | false =>
      simp only [unstuffFrom] at h
      split_ifs at h
      · exact ih h
      · exact isRefusal_of_error_eq h rfl
      · exact ih (map_eq_error h)

theorem escapeOp_error_not_refusal {data : List Byte} {e : CmdError} (h : escapeOp data = .error e) :
    e.kind.isRefusal = false := by
  simp only [escapeOp] at h
  split_ifs at h
  exact isRefusal_of_error_eq h rfl

theorem encodeOp_error_not_refusal {mode : Mode} {operand : List Byte} {e : CmdError}
    (h : encodeOp mode operand = .error e) : e.kind.isRefusal = false := by
  simp only [encodeOp] at h
  split_ifs at h <;> exact isRefusal_of_error_eq h rfl

theorem validateContent_error_not_refusal {content : List Byte} {e : CmdError}
    (h : validateContent content = .error e) : e.kind.isRefusal = false := by
  simp only [validateContent] at h
  split at h
  · split_ifs at h
    · exact isRefusal_of_error_eq h rfl
    · split at h
      · exact isRefusal_of_error_eq h rfl
      · split_ifs at h
        exact isRefusal_of_error_eq h rfl
  · exact isRefusal_of_error_eq h rfl

theorem contentOf_error_not_refusal {mode : Mode} {region : List Byte} {e : CmdError}
    (h : contentOf mode region = .error e) : e.kind.isRefusal = false := by
  unfold contentOf at h
  split_ifs at h
  exact unstuffFrom_error_not_refusal h

theorem decodeOp_error_not_refusal {mode : Mode} {data : List Byte} {e : CmdError} (h : decodeOp mode data = .error e) :
    e.kind.isRefusal = false := by
  unfold decodeOp at h
  split_ifs at h
  · exact isRefusal_of_error_eq h rfl
  · split at h
    · exact isRefusal_of_error_eq h rfl
    · split_ifs at h
      · exact isRefusal_of_error_eq h rfl
      · split at h
        · rename_i hcontent
          exact isRefusal_of_error_eq h (contentOf_error_not_refusal hcontent)
        · exact validateContent_error_not_refusal h

/-! ## The port restriction: HOST, and RB.WRITE -/

/-- From `s` to `t` the port has given one answer more, and that is no PortViolation. -/
def AcceptedOn (p : Port) (s t : State) : Prop :=
  ∃ r, portOut p t = portOut p s ++ [r] ∧ r.word.extractLsb' 28 4 ≠ ErrorKind.portViolation.code

/-- Whatever the one answer more is, it is no PortViolation. -/
theorem AcceptedOn.code_ne {p : Port} {s t : State} {r : Response} (h : AcceptedOn p s t)
    (hr : portOut p t = portOut p s ++ [r]) : r.word.extractLsb' 28 4 ≠ 8#4 := by
  obtain ⟨r', hr', hcode⟩ := h
  obtain rfl : r' = r := by simpa [hr'] using hr
  exact hcode

theorem acceptedOn_ok {p : Port} {s u : State} (hu : portOut p u = portOut p s) (value : BitVec 24) (out : List Byte) :
    AcceptedOn p s (u.answer p (okResponse value out)) :=
  ⟨_, by rw [portOut_answer, hu], by rw [okResponse_code]; decide⟩

theorem acceptedOn_error {e : CmdError} (he : e.kind.isRefusal = false) (p : Port) (s : State) :
    AcceptedOn p s (s.answer p (errorResponse e)) := by
  refine ⟨_, portOut_answer p _ s, ?_⟩
  rw [errorResponse_code]
  cases hk : e.kind <;> simp [hk, ErrorKind.isRefusal] at he <;> decide

theorem acceptedOn_answerBytes {x : Except CmdError (List Byte)} (hx : ∀ {e}, x = .error e → e.kind.isRefusal = false)
    (p : Port) (s : State) : AcceptedOn p s (answerBytes p x s) := by
  rcases answerBytes_cases p x s with ⟨out, -, ha⟩ | ⟨e, he, ha⟩
  · exact ha ▸ acceptedOn_ok rfl _ _
  · exact ha ▸ acceptedOn_error (hx he) p s

/-- RB.WRITE is accepted on either port. -/
theorem exec_rbWrite_accepted {p : Port} {data : List Byte} {s t : State} (h : exec (.rbWrite p data) s = .next t) :
    AcceptedOn p s t := by
  simp only [exec, execRbWrite] at h
  split at h <;> simp only [Host.Outcome.next.injEq, reduceCtorEq] at h
  rename_i u hu
  subst h
  exact acceptedOn_ok ((congrArg (portOut p) (rbPushAll_frame hu)).trans (by cases p <;> rfl)) _ _

theorem exec_rbRead_accepted {count : BitVec 24} {s t : State} (h : exec (.rbRead .host count) s = .next t) :
    AcceptedOn .host s t := by
  simp only [exec, execRbRead, onHost_host] at h
  split at h <;> simp only [Host.Outcome.next.injEq, reduceCtorEq] at h
  rename_i bytes u hu
  subst h
  exact acceptedOn_ok (by rw [rbPopMany_state hu]; split <;> rfl) _ _

theorem exec_csrRead_accepted {csr : BitVec 8} {s t : State} (h : exec (.csrRead .host csr) s = .next t) :
    AcceptedOn .host s t := by
  simp only [exec, execCsrRead, onHost_host] at h
  split at h <;> simp only [Host.Outcome.next.injEq] at h <;> subst h
  · exact acceptedOn_error rfl _ _
  · exact acceptedOn_ok rfl _ _

theorem exec_csrWrite_accepted {csr : BitVec 8} {value : BitVec 16} {s t : State}
    (h : exec (.csrWrite .host csr value) s = .next t) : AcceptedOn .host s t := by
  have hout : portOut .host (writeCtrl value s) = portOut .host s := by
    rcases writeCtrl_cases value s with ⟨-, hw⟩ | ⟨-, hw⟩ <;> rw [hw] <;> rfl
  rcases execCsrWrite_cases csr value s with ⟨-, -, hx⟩ | hx <;>
    simp only [exec, hx, Host.Outcome.next.injEq] at h <;> subst h
  · exact acceptedOn_ok hout _ _
  · exact acceptedOn_error rfl _ _

/-- HOST accepts every operation. -/
theorem exec_host_accepted {i : Instr} {s t : State} (hp : i.port? = some .host) (h : exec i s = .next t) :
    AcceptedOn .host s t := by
  have result : ∀ {u}, exec i s = .next u → AcceptedOn .host s u → AcceptedOn .host s t := by
    intro u hu hacc
    exact Host.Outcome.next.inj (hu.symm.trans h) ▸ hacc
  cases i <;> simp only [Instr.port?, Option.some.injEq, reduceCtorEq] at hp <;> subst hp
  case rbWrite data => exact exec_rbWrite_accepted h
  case rbRead count => exact exec_rbRead_accepted h
  case rbSkip count => exact result rfl (acceptedOn_ok rfl _ _)
  case rbAvail => exact result rfl (acceptedOn_ok rfl _ _)
  case fcChecksum data => exact result rfl (acceptedOn_ok rfl _ _)
  case fcEscape data => exact result rfl (acceptedOn_answerBytes escapeOp_error_not_refusal _ _)
  case fcUnescape data => exact result rfl (acceptedOn_answerBytes unstuffFrom_error_not_refusal _ _)
  case fcEncode mode operand => exact result rfl (acceptedOn_answerBytes encodeOp_error_not_refusal _ _)
  case fcDecode mode data => exact result rfl (acceptedOn_answerBytes decodeOp_error_not_refusal _ _)
  case csrRead csr => exact exec_csrRead_accepted h
  case csrWrite csr value => exact exec_csrWrite_accepted h

/-- Settles O9: on PROD `onHost` refuses, whatever the operation; on HOST, and for RB.WRITE, every answer is Ok or of
class Error. -/
theorem prodPortAcceptsWritesOnly : Obligations.ProdPortAcceptsWritesOnly := by
  refine ⟨fun i s hp hi => ?_, fun i p s t r hp hport h hr => ?_⟩
  · obtain ⟨result, hx⟩ := exec_eq_onHost hp hi s
    rw [hx, onHost_prod]
    rfl
  · rcases hport with rfl | ⟨data, rfl⟩
    · exact (exec_host_accepted hp h).code_ne hr
    · exact (exec_rbWrite_accepted h).code_ne hr

end Sys2Proof.Machine
end

section
/-! PROOFS. The family 40_ring_buffer.md: what a write leaves unread (R74). -/

namespace Sys2Proof.Machine

/-! ## The last bytes of a sequence -/

/-- A sequence of at most `n` bytes is its own last `n` bytes. -/
theorem lastBytes_of_length_le {n : Nat} {bytes : List Byte} (h : bytes.length ≤ n) : lastBytes n bytes = bytes := by
  rw [lastBytes, Nat.sub_eq_zero_of_le h, List.drop_zero]

/-- More bytes than there are cannot be asked for. -/
theorem lastBytes_min_length (n : Nat) (bytes : List Byte) :
    lastBytes (min n bytes.length) bytes = lastBytes n bytes := by
  rw [lastBytes, lastBytes]
  congr 1
  omega

theorem length_lastBytes (n : Nat) (bytes : List Byte) : (lastBytes n bytes).length = min n bytes.length := by
  rw [lastBytes, List.length_drop]
  omega

/-- What comes before `n` bytes is not among the last `n`. -/
theorem lastBytes_append_right {n : Nat} (xs : List Byte) {ys : List Byte} (h : n ≤ ys.length) :
    lastBytes n (xs ++ ys) = lastBytes n ys := by
  rw [lastBytes, List.length_append, Nat.add_sub_assoc h, ← List.drop_drop, List.drop_left, lastBytes]

/-- Of the bytes before a suffix only the last `n` matter. -/
theorem lastBytes_lastBytes_append (n : Nat) (xs ys : List Byte) :
    lastBytes n (lastBytes n xs ++ ys) = lastBytes n (xs ++ ys) := by
  rcases Nat.le_total xs.length n with h | h
  · rw [lastBytes_of_length_le h]
  · have hsplit : xs ++ ys = xs.take (xs.length - n) ++ (lastBytes n xs ++ ys) := by
      rw [lastBytes, ← List.append_assoc, List.take_append_drop]
    have hlen : n ≤ (lastBytes n xs ++ ys).length := by
      rw [List.length_append, length_lastBytes, Nat.min_eq_left h]
      exact Nat.le_add_right _ _
    rw [hsplit, lastBytes_append_right _ hlen]

/-! ## One byte stored -/

/-- The write index is no cell of the unread window, unless the ring is full. -/
theorem window_ne_rbWr {s : State} (h : RingOk s) (hroom : s.rbAvail < s.cap) {i : Nat} (hi : i < s.rbAvail) :
    (s.rbRd + i) % s.cap ≠ s.rbWr := by
  obtain ⟨-, -, -, -, -, hwr⟩ := h
  rw [hwr]
  intro heq
  have hmod : i ≡ s.rbAvail [MOD s.cap] := Nat.ModEq.add_left_cancel' s.rbRd heq
  exact Nat.ne_of_lt hi (hmod.eq_of_lt_of_lt (hi.trans hroom) hroom)

/-- `rb_push` keeps the ring sound and its capacity. -/
theorem rbPush_ringOk {b : Byte} {s t : State} (h : RingOk s) (hp : rbPush b s = .ok t) : RingOk t ∧ t.cap = s.cap := by
  obtain ⟨-, rfl⟩ := rbPush_eq_ok hp
  exact ⟨rbPushed_ringOk h _, rfl⟩

/-- With room in the ring `rb_push` appends the byte to what is unread. -/
theorem contents_rbPush_of_room {b : Byte} {s t : State} (h : RingOk s) (hroom : s.rbAvail < s.cap)
    (hp : rbPush b s = .ok t) : contents t = contents s ++ [b] := by
  obtain ⟨-, ht⟩ := rbPush_eq_ok hp
  have hcap : t.cap = s.cap := by simp [ht]
  have hrd : t.rbRd = s.rbRd := by simp [ht, rbFull, hroom.ne]
  have havail : t.rbAvail = s.rbAvail + 1 := by simp [ht, rbFull, hroom.ne]
  have hnew : cellValue t s.rbWr = b := by simp [ht, cellValue]
  have hold : ∀ i < s.rbAvail, cellValue t ((s.rbRd + i) % s.cap) = cellValue s ((s.rbRd + i) % s.cap) := by
    intro i hi
    simp [ht, cellValue, window_ne_rbWr h hroom hi]
  obtain ⟨-, -, -, -, -, hwr⟩ := h
  rw [contents, havail, hrd, hcap, List.range_succ, List.map_append, List.map_singleton, ← hwr, hnew, contents]
  congr 1
  exact List.map_congr_left fun i hi => hold i (List.mem_range.1 hi)

/-- On a full ring `rb_push` does what it does once the oldest byte is gone. -/
theorem rbPush_of_full (b : Byte) {s : State} (h : RingOk s) (hfull : s.rbAvail = s.cap) :
    rbPush b s = rbPush b (s.rbConsumed 1) := by
  obtain ⟨hcap, -, -, hwr, -, -⟩ := h
  have hroom : s.cap - 1 ≠ s.cap := by omega
  rw [rbPush_ok hwr, rbPush_ok (s := s.rbConsumed 1) hwr]
  simp [State.rbPushed, State.rbConsumed, rbFull, nextIndex, hfull, hroom, Nat.sub_add_cancel hcap]

/-- `rb_push` leaves the last CAP of the bytes that were unread and the one stored. -/
theorem contents_rbPush {b : Byte} {s t : State} (h : RingOk s) (hp : rbPush b s = .ok t) :
    contents t = lastBytes s.cap (contents s ++ [b]) := by
  obtain ⟨hcap, -, -, -, hle, -⟩ := id h
  rcases Nat.lt_or_eq_of_le hle with hroom | hfull
  · have hshort : (contents s ++ [b]).length ≤ s.cap := by
      rw [List.length_append, length_contents]
      exact hroom
    rw [contents_rbPush_of_room h hroom hp, lastBytes_of_length_le hshort]
  · rw [rbPush_of_full b h hfull] at hp
    have hone : 1 ≤ (contents s).length := by rw [length_contents, hfull]; exact hcap
    have hroom : (s.rbConsumed 1).rbAvail < (s.rbConsumed 1).cap := by
      rw [rbConsumed_rbAvail, rbConsumed_cap]
      omega
    have hsurplus : (contents s ++ [b]).length - s.cap = 1 := by
      rw [List.length_append, length_contents, hfull]
      exact Nat.add_sub_cancel_left _ _
    calc contents t = contents (s.rbConsumed 1) ++ [b] :=
          contents_rbPush_of_room (rbConsumed_ringOk h (hfull ▸ hcap)) hroom hp
      _ = (contents s ++ [b]).drop 1 := by rw [contents_rbConsumed, List.drop_append_of_le_length hone]
      _ = lastBytes s.cap (contents s ++ [b]) := by rw [lastBytes, hsurplus]

/-! ## A whole operand stored -/

/-- The write loop leaves the last CAP of the bytes that were unread and those stored. -/
theorem contents_rbPushAll {data : List Byte} {s t : State} (h : RingOk s) (hp : rbPushAll data s = .ok t) :
    contents t = lastBytes s.cap (contents s ++ data) := by
  induction data generalizing s with
  | nil =>
    obtain ⟨-, -, -, -, hle, -⟩ := h
    simp only [rbPushAll, Except.ok.injEq] at hp
    rw [← hp, List.append_nil, lastBytes_of_length_le ((length_contents s).trans_le hle)]
  | cons b rest ih =>
    simp only [rbPushAll] at hp
    split at hp
    · simp at hp
    · rename_i u hu
      obtain ⟨hok, hcap⟩ := rbPush_ringOk h hu
      rw [ih hok hp, hcap, contents_rbPush h hu, lastBytes_lastBytes_append, List.append_assoc, List.singleton_append]

/-- RB.WRITE from a sound ring ends, on either port, and leaves the last CAP of the bytes that were unread and those
written. -/
theorem exec_rbWrite_contents (p : Port) (data : List Byte) {s : State} (h : RingOk s) :
    ∃ t, exec (.rbWrite p data) s = .next t ∧ contents t = lastBytes s.cap (contents s ++ data) := by
  obtain ⟨u, hu, -⟩ := rbPushAll_ok data h
  refine ⟨u.answer p (okResponse (toValue data.length) []), ?_, ?_⟩
  · simp only [exec, execRbWrite, hu, answerOk_eq]
  · rw [← contents_rbPushAll h hu]
    exact contents_congr rfl rfl rfl rfl

/-- Settles O12: each stored byte leaves the last CAP bytes, and keeping the last CAP bytes at each byte is keeping them
once at the end. -/
theorem rbWriteKeepsLastBytes : Obligations.RbWriteKeepsLastBytes := by
  intro p data s h
  obtain ⟨t, ht, hc⟩ := exec_rbWrite_contents p data h
  have hlen : (contents s ++ data).length = s.rbAvail + data.length := by rw [List.length_append, length_contents]
  refine ⟨t, ht, ?_, fun hlong => ?_⟩
  · rw [hc, ← hlen, lastBytes_min_length]
  · have hlast : contents t = lastBytes s.cap data := hc.trans (lastBytes_append_right _ hlong)
    refine ⟨?_, hlast⟩
    rw [← length_contents t, hlast, length_lastBytes, Nat.min_eq_left hlong]

end Sys2Proof.Machine
end

section
/-! PROOFS. The family 42_demux.md: DM.STEP in HUNT (R97), on a special byte inside an API_ESC frame (R99, R101, R102),
and on a content byte (R104 to R107). -/

namespace Sys2Proof.Machine

/-! ## The row of a byte, enabled -/

theorem decodeByte_data {b : Byte} (hb : isDataByte b = true) : decodeByte b = .dmStepData b := by
  rw [decodeByte, byteClass_eq_data.2 hb]

/-- An enabled DM.STEP takes its byte out of the ring and then works on it (R95). -/
theorem exec_decodeByte_enabled {s : State} (h : DemuxEnabled s) (b : Byte) :
    exec (decodeByte b) s = .next (consumeByte b s.withoutOldest) := by
  rw [exec_decodeByte, dmStep_enabled h, withoutOldest_eq]

/-! ## In HUNT -/

theorem exec_decodeByte_hunt_other {s : State} (h : DemuxEnabled s) (hs : s.dmState = .hunt) {b : Byte}
    (hb : b ≠ delimByte) : exec (decodeByte b) s = .next s.withoutOldest := by
  rw [exec_decodeByte_enabled h, consumeByte_hunt (s := s.withoutOldest) hs, huntByte, if_neg hb]

/-- Settles O35: none of the four rows carries the byte 7E. -/
theorem huntDiscardsOtherBytes : Obligations.HuntDiscardsOtherBytes := by
  intro s h hs
  refine ⟨exec_decodeByte_hunt_other h hs (b := escByte) (by decide),
    exec_decodeByte_hunt_other h hs (b := xonByte) (by decide),
    exec_decodeByte_hunt_other h hs (b := xoffByte) (by decide), fun b hb => ?_⟩
  have hne : b ≠ delimByte := by
    rintro rfl
    exact absurd hb (by decide)
  rw [← decodeByte_data hb]
  exact exec_decodeByte_hunt_other h hs hne

/-! ## A special byte inside an API_ESC frame, with no escape pending -/

theorem escapedModeByte_esc {s : State} (h : s.dmEsc = false) : escapedModeByte escByte s = s.withEsc true := by
  simp [escapedModeByte, h]

theorem escapedModeByte_delim {s : State} (h : s.dmEsc = false) : escapedModeByte delimByte s = delimInFrame s := by
  simp [escapedModeByte, h]

/-- XON and XOFF have one effect (R101). -/
theorem escapedModeByte_flow {s : State} (h : s.dmEsc = false) {b : Byte} (hb : b = xonByte ∨ b = xoffByte) :
    escapedModeByte b s = flowInFrame b s := by
  rcases hb with rfl | rfl <;> simp [escapedModeByte, h]

theorem consumeByte_apiEsc {s : State} (hs : s.dmState ≠ .hunt) (hm : s.ctlMode = .apiEsc) (b : Byte) :
    consumeByte b s = escapedModeByte b s := by
  rw [consumeByte_frame hs, hm, if_neg (by decide)]

theorem exec_decodeByte_apiEsc {s : State} (h : DemuxEnabled s) (hs : s.dmState ≠ .hunt) (hm : s.ctlMode = .apiEsc)
    (b : Byte) : exec (decodeByte b) s = .next (escapedModeByte b s.withoutOldest) := by
  rw [exec_decodeByte_enabled h, consumeByte_apiEsc (s := s.withoutOldest) hs hm]

/-- Settles O37: with no escape pending, 7D only sets `dm.esc`. -/
theorem prefixIsRemembered : Obligations.PrefixIsRemembered := by
  intro s h hs hm he
  have hx := exec_decodeByte_apiEsc h hs hm escByte
  rwa [escapedModeByte_esc (s := s.withoutOldest) he] at hx

/-- Settles O38: both rows are `flow_in_frame` on their byte. -/
theorem flowByteAbandonsFrame : Obligations.FlowByteAbandonsFrame := by
  intro s h hs hm he
  have hflow : ∀ b, b = xonByte ∨ b = xoffByte → exec (decodeByte b) s = .next (flowInFrame b s.withoutOldest) := by
    intro b hb
    rw [exec_decodeByte_apiEsc h hs hm, escapedModeByte_flow (s := s.withoutOldest) he hb]
  exact ⟨hflow xonByte (.inl rfl), hflow xoffByte (.inr rfl)⟩

/-- Settles O39: the row is `delim_in_frame`. -/
theorem delimiterInFrameReopens : Obligations.DelimiterInFrameReopens := by
  intro s h hs hm he
  have hx := exec_decodeByte_apiEsc h hs hm delimByte
  rwa [escapedModeByte_delim (s := s.withoutOldest) he] at hx

/-! ## A content byte -/

theorem withEsc_of_dmEsc_eq {s : State} {v : Bool} (h : s.dmEsc = v) : s.withEsc v = s := by
  rw [State.withEsc, ← h]

/-- Each of the three ways to deliver a content byte hands it to its field with no escape pending (R96, R100, R103). -/
theorem consumeByte_delivers {b v : Byte} {s : State} (hs : s.dmState ≠ .hunt) (hd : Delivers b v s) :
    consumeByte b s = deliver v (s.withEsc false) := by
  rcases hd with ⟨hm, he, rfl⟩ | ⟨hm, he, hb, rfl⟩ | ⟨hm, he, rfl⟩
  · rw [consumeByte_frame hs, if_pos hm, withEsc_of_dmEsc_eq he]
  · rw [consumeByte_apiEsc hs hm, escapedModeByte_data he hb, withEsc_of_dmEsc_eq he]
  · rw [consumeByte_apiEsc hs hm, escapedModeByte_pending he]

theorem exec_decodeByte_delivers {b v : Byte} {s : State} (h : DemuxEnabled s) (hs : s.dmState ≠ .hunt)
    (hd : Delivers b v s) : exec (decodeByte b) s = .next (deliver v (s.withoutOldest.withEsc false)) := by
  rw [exec_decodeByte_enabled h, consumeByte_delivers (s := s.withoutOldest) hs hd]

/-- `dm.len <- v * 256` on numbers. -/
theorem takeLenHi_eq (v : Byte) (s : State) :
    takeLenHi v s = { s with dmLen := BitVec.ofNat 16 (v.toNat * 256), dmState := .lenLo } := by
  rw [takeLenHi, BitVec.ofNat_mul, BitVec.ofNat_toNat, State.withLength]

/-- `dm.len <- dm.len + v` on numbers; the length is zero where the sum is, modulo 2^16. -/
theorem takeLenLo_eq (v : Byte) (s : State) :
    takeLenLo v s = { s with
      dmLen := BitVec.ofNat 16 (s.dmLen.toNat + v.toNat)
      dmState := if (s.dmLen.toNat + v.toNat) % 65536 = 0 then .checksum else .payload } := by
  have hlen : s.dmLen + v.setWidth 16 = BitVec.ofNat 16 (s.dmLen.toNat + v.toNat) := by
    rw [BitVec.ofNat_add, BitVec.ofNat_toNat, BitVec.ofNat_toNat, BitVec.setWidth_eq]
  have hzero : BitVec.ofNat 16 (s.dmLen.toNat + v.toNat) = 0#16 ↔ (s.dmLen.toNat + v.toNat) % 65536 = 0 := by
    rw [← BitVec.toNat_inj, BitVec.toNat_ofNat, BitVec.toNat_ofNat]
  simp only [takeLenLo, State.withLength, hlen, hzero]

/-- `dm.sum <- (dm.sum + v) mod 256` on numbers; only the byte that fills the buffer leaves PAYLOAD. -/
theorem takePayload_eq {s : State} (hs : s.dmState = .payload) (v : Byte) :
    takePayload v s = { s with
      dmFb := s.dmFb ++ [v], dmSum := BitVec.ofNat 8 (s.dmSum.toNat + v.toNat)
      dmState := if (s.dmFb ++ [v]).length = s.dmLen.toNat then .checksum else .payload } := by
  have hsum : s.dmSum + v = BitVec.ofNat 8 (s.dmSum.toNat + v.toNat) := by
    rw [BitVec.ofNat_add, BitVec.ofNat_toNat, BitVec.ofNat_toNat, BitVec.setWidth_eq, BitVec.setWidth_eq]
  rw [takePayload, hsum, hs, List.length_append, List.length_singleton]

/-- The checksum that a closed frame is held against is that of its payload. -/
theorem closeFrame_eq {s : State} (h : s.dmSum = sumBytes s.dmFb) (v : Byte) :
    closeFrame v s = (s.emit (if v = checksumOf s.dmFb then .frame s.dmFb
      else .err .invalidChecksum (checksumOf s.dmFb))).dmCleared .hunt := by
  rw [closeFrame, expectedChecksum_eq h, cks_eq_checksumOf, abandon_eq]

/-- Settles O40: however it is delivered, the byte reaches field lenHi. -/
theorem contentByteIsLengthHigh : Obligations.ContentByteIsLengthHigh := by
  intro b v s h hd hs
  have ht : (s.withoutOldest.withEsc false).dmState = .lenHi := hs
  rw [exec_decodeByte_delivers h (by simp [hs]) hd, deliver_lenHi ht, takeLenHi_eq]
  rfl

/-- Settles O41: however it is delivered, the byte reaches field lenLo. -/
theorem contentByteIsLengthLow : Obligations.ContentByteIsLengthLow := by
  intro b v s h hd hs
  have ht : (s.withoutOldest.withEsc false).dmState = .lenLo := hs
  rw [exec_decodeByte_delivers h (by simp [hs]) hd, deliver_lenLo ht, takeLenLo_eq]
  rfl

/-- Settles O42: however it is delivered, the byte reaches the payload. -/
theorem contentByteIsPayload : Obligations.ContentByteIsPayload := by
  intro b v s h hd hs
  have ht : (s.withoutOldest.withEsc false).dmState = .payload := hs
  rw [exec_decodeByte_delivers h (by simp [hs]) hd, deliver_payload ht, takePayload_eq ht]
  rfl

/-- Settles O43: by I-DM `dm.sum` is the sum of the bytes collected. -/
theorem contentByteClosesFrame : Obligations.ContentByteClosesFrame := by
  intro b v s h hok hd hs
  obtain ⟨hsum, -, -, -⟩ := hok
  have ht : (s.withoutOldest.withEsc false).dmState = .checksum := hs
  rw [exec_decodeByte_delivers h (by simp [hs]) hd, deliver_checksum ht,
    closeFrame_eq (s := s.withoutOldest.withEsc false) hsum]
  rfl

end Sys2Proof.Machine
end

section
/-! PROOFS. The family 43_control.md: the writes that CSR.WRITE turns away (R115 to R117). -/

namespace Sys2Proof.Machine

/-- Only number 0 is CTRL's (30_encoding.md R58). -/
theorem csrOfNum_eq_ctrl {csr : BitVec 8} (h : csrOfNum csr = some .ctrl) : csr.toNat = 0 := by
  unfold csrOfNum at h
  split at h
  next hzero => exact hzero
  all_goals simp at h

/-- The values with no reserved bit of CTRL are those below 8 (R117). -/
theorem ctrlReservedSet_eq_false_iff {value : BitVec 16} : ctrlReservedSet value = false ↔ value.toNat < 8 := by
  simp [ctrlReservedSet, BitVec.lt_def]

/-- Settles O30: a write that is carried out has CTRL's number and no reserved bit, and any other is OperandError. -/
theorem csrWriteRefusesBadOperand : Obligations.CsrWriteRefusesBadOperand := by
  intro csr value s hbad
  rcases execCsrWrite_cases csr value s with ⟨hctrl, hlegal, -⟩ | hrefused
  · have hnum := csrOfNum_eq_ctrl hctrl
    have hval := ctrlReservedSet_eq_false_iff.1 hlegal
    omega
  · exact hrefused

end Sys2Proof.Machine
end

section
/-! PROOFS. What every host operation answers (30_encoding.md R60, 60_exceptions.md R129), and what it leaves alone. -/

namespace Sys2Proof.Machine

/-! ## The one answer -/

/-- The state and the answer that `answer` was given can be read off its result. -/
theorem answer_inj {p : Port} {r r' : Response} {u u' : State} (h : u.answer p r = u'.answer p r') :
    u = u' ∧ r = r' := by
  cases p <;> cases u <;> cases u' <;> simp_all [State.answer]

/-- An answer is that of an Ok outcome, or that of an error which left the block as it was (R129). -/
def AnswerOf (s u : State) (r : Response) : Prop :=
  (∃ value out, r = okResponse value out) ∨ (u = s ∧ ∃ e, r = errorResponse e)

theorem answerOf_ok (s u : State) (value : BitVec 24) (out : List Byte) : AnswerOf s u (okResponse value out) :=
  .inl ⟨value, out, rfl⟩

theorem answerOf_error (s : State) (e : CmdError) : AnswerOf s s (errorResponse e) := .inr ⟨rfl, e, rfl⟩

/-- `t` is `u` with one answer more, on port `p`, to a command that found the block in state `s`. -/
def AnsweredFrom (p : Port) (s t : State) : Prop := ∃ r u, t = u.answer p r ∧ AnswerOf s u r

theorem answeredFrom_ok (p : Port) (s u : State) (value : BitVec 24) (out : List Byte) :
    AnsweredFrom p s (u.answer p (okResponse value out)) := ⟨_, u, rfl, answerOf_ok s u value out⟩

theorem answeredFrom_error (p : Port) (s : State) (e : CmdError) : AnsweredFrom p s (s.answer p (errorResponse e)) :=
  ⟨_, s, rfl, answerOf_error s e⟩

theorem answeredFrom_answerBytes (p : Port) (x : Except CmdError (List Byte)) (s : State) :
    AnsweredFrom p s (answerBytes p x s) := by
  cases x with
  | ok out => exact answeredFrom_ok p s s _ out
  | error e => exact answeredFrom_error p s e

/-- A command of the HOST port is answered as on HOST, or refused. -/
theorem answeredFrom_onHost {p : Port} {s t : State} {result : Outcome} (h : onHost p s result = .next t)
    (hresult : result = .next t → AnsweredFrom p s t) : AnsweredFrom p s t := by
  rcases onHost_eq_next h with ⟨-, hx⟩ | ⟨rfl, rfl⟩
  · exact hresult hx
  · exact answeredFrom_error _ _ _

/-- Every host operation that ends has one answer, and where that is an error the block is as it was. -/
theorem exec_answeredFrom {i : Instr} {p : Port} {s t : State} (hp : i.port? = some p) (h : exec i s = .next t) :
    AnsweredFrom p s t := by
  have result : ∀ {u}, AnsweredFrom p s u → Host.Outcome.next u = (.next t : Outcome) → AnsweredFrom p s t :=
    fun ha hu => Host.Outcome.next.inj hu ▸ ha
  cases i <;> simp only [Instr.port?, Option.some.injEq, reduceCtorEq] at hp <;> subst hp
  case rbWrite q data =>
    simp only [exec, execRbWrite] at h
    split at h
    · simp at h
    · exact result (answeredFrom_ok q s _ _ _) h
  case rbRead q count =>
    refine answeredFrom_onHost h fun hx => ?_
    split at hx
    · simp at hx
    · exact result (answeredFrom_ok q s _ _ _) hx
  case rbSkip q count => exact answeredFrom_onHost h (result (answeredFrom_ok q s _ _ _))
  case rbAvail q => exact answeredFrom_onHost h (result (answeredFrom_ok q s _ _ _))
  case fcChecksum q data => exact answeredFrom_onHost h (result (answeredFrom_ok q s _ _ _))
  case fcEscape q data => exact answeredFrom_onHost h (result (answeredFrom_answerBytes q _ s))
  case fcUnescape q data => exact answeredFrom_onHost h (result (answeredFrom_answerBytes q _ s))
  case fcEncode q mode operand => exact answeredFrom_onHost h (result (answeredFrom_answerBytes q _ s))
  case fcDecode q mode data => exact answeredFrom_onHost h (result (answeredFrom_answerBytes q _ s))
  case csrRead q csr =>
    refine answeredFrom_onHost h fun hx => ?_
    split at hx
    · exact result (answeredFrom_error q s _) hx
    · exact result (answeredFrom_ok q s _ _ _) hx
  case csrWrite q csr value =>
    cases q with
    | prod => exact result (answeredFrom_error .prod s _) h
    | host =>
      rcases execCsrWrite_cases csr value s with ⟨-, -, hx⟩ | hx
      · exact result (answeredFrom_ok .host s _ _ _) (hx.symm.trans h)
      · exact result (answeredFrom_error .host s _) (hx.symm.trans h)

/-! ## The form of an answer -/

theorem resultWord_zeroField (code : BitVec 4) (value : BitVec 24) : (resultWord code value).extractLsb' 24 4 = 0#4 := by
  apply BitVec.eq_of_getLsbD_eq
  intro i hi
  have h1 : ¬ 24 + i < 24 := by omega
  have h2 : 24 + i - 24 < 4 := by omega
  simp only [resultWord, BitVec.getLsbD_extractLsb', BitVec.getLsbD_append, h1, h2, if_false, if_true]
  simp

/-- Above its info byte the value of an error is zero. -/
theorem errorResponse_value (e : CmdError) : (errorResponse e).word.extractLsb' 8 16 = 0#16 := by
  apply BitVec.eq_of_getLsbD_eq
  intro i hi
  have h1 : 8 + i < 24 := by omega
  have h2 : ¬ 8 + i < 8 := by omega
  simp only [errorResponse, resultWord, byteValue, BitVec.getLsbD_extractLsb', BitVec.getLsbD_append, h1, h2, if_false,
    if_true]
  simp

theorem errorKind_code_le (k : ErrorKind) : k.code ≤ 8#4 := by cases k <;> decide

theorem responseOk_ok (value : BitVec 24) (out : List Byte) : responseOk (okResponse value out) = true := by
  have hzero : (okResponse value out).word.extractLsb' 24 4 = 0#4 := resultWord_zeroField _ _
  simp [responseOk, okResponse_code, hzero]

theorem responseOk_error (e : CmdError) : responseOk (errorResponse e) = true := by
  have hzero : (errorResponse e).word.extractLsb' 24 4 = 0#4 := resultWord_zeroField _ _
  have hbytes : (errorResponse e).bytes = [] := rfl
  simp [responseOk, errorResponse_code, errorResponse_value, hzero, hbytes, errorKind_code_le]

theorem AnswerOf.responseOk {s u : State} {r : Response} (h : AnswerOf s u r) : responseOk r = true := by
  rcases h with ⟨value, out, rfl⟩ | ⟨-, e, rfl⟩
  · exact responseOk_ok value out
  · exact responseOk_error e

/-- All that a host operation can do: it changes the block by nothing, a ring write, a ring read or skip, or a legal
write of CTRL, and gives one answer of the form R60. -/
theorem exec_command_answer_cases {i : Instr} {p : Port} {s t : State} (hp : i.port? = some p) (h : exec i s = .next t) :
    ∃ r u, t = u.answer p r ∧ AnswerOf s u r ∧
      (u = s ∨ (∃ data, rbPushAll data s = .ok u) ∨ (∃ n ≤ s.rbAvail, u = s.rbConsumed n) ∨
        ∃ value, u = writeCtrl value s) := by
  obtain ⟨r, u, ht, ha⟩ := exec_answeredFrom hp h
  obtain ⟨r', u', ht', hcases⟩ := exec_command_cases hp h
  obtain ⟨rfl, rfl⟩ := answer_inj (ht.symm.trans ht')
  refine ⟨r, u, ht, ha, ?_⟩
  rcases hcases with hu | ⟨data, -, hu, -⟩ | ⟨-, count, -, hu⟩ | ⟨-, -, value, -, hu⟩
  · exact .inl hu
  · exact .inr (.inl ⟨data, hu⟩)
  · exact .inr (.inr (.inl ⟨_, Nat.min_le_right _ _, hu⟩))
  · exact .inr (.inr (.inr ⟨value, hu⟩))

/-! ## What a command leaves alone -/

/-- Between two states only the ring, CTRL and the demultiplexer's registers may differ. -/
abbrev CommandFrame (s u : State) : Prop :=
  u = { s with
    rbMem := u.rbMem, rbRd := u.rbRd, rbWr := u.rbWr, rbAvail := u.rbAvail, ctlRun := u.ctlRun, ctlMode := u.ctlMode
    dmState := u.dmState, dmEsc := u.dmEsc, dmLen := u.dmLen, dmFb := u.dmFb, dmSum := u.dmSum }

theorem rbPushAll_commandFrame {data : List Byte} {s u : State} (h : rbPushAll data s = .ok u) : CommandFrame s u := by
  have hf := rbPushAll_frame h
  unfold CommandFrame
  rw [hf]

theorem writeCtrl_commandFrame (value : BitVec 16) (s : State) : CommandFrame s (writeCtrl value s) := by
  rcases writeCtrl_cases value s with ⟨-, hw⟩ | ⟨-, hw⟩ <;> rw [hw] <;> rfl

/-- All a host operation does outside the ring, CTRL and the demultiplexer's registers is to give its answer. -/
theorem exec_command_frame {i : Instr} {p : Port} {s t : State} (hp : i.port? = some p) (h : exec i s = .next t) :
    ∃ r u, t = u.answer p r ∧ AnswerOf s u r ∧ CommandFrame s u := by
  obtain ⟨r, u, ht, ha, hu⟩ := exec_command_answer_cases hp h
  refine ⟨r, u, ht, ha, ?_⟩
  rcases hu with rfl | ⟨data, hu⟩ | ⟨n, -, rfl⟩ | ⟨value, rfl⟩
  · rfl
  · exact rbPushAll_commandFrame hu
  · rfl
  · exact writeCtrl_commandFrame value s

theorem CommandFrame.portOut {s u : State} (h : CommandFrame s u) (p : Port) : portOut p u = portOut p s := by
  rw [h]
  cases p <;> rfl

/-! ## Every command ends -/

theorem onHost_ends (p : Port) (s : State) {result : Outcome} (h : ∃ t, result = .next t) :
    ∃ t, onHost p s result = .next t := by
  cases p with
  | prod => exact ⟨_, rfl⟩
  | host => exact h

/-- In a sound ring every host operation ends in a next state: no access to ring memory leaves the ring. -/
theorem exec_command_ends {i : Instr} {p : Port} {s : State} (hok : RingOk s) (hp : i.port? = some p) :
    ∃ t, exec i s = .next t := by
  cases i <;> simp only [Instr.port?, Option.some.injEq, reduceCtorEq] at hp <;> subst hp
  case rbWrite q data =>
    obtain ⟨u, hu, -⟩ := rbPushAll_ok data hok
    exact ⟨u.answer q (okResponse (toValue data.length) []), by simp only [exec, execRbWrite, hu, answerOk_eq]⟩
  case rbRead q count =>
    obtain ⟨-, -, hrd, -⟩ := hok
    exact onHost_ends q s ⟨_, by rw [rbPopMany_ok _ hrd]⟩
  case csrRead q csr =>
    refine onHost_ends q s ?_
    split
    · exact ⟨_, rfl⟩
    · exact ⟨_, rfl⟩
  case csrWrite q csr value =>
    cases q with
    | prod => exact ⟨_, rfl⟩
    | host => rcases execCsrWrite_cases csr value s with ⟨-, -, hx⟩ | hx <;> exact ⟨_, hx⟩
  all_goals exact onHost_ends _ s ⟨_, rfl⟩

/-- Settles O7: each operation ends, its answer is Ok's or an error's, and what it changes of the block is none of the
fields named. -/
theorem everyCommandIsAnsweredOnce : Obligations.EveryCommandIsAnsweredOnce := by
  intro i p s hok hp
  obtain ⟨t, ht⟩ := exec_command_ends hok hp
  obtain ⟨r, u, rfl, ha, hu⟩ := exec_command_frame hp ht
  refine ⟨_, r, ht, by rw [portOut_answer, hu.portOut], ha.responseOk,
    fun q hq => by rw [portOut_answer_ne hq, hu.portOut], ?_⟩
  rw [hu]
  exact ⟨rfl, rfl, rfl, rfl, rfl, rfl⟩

/-- Settles O8: an answer with another code than 0 is an error's, and with an error the block is as it was. -/
theorem failedCommandChangesNothing : Obligations.FailedCommandChangesNothing := by
  intro i p s t r hp ht hr hcode
  obtain ⟨r', u, rfl, ha, hu⟩ := exec_command_frame hp ht
  obtain rfl : r' = r := by simpa [portOut_answer, hu.portOut] using hr
  rcases ha with ⟨value, out, rfl⟩ | ⟨rfl, e, rfl⟩
  · exact absurd (okResponse_code value out) hcode
  · exact ⟨rfl, answer_eq_withPortOut p _ u⟩

end Sys2Proof.Machine
end

section
/-! PROOFS. What every step keeps: the invariants of the ring (R72), of the demultiplexer (10_state.md section 5), of the
ring memory (R15), of the events and answers (60_exceptions.md R119, R130), and that the event list only grows. -/

namespace Sys2Proof.Machine

/-! ## All that a step can do -/

/-- Between two states only the schedule and what is still to come on the ports may differ. -/
abbrev FetchedFrom (s u : State) : Prop :=
  u = { s with sched := u.sched, choices := u.choices, prodIn := u.prodIn, hostIn := u.hostIn }

theorem nextTurn_fetchedFrom {s u : State} {t : Turn} (h : nextTurn s = some (t, u)) : FetchedFrom s u := by
  have hf := nextTurn_frame h
  unfold FetchedFrom
  rw [hf]

/-- All that the demultiplexer's fetch can give in any state: nothing to do, a fault, or a wire form; the state stays. -/
theorem fetchWire_outcomes (n : Nat) (s : State) :
    fetchWire n s = .idle s ∨ (∃ f, fetchWire n s = .fault f) ∨ ∃ i, fetchWire n s = .run i s := by
  unfold fetchWire
  split
  · exact .inl rfl
  · split
    · exact .inr (.inl ⟨_, rfl⟩)
    · split
      · exact .inl rfl
      · exact .inr (.inr ⟨_, rfl⟩)

/-- All that a turn can come to, where it ends in a next state: nothing but items taken from a port, a refused illegal
word, or an instruction carried out. -/
def TurnResult (s t : State) : Prop :=
  ∃ u, FetchedFrom s u ∧ (t = u ∨ (∃ p, t = u.answer p (errorResponse illegalErr)) ∨ ∃ i, exec i u = .next t)

theorem carryOut_fetchPort_result {p : Port} {s t : State} (h : carryOut (fetchPort p s) = .next t) :
    TurnResult s t := by
  rcases fetchPort_cases p s with hf | ⟨why, q, hf⟩ | ⟨i, q, -, hf⟩ <;> rw [hf] at h
  · exact ⟨s, rfl, .inl (Host.Outcome.next.inj h).symm⟩
  · exact ⟨s.withPortIn p q, rfl, .inr (.inl ⟨p, (Host.Outcome.next.inj h).symm⟩)⟩
  · exact ⟨s.withPortIn p q, rfl, .inr (.inr ⟨i, h⟩)⟩

theorem carryOut_fetchWire_result {n : Nat} {s t : State} (h : carryOut (fetchWire n s) = .next t) :
    TurnResult s t := by
  rcases fetchWire_outcomes n s with hf | ⟨f, hf⟩ | ⟨i, hf⟩ <;> rw [hf] at h
  · exact ⟨s, rfl, .inl (Host.Outcome.next.inj h).symm⟩
  · simp [carryOut] at h
  · exact ⟨s, rfl, .inr (.inr ⟨i, h⟩)⟩

theorem carryOut_fetch_result {turn : Turn} {s t : State} (h : carryOut (fetch turn s) = .next t) : TurnResult s t := by
  cases turn
  case prod => exact carryOut_fetchPort_result (p := .prod) h
  case host => exact carryOut_fetchPort_result (p := .host) h
  case demux => exact carryOut_fetchWire_result (n := 1) h
  case demuxPair => exact carryOut_fetchWire_result (n := 2) h
  case demuxHeader => exact carryOut_fetchWire_result (n := 3) h

/-- All that a step can do in any state, where it ends in a next state. -/
theorem step_result {s t : State} (h : step s = .next t) : TurnResult s t := by
  unfold step at h
  split at h
  · exact ⟨s, rfl, .inl (Host.Outcome.next.inj h).symm⟩
  · rename_i turn v hv
    obtain ⟨u, hu, hcases⟩ := carryOut_fetch_result h
    have hv := nextTurn_fetchedFrom hv
    exact ⟨u, by unfold FetchedFrom; rw [hu, hv], hcases⟩

/-! ## Properties that every operation keeps -/

/-- `P` is kept by everything a step is made of. -/
structure Kept (P : State → Prop) : Prop where
  /-- The schedule moves on, or items are taken from a port. -/
  fetched {s u : State} : FetchedFrom s u → P s → P u
  /-- An answer of the form R60 is given. -/
  answered {s : State} {r : Response} (p : Port) : responseOk r = true → P s → P (s.answer p r)
  /-- An operand is written into the ring. -/
  pushed {s u : State} {data : List Byte} : rbPushAll data s = .ok u → P s → P u
  /-- Unread bytes are taken from the ring. -/
  consumed {s : State} {n : Nat} : n ≤ s.rbAvail → P s → P (s.rbConsumed n)
  /-- CTRL is written. -/
  controlled {s : State} (value : BitVec 16) : P s → P (writeCtrl value s)
  /-- The demultiplexer works on a byte. -/
  demuxed {s : State} (b : Byte) : parseable s.ctlMode = true → P s → P (consumeByte b s)

theorem Kept.dmStep {P : State → Prop} (k : Kept P) (b : Byte) {s : State} (hs : P s) : P (dmStep b s) := by
  rcases dmStep_cases b s with ⟨-, hx⟩ | ⟨⟨-, hmode, havail⟩, hx, -⟩ <;> rw [hx]
  · exact hs
  · refine k.demuxed b ?_ (k.consumed havail hs)
    rcases hmode with hm | hm <;> simp [hm, parseable]

/-- An instruction that ends in a next state keeps what every operation keeps. -/
theorem Kept.exec {P : State → Prop} (k : Kept P) {i : Instr} {s t : State} (hs : P s) (h : exec i s = .next t) :
    P t := by
  cases hp : i.port? with
  | some p =>
    obtain ⟨r, u, rfl, ha, hu⟩ := exec_command_answer_cases hp h
    refine k.answered p ha.responseOk ?_
    rcases hu with rfl | ⟨data, hu⟩ | ⟨n, hn, rfl⟩ | ⟨value, rfl⟩
    · exact hs
    · exact k.pushed hu hs
    · exact k.consumed hn hs
    · exact k.controlled value hs
  | none =>
    rcases exec_wire_cases hp s with ⟨b, hx⟩ | ⟨b, c, hx⟩ | ⟨b, c, d, hx⟩ <;>
      obtain rfl := Host.Outcome.next.inj (hx.symm.trans h)
    · exact k.dmStep b hs
    · exact k.dmStep c (k.dmStep b hs)
    · exact k.dmStep d (k.dmStep c (k.dmStep b hs))

/-- A step that ends in a next state keeps what every operation keeps. -/
theorem Kept.step {P : State → Prop} (k : Kept P) {s t : State} (hs : P s) (h : step s = .next t) : P t := by
  obtain ⟨u, hu, rfl | ⟨p, rfl⟩ | ⟨i, hi⟩⟩ := step_result h
  · exact k.fetched hu hs
  · exact k.answered p (responseOk_error illegalErr) (k.fetched hu hs)
  · exact k.exec (k.fetched hu hs) hi

theorem Kept.and {P Q : State → Prop} (hP : Kept P) (hQ : Kept Q) : Kept fun s => P s ∧ Q s where
  fetched hu h := ⟨hP.fetched hu h.1, hQ.fetched hu h.2⟩
  answered p hr h := ⟨hP.answered p hr h.1, hQ.answered p hr h.2⟩
  pushed hu h := ⟨hP.pushed hu h.1, hQ.pushed hu h.2⟩
  consumed hn h := ⟨hP.consumed hn h.1, hQ.consumed hn h.2⟩
  controlled value h := ⟨hP.controlled value h.1, hQ.controlled value h.2⟩
  demuxed b hm h := ⟨hP.demuxed b hm h.1, hQ.demuxed b hm h.2⟩

/-! ## The ring -/

theorem rbPushAll_cap {data : List Byte} {s u : State} (h : rbPushAll data s = .ok u) : u.cap = s.cap := by
  rw [rbPushAll_frame h]

theorem rbPushAll_ringOk {data : List Byte} {s u : State} (hok : RingOk s) (h : rbPushAll data s = .ok u) :
    RingOk u := by
  obtain ⟨v, hv, hring⟩ := rbPushAll_ok data hok
  obtain rfl := Except.ok.inj (hv.symm.trans h)
  exact hring

theorem kept_ringOk : Kept RingOk where
  fetched hu h := by rw [hu]; exact h
  answered _ _ h := h
  pushed hu h := rbPushAll_ringOk h hu
  consumed hn h := rbConsumed_ringOk h hn
  controlled {s} value h := by rcases writeCtrl_cases value s with ⟨-, hw⟩ | ⟨-, hw⟩ <;> rw [hw] <;> exact h
  demuxed b _ h := by rw [(consumeByte_dmFrame b _).2]; exact h

/-- Nothing changes the capacity. -/
theorem kept_cap (c : Nat) : Kept fun s => s.cap = c where
  fetched hu h := by rw [hu]; exact h
  answered _ _ h := h
  pushed hu h := (rbPushAll_cap hu).trans h
  consumed _ h := h
  controlled value h := by rw [writeCtrl_commandFrame value]; exact h
  demuxed b _ h := by rw [(consumeByte_dmFrame b _).2]; exact h

/-- Settles O53: every operation a step is made of keeps I-RB and CAP. -/
theorem stepKeepsRingInvariant : Obligations.StepKeepsRingInvariant :=
  fun s _ hs h => ⟨kept_ringOk.step hs h, (kept_cap s.cap).step rfl h⟩

/-! ## The demultiplexer -/

section Frame
variable {s : State}

theorem dmFrameOk_hunt (h : s.dmState = .hunt) :
    dmFrameOk s = true ↔ s.dmFb = [] ∧ s.dmLen = 0#16 ∧ s.dmEsc = false := by
  simp [dmFrameOk, h, and_assoc]

theorem dmFrameOk_lenHi (h : s.dmState = .lenHi) : dmFrameOk s = true ↔ s.dmFb = [] ∧ s.dmLen = 0#16 := by
  simp [dmFrameOk, h]

theorem dmFrameOk_lenLo (h : s.dmState = .lenLo) :
    dmFrameOk s = true ↔ s.dmFb = [] ∧ s.dmLen.extractLsb' 0 8 = 0#8 := by
  simp [dmFrameOk, h]

theorem dmFrameOk_payload (h : s.dmState = .payload) : dmFrameOk s = true ↔ s.dmFb.length < s.dmLen.toNat := by
  simp [dmFrameOk, h]

theorem dmFrameOk_checksum (h : s.dmState = .checksum) : dmFrameOk s = true ↔ s.dmFb.length = s.dmLen.toNat := by
  simp [dmFrameOk, h]

end Frame

/-- Inside a frame the frame buffer's invariant does not look at the pending escape. -/
theorem dmFrameOk_withEsc {s : State} (h : s.dmState ≠ .hunt) (v : Bool) : dmFrameOk (s.withEsc v) = dmFrameOk s := by
  have same : ∀ {P : Prop}, (dmFrameOk (s.withEsc v) = true ↔ P) → (dmFrameOk s = true ↔ P) →
      dmFrameOk (s.withEsc v) = dmFrameOk s := fun h h' => Bool.eq_iff_iff.2 (h.trans h'.symm)
  cases hs : s.dmState with
  | hunt => exact absurd hs h
  | lenHi => exact same (dmFrameOk_lenHi (s := s.withEsc v) hs) (dmFrameOk_lenHi hs)
  | lenLo => exact same (dmFrameOk_lenLo (s := s.withEsc v) hs) (dmFrameOk_lenLo hs)
  | payload => exact same (dmFrameOk_payload (s := s.withEsc v) hs) (dmFrameOk_payload hs)
  | checksum => exact same (dmFrameOk_checksum (s := s.withEsc v) hs) (dmFrameOk_checksum hs)

/-- A cleared demultiplexer that is between frames, or that has just opened one in a parseable mode, is sound. -/
theorem dmOk_dmCleared {s : State} {d : DmState} (h : d = .hunt ∨ d = .lenHi ∧ parseable s.ctlMode = true) :
    DmOk (s.dmCleared d) := by
  rcases h with rfl | ⟨rfl, hm⟩
  · exact ⟨rfl, rfl, nofun, fun _ => rfl⟩
  · exact ⟨rfl, rfl, nofun, fun hn => absurd hn (by simp [hm])⟩

theorem dmOk_withEsc {s : State} (h : DmOk s) (hs : s.dmState ≠ .hunt) {v : Bool} (hv : v = true → s.ctlMode = .apiEsc) :
    DmOk (s.withEsc v) := by
  obtain ⟨hsum, hframe, -, hmode⟩ := h
  exact ⟨hsum, by rw [dmFrameOk_withEsc hs, hframe], hv, hmode⟩

/-- The high byte of a length leaves the low byte zero. -/
theorem lowByte_lenHi (v : Byte) : (v.setWidth 16 * 256#16).extractLsb' 0 8 = 0#8 := by
  apply BitVec.eq_of_toNat_eq
  simp

/-- A content byte inside a frame keeps the demultiplexer's invariants. -/
theorem deliver_dmOk (v : Byte) {s : State} (h : DmOk s) (hm : parseable s.ctlMode = true) : DmOk (deliver v s) := by
  obtain ⟨hsum, hframe, hesc, hmode⟩ := id h
  have hopen : ∀ {d : DmState}, parseable s.ctlMode = false → d = .hunt := fun hn => absurd hn (by simp [hm])
  cases hs : s.dmState with
  | hunt => rwa [deliver, hs]
  | lenHi =>
    obtain ⟨hfb, -⟩ := (dmFrameOk_lenHi hs).1 hframe
    rw [deliver_lenHi hs]
    exact ⟨hsum, (dmFrameOk_lenLo rfl).2 ⟨hfb, lowByte_lenHi v⟩, hesc, hopen⟩
  | lenLo =>
    obtain ⟨hfb, -⟩ := (dmFrameOk_lenLo hs).1 hframe
    rw [deliver_lenLo hs]
    refine ⟨hsum, ?_, hesc, hopen⟩
    by_cases hzero : s.dmLen + v.setWidth 16 = 0#16
    · rw [dmFrameOk_checksum (by simp [takeLenLo, hzero])]
      simp [takeLenLo, hzero, hfb]
    · rw [dmFrameOk_payload (by simp [takeLenLo, hzero])]
      simp only [takeLenLo, withLength_dmFb, withLength_dmLen, hfb, List.length_nil]
      exact Nat.pos_of_ne_zero fun hn => hzero (BitVec.eq_of_toNat_eq hn)
  | payload =>
    have hlt := (dmFrameOk_payload hs).1 hframe
    rw [deliver_payload hs]
    refine ⟨by simp [takePayload, hsum], ?_, hesc, hopen⟩
    by_cases hlast : s.dmFb.length + 1 = s.dmLen.toNat
    · rw [dmFrameOk_checksum (by simp [takePayload, hlast])]
      simp [takePayload, hlast]
    · rw [dmFrameOk_payload (by simp [takePayload, hlast, hs])]
      simp only [takePayload, List.length_append, List.length_singleton]
      omega
  | checksum =>
    rw [deliver_checksum hs]
    exact dmOk_dmCleared (.inl rfl)

theorem consumeByte_dmOk (b : Byte) {s : State} (h : DmOk s) (hm : parseable s.ctlMode = true) :
    DmOk (consumeByte b s) := by
  have hesc : s.ctlMode ≠ .api → s.ctlMode = .apiEsc := by
    cases hmode : s.ctlMode <;> simp [hmode, parseable] at hm ⊢
  rcases consumeByte_cases b s with ⟨-, -, hx⟩ | ⟨-, -, hx⟩ | ⟨hs, hn, -, -, hx⟩ | ⟨-, -, -, -, hx⟩ | ⟨-, -, -, -, hx⟩ |
    ⟨-, -, -, -, hx⟩ | ⟨hs, -, -, hx⟩ | ⟨-, -, hx⟩ <;> rw [hx]
  · exact h
  · exact dmOk_dmCleared (.inr ⟨rfl, hm⟩)
  · exact dmOk_withEsc h hs fun _ => hesc hn
  · exact dmOk_dmCleared (.inr ⟨rfl, hm⟩)
  · exact dmOk_dmCleared (.inl rfl)
  · exact deliver_dmOk b h hm
  · exact deliver_dmOk _ (dmOk_withEsc h hs nofun) hm
  · exact deliver_dmOk b h hm

theorem kept_dmOk : Kept DmOk where
  fetched hu h := by rw [hu]; exact h
  answered _ _ h := h
  pushed hu h := by rw [rbPushAll_frame hu]; exact h
  consumed _ h := h
  controlled {s} value h := by
    rcases writeCtrl_cases value s with ⟨-, hw⟩ | ⟨-, hw⟩ <;> rw [hw]
    · exact h
    · exact dmOk_dmCleared (.inl rfl)
  demuxed b hm h := consumeByte_dmOk b h hm

/-- Settles O54: every operation a step is made of keeps I-DM and the invariant on `dm.esc`. -/
theorem stepKeepsDemuxInvariant : Obligations.StepKeepsDemuxInvariant := fun _ _ hs h => kept_dmOk.step hs h

/-! ## The ring memory -/

/-- A ring that is sound and whose unread window is written. -/
abbrev WrittenRing (s : State) : Prop := RingOk s ∧ MemOk s

/-- Taking unread bytes leaves the window of those that stay. -/
theorem rbConsumed_memOk {s : State} (h : MemOk s) (n : Nat) : MemOk (s.rbConsumed n) := by
  obtain ⟨hwf, hin, hwin⟩ := h
  refine ⟨hwf, hin, fun i hi => ?_⟩
  simp only [rbConsumed_rbAvail] at hi
  simp only [rbConsumed_rbRd, rbConsumed_cap, rbConsumed_rbMem, add_mod_add_mod]
  exact hwin (n + i) (by omega)

/-- A byte stored where there is room is the new end of the window. -/
theorem rbPush_memOk_of_room {b : Byte} {s t : State} (hok : RingOk s) (h : MemOk s) (hroom : s.rbAvail < s.cap)
    (hp : rbPush b s = .ok t) : MemOk t := by
  obtain ⟨hlt, rfl⟩ := rbPush_eq_ok hp
  obtain ⟨hwf, hin, hwin⟩ := h
  obtain ⟨-, -, -, -, -, hwr⟩ := hok
  refine ⟨Memory.write_wf _ _ hwf, fun c hc => ?_, fun i hi => ?_⟩
  · rcases Memory.mem_write hc with rfl | hc
    · exact hlt
    · exact hin c hc
  · simp only [rbPushed_rbAvail, rbPushed_rbRd, rbPushed_rbMem, rbPushed_cap, rbFull, hroom.ne, beq_iff_eq, if_false,
      Memory.read_write] at hi ⊢
    rcases Nat.lt_succ_iff_lt_or_eq.1 hi with hi | rfl
    · split
      · rfl
      · exact hwin i hi
    · rw [← hwr, if_pos rfl]
      rfl

theorem rbPush_memOk {b : Byte} {s t : State} (hok : RingOk s) (h : MemOk s) (hp : rbPush b s = .ok t) : MemOk t := by
  obtain ⟨hcap, -, -, -, hle, -⟩ := id hok
  rcases Nat.lt_or_eq_of_le hle with hroom | hfull
  · exact rbPush_memOk_of_room hok h hroom hp
  · rw [rbPush_of_full b hok hfull] at hp
    refine rbPush_memOk_of_room (rbConsumed_ringOk hok (hfull ▸ hcap)) (rbConsumed_memOk h 1) ?_ hp
    rw [rbConsumed_rbAvail, rbConsumed_cap]
    omega

theorem rbPushAll_writtenRing {data : List Byte} {s u : State} (h : WrittenRing s) (hp : rbPushAll data s = .ok u) :
    WrittenRing u := by
  induction data generalizing s with
  | nil => simp only [rbPushAll, Except.ok.injEq] at hp; rwa [← hp]
  | cons b rest ih =>
    simp only [rbPushAll] at hp
    split at hp
    · simp at hp
    · rename_i v hv
      obtain ⟨hok, hmem⟩ := h
      exact ih ⟨(rbPush_ringOk hok hv).1, rbPush_memOk hok hmem hv⟩ hp

theorem kept_writtenRing : Kept WrittenRing where
  fetched hu h := by rw [hu]; exact h
  answered _ _ h := h
  pushed hu h := rbPushAll_writtenRing h hu
  consumed hn h := ⟨rbConsumed_ringOk h.1 hn, rbConsumed_memOk h.2 _⟩
  controlled {s} value h := by rcases writeCtrl_cases value s with ⟨-, hw⟩ | ⟨-, hw⟩ <;> rw [hw] <;> exact h
  demuxed b _ h := by rw [(consumeByte_dmFrame b _).2]; exact h

/-- Settles O55: every operation a step is made of keeps the window written, from a sound ring. -/
theorem stepKeepsMemoryWritten : Obligations.StepKeepsMemoryWritten :=
  fun _ _ hring hmem h => (kept_writtenRing.step ⟨hring, hmem⟩ h).2

/-! ## Events and answers -/

/-- The demultiplexer is sound and has emitted legal events. -/
abbrev LegalEvents (s : State) : Prop := DmOk s ∧ EventsOk s

theorem eventsOk_emit {s : State} {e : Event} (h : EventsOk s) (he : eventOk e = true) : EventsOk (s.emit e) := by
  intro x hx
  rcases List.mem_append.1 hx with hx | hx
  · exact h x hx
  · rw [List.mem_singleton.1 hx]
    exact he

theorem closeFrame_eventsOk (v : Byte) {s : State} (hs : s.dmState = .checksum) (h : LegalEvents s) :
    EventsOk (closeFrame v s) := by
  obtain ⟨⟨-, hframe, -, -⟩, hevents⟩ := h
  have hlen := (dmFrameOk_checksum hs).1 hframe
  refine eventsOk_emit hevents ?_
  split
  · have hlt := s.dmLen.isLt
    simp only [eventOk, decide_eq_true_eq]
    omega
  · rfl

theorem deliver_eventsOk (v : Byte) {s : State} (h : LegalEvents s) : EventsOk (deliver v s) := by
  cases hs : s.dmState with
  | checksum => rw [deliver_checksum hs]; exact closeFrame_eventsOk v hs h
  | hunt => rw [deliver, hs]; exact h.2
  | lenHi => rw [deliver, hs]; exact h.2
  | lenLo => rw [deliver, hs]; exact h.2
  | payload => rw [deliver, hs]; exact h.2

theorem consumeByte_eventsOk (b : Byte) {s : State} (h : LegalEvents s) : EventsOk (consumeByte b s) := by
  obtain ⟨hdm, hevents⟩ := id h
  rcases consumeByte_cases b s with ⟨-, -, hx⟩ | ⟨-, -, hx⟩ | ⟨-, -, -, -, hx⟩ | ⟨-, -, -, -, hx⟩ | ⟨-, -, -, hb, hx⟩ |
    ⟨-, -, -, -, hx⟩ | ⟨hs, -, -, hx⟩ | ⟨-, -, hx⟩ <;> rw [hx]
  · exact hevents
  · exact hevents
  · exact hevents
  · exact eventsOk_emit hevents rfl
  · refine eventsOk_emit hevents ?_
    rcases hb with rfl | rfl <;> rfl
  · exact deliver_eventsOk b h
  · exact deliver_eventsOk _ ⟨dmOk_withEsc hdm hs nofun, hevents⟩
  · exact deliver_eventsOk b h

theorem kept_legalEvents : Kept LegalEvents where
  fetched hu h := by rw [hu]; exact h
  answered _ _ h := h
  pushed hu h := by rw [rbPushAll_frame hu]; exact h
  consumed _ h := h
  controlled {s} value h := ⟨kept_dmOk.controlled value h.1, by rw [writeCtrl_commandFrame value s]; exact h.2⟩
  demuxed b hm h := ⟨consumeByte_dmOk b h.1 hm, consumeByte_eventsOk b h⟩

theorem responsesOk_answer {s : State} {r : Response} (h : ResponsesOk s) (p : Port) (hr : responseOk r = true) :
    ResponsesOk (s.answer p r) := by
  have more : ∀ {out : List Response}, (∀ x ∈ out, responseOk x = true) → ∀ x ∈ out ++ [r], responseOk x = true := by
    intro out hout x hx
    rcases List.mem_append.1 hx with hx | hx
    · exact hout x hx
    · rwa [List.mem_singleton.1 hx]
  cases p with
  | prod => exact ⟨more h.1, h.2⟩
  | host => exact ⟨h.1, more h.2⟩

theorem kept_responsesOk : Kept ResponsesOk where
  fetched hu h := by rw [hu]; exact h
  answered p hr h := responsesOk_answer h p hr
  pushed hu h := by rw [rbPushAll_frame hu]; exact h
  consumed _ h := h
  controlled value h := by rw [writeCtrl_commandFrame value]; exact h
  demuxed b _ h := by rw [(consumeByte_dmFrame b _).2]; exact h

/-- Settles O56: every operation a step is made of keeps both, the events from a sound demultiplexer. -/
theorem stepKeepsEventsAndAnswersLegal : Obligations.StepKeepsEventsAndAnswersLegal :=
  fun _ _ hdm hevents hresponses h =>
    ⟨(kept_legalEvents.step ⟨hdm, hevents⟩ h).2, kept_responsesOk.step hresponses h⟩

/-- Every event emitted up to `s` is kept, in its place. -/
theorem kept_events_extend (old : List Event) : Kept fun s => ∃ new, s.events = old ++ new where
  fetched hu h := by rw [hu]; exact h
  answered _ _ h := h
  pushed hu h := by rw [rbPushAll_frame hu]; exact h
  consumed _ h := h
  controlled value h := by rw [writeCtrl_commandFrame value]; exact h
  demuxed {s} b _ h := by
    obtain ⟨new, hnew⟩ := h
    rcases (consumeByte_dmFrame b s).1 with he | ⟨e, he⟩
    · exact ⟨new, he.trans hnew⟩
    · exact ⟨new ++ [e], by rw [he, hnew, List.append_assoc]⟩

/-- A host operation emits nothing. -/
theorem exec_command_events {i : Instr} {p : Port} {s t : State} (hp : i.port? = some p) (h : exec i s = .next t) :
    t.events = s.events := by
  obtain ⟨r, u, rfl, -, hu⟩ := exec_command_frame hp h
  rw [answer_events, hu]

/-- A turn of a port emits nothing. -/
theorem carryOut_fetchPort_events {p : Port} {s t : State} (h : carryOut (fetchPort p s) = .next t) :
    t.events = s.events := by
  rcases fetchPort_cases p s with hf | ⟨why, q, hf⟩ | ⟨i, q, hd, hf⟩ <;> rw [hf] at h
  · rw [← Host.Outcome.next.inj h]
  · rw [← Host.Outcome.next.inj h]
    rfl
  · exact exec_command_events (s := s.withPortIn p q) (decodePort_port hd) h

/-- Settles O52: every operation a step is made of leaves what was emitted, and a port's commands emit nothing. -/
theorem eventsAreAppendOnly : Obligations.EventsAreAppendOnly := by
  intro s t h
  refine ⟨(kept_events_extend s.events).step ⟨[], (List.append_nil _).symm⟩ h, ?_⟩
  rintro turn rest hsched (rfl | rfl) <;> rw [step_scheduled hsched] at h
  · exact carryOut_fetchPort_events (p := .prod) (s := s.withSched rest) h
  · exact carryOut_fetchPort_events (p := .host) (s := s.withSched rest) h

/-! ## Progress -/

/-- In a sound ring every instruction ends in a next state. -/
theorem exec_ends {i : Instr} {s : State} (hok : RingOk s) : ∃ t, exec i s = .next t := by
  cases hp : i.port? with
  | some p => exact exec_command_ends hok hp
  | none => rcases exec_wire_cases hp s with ⟨b, hx⟩ | ⟨b, c, hx⟩ | ⟨b, c, d, hx⟩ <;> exact ⟨_, hx⟩

/-- From a sound ring every step ends in a next state: the only fault, an access beyond the ring memory, cannot occur. -/
theorem step_ends {s : State} (hok : RingOk s) : ∃ t, step s = .next t := by
  unfold step
  split
  · exact ⟨s, rfl⟩
  · rename_i turn u hu
    have hok : RingOk u := kept_ringOk.fetched (nextTurn_fetchedFrom hu) hok
    rcases fetch_cases hok turn with hf | ⟨p, why, q, hf⟩ | ⟨p, i, q, -, hf⟩ | ⟨i, -, -, hf⟩ <;> rw [hf]
    · exact ⟨u, rfl⟩
    · exact ⟨_, rfl⟩
    · exact exec_ends (s := u.withPortIn p q) hok
    · exact exec_ends hok

theorem kept_sound : Kept fun s => WrittenRing s ∧ LegalEvents s ∧ ResponsesOk s :=
  kept_writtenRing.and (kept_legalEvents.and kept_responsesOk)

/-- Settles O57: a sound ring makes the step end, and each of the five parts of soundness is kept. -/
theorem soundStateAlwaysSteps : Obligations.SoundStateAlwaysSteps := by
  rintro s ⟨hring, hmem, hdm, hevents, hresponses⟩
  obtain ⟨t, ht⟩ := step_ends hring
  obtain ⟨⟨hring', hmem'⟩, ⟨hdm', hevents'⟩, hresponses'⟩ :=
    kept_sound.step ⟨⟨hring, hmem⟩, ⟨hdm, hevents⟩, hresponses⟩ ht
  exact ⟨t, ht, hring', hmem', hdm', hevents', hresponses'⟩

end Sys2Proof.Machine
end

section
/-! PROOFS. The family 30_encoding.md: encoding and decoding undo each other (sections 4 and 7), the byte classes (R49),
and legal command words on their ports (R56). -/

namespace Sys2Proof.Machine

/-! ## An encoded command decodes to itself -/

@[simp] theorem operandCount_commandWord (op : BitVec 4) (mode : BitVec 2) (count : BitVec 24) :
    operandCount (commandWord op mode count) = if opTakesOperand op then count.toNat else 0 := by
  simp [operandCount]

/-- A command is decoded from its word and operand bytes, whatever follows. -/
theorem decodePort_of_decodeCommand {p : Port} {w : Word} {operand : List Byte} {i : Instr}
    (hlen : operand.length = operandCount w) (hd : decodeCommand p w operand = .ok i) (rest : List PortItem) :
    decodePort p ((.word w :: operand.map .byte) ++ rest) = .command i rest := by
  rw [List.cons_append, decodePort_word hlen, hd]

/-- The same for the operations that announce the length of their operand. -/
theorem decodePort_encodeWithOperand {p : Port} {op : BitVec 4} {mode : BitVec 2} {operand : List Byte} {i : Instr}
    (hop : opTakesOperand op = true) (hfits : operandFits operand = true)
    (hd : decodeCommand p (commandWord op mode (BitVec.ofNat 24 operand.length)) operand = .ok i)
    (rest : List PortItem) : decodePort p (encodeWithOperand op mode operand ++ rest) = .command i rest := by
  refine decodePort_of_decodeCommand ?_ hd rest
  rw [operandCount_commandWord, if_pos hop, toNat_count (operandFits_iff.1 hfits)]

/-- The same for the operations without operand bytes. -/
theorem decodePort_wordOnly {p : Port} {op : BitVec 4} {mode : BitVec 2} {count : BitVec 24} {i : Instr}
    (hop : opTakesOperand op = false) (hd : decodeCommand p (commandWord op mode count) [] = .ok i)
    (rest : List PortItem) : decodePort p ([.word (commandWord op mode count)] ++ rest) = .command i rest := by
  refine decodePort_of_decodeCommand (operand := []) ?_ hd rest
  rw [operandCount_commandWord, hop]
  rfl

theorem csrCount_fields (value : BitVec 16) (csr : BitVec 8) :
    (value ++ csr : BitVec 24).extractLsb' 8 16 = value ∧ (value ++ csr : BitVec 24).extractLsb' 0 8 = csr := by
  constructor <;> apply BitVec.eq_of_getLsbD_eq <;> intro i hi
  · have h : ¬ 8 + i < 8 := by omega
    simp only [BitVec.getLsbD_extractLsb', BitVec.getLsbD_append, h, if_false]
    simp [hi]
  · simp only [BitVec.getLsbD_extractLsb', BitVec.getLsbD_append]
    simp [hi]

/-- A host operation's encoding decodes to it, whatever follows on its port. -/
theorem decodePort_encode {i : Instr} {p : Port} (hwf : i.wellFormed = true) (hp : i.port? = some p)
    (rest : List PortItem) : decodePort p (encode i ++ rest) = .command i rest := by
  cases i <;> simp only [Instr.port?, Option.some.injEq, reduceCtorEq] at hp <;> subst hp
  case rbWrite p data => exact decodePort_encodeWithOperand rfl hwf (by simp [decodeCommand, opIsReserved]) rest
  case fcChecksum p data => exact decodePort_encodeWithOperand rfl hwf (by simp [decodeCommand, opIsReserved]) rest
  case fcEscape p data => exact decodePort_encodeWithOperand rfl hwf (by simp [decodeCommand, opIsReserved]) rest
  case fcUnescape p data => exact decodePort_encodeWithOperand rfl hwf (by simp [decodeCommand, opIsReserved]) rest
  case fcEncode p mode operand =>
    exact decodePort_encodeWithOperand rfl hwf (by simp [decodeCommand, opIsReserved, opTakesMode]) rest
  case fcDecode p mode data =>
    exact decodePort_encodeWithOperand rfl hwf (by simp [decodeCommand, opIsReserved, opTakesMode]) rest
  case rbRead p count => exact decodePort_wordOnly rfl (by simp [decodeCommand, opIsReserved]) rest
  case rbSkip p count => exact decodePort_wordOnly rfl (by simp [decodeCommand, opIsReserved]) rest
  case rbAvail p => exact decodePort_wordOnly rfl (by simp [decodeCommand, opIsReserved]) rest
  case csrRead p csr =>
    exact decodePort_wordOnly rfl (by simp [decodeCommand, opIsReserved, csrCount_fields]) rest
  case csrWrite p csr value =>
    exact decodePort_wordOnly rfl (by simp [decodeCommand, opIsReserved, csrCount_fields]) rest

/-- A byte of class DATA is a row of its own; the four special bytes are the other rows. -/
theorem decodeWire_encode {i : Instr} (hwf : i.wellFormed = true) (hp : i.port? = none) :
    ∃ bytes, encode i = bytes.map .byte ∧ decodeWire bytes = some i := by
  cases i <;> simp only [Instr.port?, reduceCtorEq] at hp
  case dmStepDelim => exact ⟨[delimByte], rfl, rfl⟩
  case dmStepEsc => exact ⟨[escByte], rfl, rfl⟩
  case dmStepXon => exact ⟨[xonByte], rfl, rfl⟩
  case dmStepXoff => exact ⟨[xoffByte], rfl, rfl⟩
  case dmStepData b => exact ⟨[b], rfl, congrArg some (decodeByte_data hwf)⟩
  case escPair v => exact ⟨[escByte, v], rfl, rfl⟩
  case frameHdr hi lo => exact ⟨[delimByte, hi, lo], rfl, rfl⟩

/-- Settles O1: the word carries every field of a command, its count the length of the operand; a wire form is its
bytes. -/
theorem decodeEncodeRoundTrip : Obligations.DecodeEncodeRoundTrip :=
  fun _ hwf => ⟨fun _ rest hp => decodePort_encode hwf hp rest, decodeWire_encode hwf⟩

/-! ## A legal word is the encoding of its command -/

/-- An operand of the due length, where the operation takes one, is announced by the count. -/
theorem encodeWithOperand_of_word {w : Word} {operand : List Byte} {op : BitVec 4} {mode : BitVec 2}
    (hlen : operand.length = operandCount w) (hres : reservedField w = 0#2) (hop : opField w = op)
    (hmode : modeField w = mode) (htakes : opTakesOperand op = true) :
    operandFits operand = true ∧ encodeWithOperand op mode operand = .word w :: operand.map .byte := by
  have hcount : operand.length = (countField w).toNat := by rw [hlen, operandCount, hop, if_pos htakes]
  have hlt := (countField w).isLt
  refine ⟨operandFits_iff.2 (by unfold maxCount; omega), ?_⟩
  rw [encodeWithOperand, hcount, BitVec.ofNat_toNat, BitVec.setWidth_eq, ← hop, ← hmode, commandWord_fields hres]

/-- An operation without operand bytes is its word alone. -/
theorem wordOnly_of_word {w : Word} {operand : List Byte} {op : BitVec 4} {count : BitVec 24}
    (hlen : operand.length = operandCount w) (hres : reservedField w = 0#2) (hop : opField w = op)
    (hmode : modeField w = 0#2) (hcount : countField w = count) (htakes : opTakesOperand op = false) :
    [PortItem.word (commandWord op 0#2 count)] = .word w :: operand.map .byte := by
  have hnil : operand = [] := List.eq_nil_of_length_eq_zero (by rw [hlen, operandCount, hop, htakes]; rfl)
  rw [hnil, ← hop, ← hmode, ← hcount, commandWord_fields hres]
  rfl

/-- The command of a legal word is well formed, and the word and its operand bytes are its encoding. -/
theorem encode_of_decodeCommand {p : Port} {w : Word} {operand : List Byte} {i : Instr}
    (hlen : operand.length = operandCount w) (h : decodeCommand p w operand = .ok i) :
    i.wellFormed = true ∧ encode i = .word w :: operand.map .byte := by
  obtain ⟨hres, hmode, hop⟩ := decodeCommand_ok_cases h
  have noMode : ∀ {op : BitVec 4}, opField w = op → opTakesMode op = false → modeField w = 0#2 :=
    fun ho hm => hmode (ho ▸ hm)
  rcases hop with ⟨ho, rfl⟩ | ⟨ho, rfl⟩ | ⟨ho, rfl⟩ | ⟨ho, hc, rfl⟩ | ⟨ho, rfl⟩ | ⟨ho, rfl⟩ | ⟨ho, rfl⟩ | ⟨ho, rfl⟩ |
    ⟨ho, rfl⟩ | ⟨ho, hv, rfl⟩ | ⟨ho, rfl⟩
  · exact encodeWithOperand_of_word hlen hres ho (noMode ho rfl) rfl
  · exact ⟨rfl, wordOnly_of_word hlen hres ho (noMode ho rfl) rfl rfl⟩
  · exact ⟨rfl, wordOnly_of_word hlen hres ho (noMode ho rfl) rfl rfl⟩
  · exact ⟨rfl, wordOnly_of_word hlen hres ho (noMode ho rfl) hc rfl⟩
  · exact encodeWithOperand_of_word hlen hres ho (noMode ho rfl) rfl
  · exact encodeWithOperand_of_word hlen hres ho (noMode ho rfl) rfl
  · exact encodeWithOperand_of_word hlen hres ho (noMode ho rfl) rfl
  · exact encodeWithOperand_of_word hlen hres ho (modeNum_modeOfNum _).symm rfl
  · exact encodeWithOperand_of_word hlen hres ho (modeNum_modeOfNum _).symm rfl
  · refine ⟨rfl, wordOnly_of_word hlen hres ho (noMode ho rfl) ?_ rfl⟩
    rw [← valueField_append_csrField, hv]
  · exact ⟨rfl, wordOnly_of_word hlen hres ho (noMode ho rfl) (valueField_append_csrField w).symm rfl⟩

/-- Settles O2: a legal word is made of the fields its command carries. -/
theorem legalWordReencodes : Obligations.LegalWordReencodes := by
  intro p w operand i hlen h
  obtain ⟨hwf, henc⟩ := encode_of_decodeCommand (hlen.trans (operandBytesDue_eq w)) h
  exact ⟨hwf, decodeCommand_port h, henc⟩

/-! ## Words that are not illegal -/

/-- A word that decodes to no command is one of R56. -/
theorem illegalWord_of_decodeCommand_error {p : Port} {w : Word} {operand : List Byte} {why : Illegal}
    (h : decodeCommand p w operand = .error why) : IllegalWord w := by
  have reservedOps : ∀ op : BitVec 4, opIsReserved op = true → op ∈ [0x0#4, 0xC#4, 0xD#4, 0xE#4, 0xF#4] := by decide
  have modeOps : ∀ op : BitVec 4, ¬ opTakesMode op = true → op ∉ [0x8#4, 0x9#4] := by decide
  have branch : ∀ {P c : Prop} [Decidable c] {a b : Except Illegal Instr}, (c → a = .error why → P) →
      (b = .error why → P) → (if c then a else b) = .error why → P := by
    intro P c _ a b ha hb h
    split at h
    · exact ha ‹_› h
    · exact hb h
  have ok : ∀ {P : Prop} {i : Instr}, (Except.ok i : Except Illegal Instr) = .error why → P := nofun
  revert h
  unfold decodeCommand
  refine branch (fun hreserved _ => .inl (reservedOps _ hreserved)) ?_
  refine branch (fun hbits _ => .inr (.inl hbits)) ?_
  refine branch (fun hmode _ => .inr (.inr (.inl ⟨hmode.1, modeOps _ hmode.2⟩))) ?_
  refine branch (fun _ => ok) (branch (fun _ => ok) (branch (fun _ => ok) ?_))
  refine branch (fun h4 => branch (fun hcount _ => .inr (.inr (.inr (.inl ⟨h4, hcount⟩)))) ok) ?_
  refine branch (fun _ => ok) (branch (fun _ => ok) (branch (fun _ => ok) (branch (fun _ => ok) (branch (fun _ => ok) ?_))))
  exact branch (fun hA => branch (fun hvalue _ => .inr (.inr (.inr (.inr ⟨hA, hvalue⟩)))) ok) ok

/-- A scheduled turn of a port (`hfetch`) that finds a word R56 does not name, and the operand bytes due to it. -/
theorem step_legalWord {p : Port} {s : State} {t : Turn} {rest : List Turn} {w : Word} {operand : List Byte}
    {q : List PortItem} (hw : ¬ IllegalWord w) (hlen : operand.length = operandBytesDue w)
    (hsched : s.sched = t :: rest) (hfetch : fetch t = fetchPort p)
    (hin : portIn p (s.withSched rest) = .word w :: (operand.map .byte ++ q)) :
    ∃ i, i.port? = some p ∧ encode i = .word w :: operand.map .byte ∧
      step s = exec i ((s.withSched rest).withPortIn p q) := by
  rw [operandBytesDue_eq] at hlen
  cases hd : decodeCommand p w operand with
  | error why => exact absurd (illegalWord_of_decodeCommand_error hd) hw
  | ok i =>
    refine ⟨i, decodeCommand_port hd, (encode_of_decodeCommand hlen hd).2, ?_⟩
    rw [step_scheduled hsched, hfetch, fetchPort, hin, decodePort_word hlen, hd]
    rfl

/-- Settles O6: a word that decodes to no command is illegal, so this one decodes, and to the command it encodes. -/
theorem legalWordIsCarriedOut : Obligations.LegalWordIsCarriedOut := by
  intro s w operand rest q hw hlen
  exact ⟨fun hsched hin => step_legalWord hw hlen hsched (p := .host) rfl hin,
    fun hsched hin => step_legalWord hw hlen hsched (p := .prod) rfl hin⟩

/-! ## Fixed words and bytes -/

/-- Settles O3, by running the decoder on each word. -/
theorem sampleWordsDecode : Obligations.SampleWordsDecode := by
  refine ⟨?_, ?_, ?_, ?_, ?_, ?_, ?_, ?_, ?_, ?_, ?_, ?_, ?_⟩ <;> decide

/-- Settles O4: each of the four special bytes has its class and row, every other byte is of class DATA. -/
theorem byteClassesPartitionBytes : Obligations.ByteClassesPartitionBytes := by
  intro b
  refine ⟨?_, ?_, ?_, ?_, fun h7E h7D h11 h13 => ?_⟩
  · rintro rfl; exact ⟨rfl, rfl⟩
  · rintro rfl; exact ⟨rfl, rfl⟩
  · rintro rfl; exact ⟨rfl, rfl⟩
  · rintro rfl; exact ⟨rfl, rfl⟩
  · have hdata : isDataByte b = true := by simp [isDataByte, h7E, h7D, h11, h13]
    exact ⟨byteClass_eq_data.2 hdata, decodeByte_data hdata⟩

end Sys2Proof.Machine
end

section
/-! PROOFS. The family 40_ring_buffer.md: RB.WRITE, RB.READ, RB.SKIP and RB.AVAIL (R67 to R71), their abstract forms (R76),
and the conservation of bytes (R73). -/

namespace Sys2Proof.Machine

/-! ## Answers as words -/

/-- Fields side by side are digits. -/
theorem toNat_append_eq_add {m n : Nat} (x : BitVec m) (y : BitVec n) :
    (x ++ y).toNat = x.toNat * 2 ^ n + y.toNat := by
  rw [BitVec.toNat_append, ← Nat.shiftLeft_add_eq_or_of_lt y.isLt, Nat.shiftLeft_eq]

/-- The word of an Ok answer is its value. -/
theorem okResponse_eq (value : BitVec 24) (out : List Byte) :
    okResponse value out = ⟨BitVec.ofNat 32 value.toNat, out⟩ := by
  have hword : resultWord 0#4 value = BitVec.ofNat 32 value.toNat := by
    apply BitVec.eq_of_toNat_eq
    have hlt := value.isLt
    rw [resultWord, toNat_append_eq_add, toNat_append_eq_add, BitVec.toNat_ofNat]
    simp
    omega
  rw [okResponse, hword]

/-- A number that fits the value field is read back. -/
theorem toValue_toNat {n : Nat} (h : n ≤ 16777215) : (toValue n).toNat = n := toNat_count h

/-- A number that fits the value field is the whole word of an Ok answer. -/
theorem okResponse_toValue {n : Nat} (h : n ≤ 16777215) (out : List Byte) :
    okResponse (toValue n) out = ⟨BitVec.ofNat 32 n, out⟩ := by
  rw [okResponse_eq, toValue_toNat h]

/-- An answer on HOST. -/
theorem answer_host (s : State) (r : Response) : s.answer .host r = { s with hostOut := s.hostOut ++ [r] } := rfl

/-! ## RB.WRITE -/

theorem exec_rbWrite_of_rbPushAll {data : List Byte} {s u : State} (p : Port) (h : rbPushAll data s = .ok u) :
    exec (.rbWrite p data) s = .next (u.answer p (okResponse (toValue data.length) [])) := by
  simp only [exec, execRbWrite, h, answerOk_eq]

/-- All that RB.WRITE can do, where it ends in a next state. -/
theorem exec_rbWrite_cases {p : Port} {data : List Byte} {s t : State} (h : exec (.rbWrite p data) s = .next t) :
    ∃ u, rbPushAll data s = .ok u ∧ t = u.answer p (okResponse (toValue data.length) []) := by
  simp only [exec, execRbWrite] at h
  split at h
  · simp at h
  · exact ⟨_, ‹_›, (Host.Outcome.next.inj h).symm⟩

/-- Writing `b` and then `rest` is one byte and the loop over the others. -/
theorem rbPushAll_cons {b : Byte} {rest : List Byte} {s u : State} (h : rbPushAll (b :: rest) s = .ok u) :
    ∃ v, rbPush b s = .ok v ∧ rbPushAll rest v = .ok u := by
  simp only [rbPushAll] at h
  split at h
  · simp at h
  · exact ⟨_, ‹_›, h⟩

theorem rbPush_rbWr {b : Byte} {s t : State} (h : rbPush b s = .ok t) : t.rbWr = (s.rbWr + 1) % s.cap := by
  rw [(rbPush_eq_ok h).2]
  rfl

/-- The write index moves on by the length of the operand (R67). -/
theorem rbPushAll_rbWr {data : List Byte} {s u : State} (hok : RingOk s) (h : rbPushAll data s = .ok u) :
    u.rbWr = (s.rbWr + data.length) % s.cap := by
  induction data generalizing s with
  | nil =>
    obtain ⟨-, -, -, hwr, -, -⟩ := hok
    obtain rfl := Except.ok.inj h
    exact (Nat.mod_eq_of_lt hwr).symm
  | cons b rest ih =>
    obtain ⟨v, hv, hu⟩ := rbPushAll_cons h
    obtain ⟨hring, hcap⟩ := rbPush_ringOk hok hv
    rw [ih hring hu, rbPush_rbWr hv, hcap, add_mod_add_mod, List.length_cons, Nat.add_comm 1]

/-- The count grows by the length of the operand, up to CAP (R67). -/
theorem rbPushAll_rbAvail {data : List Byte} {s u : State} (hok : RingOk s) (h : rbPushAll data s = .ok u) :
    u.rbAvail = min s.cap (s.rbAvail + data.length) := by
  rw [← length_contents u, contents_rbPushAll hok h, length_lastBytes, List.length_append, length_contents]

/-- The read index stays where nothing was lost: both rings are sound and have the same end (R67). -/
theorem rbPushAll_rbRd_of_fits {data : List Byte} {s u : State} (hok : RingOk s) (h : rbPushAll data s = .ok u)
    (hfits : s.rbAvail + data.length ≤ s.cap) : u.rbRd = s.rbRd := by
  obtain ⟨-, -, hrd', -, -, hend'⟩ := rbPushAll_ringOk hok h
  have hwr := rbPushAll_rbWr hok h
  rw [rbPushAll_rbAvail hok h, rbPushAll_cap h, Nat.min_eq_right hfits] at hend'
  obtain ⟨-, -, hrd, -, -, hend⟩ := hok
  rw [rbPushAll_cap h] at hrd'
  have hsame : u.rbRd + (s.rbAvail + data.length) ≡ s.rbRd + (s.rbAvail + data.length) [MOD s.cap] := by
    rw [Nat.ModEq, ← hend', hwr, hend, add_mod_add_mod]
  exact (hsame.add_right_cancel' _).eq_of_lt_of_lt hrd' hrd

/-- A full ring has its two indices equal. -/
theorem rbRd_eq_rbWr_of_full {s : State} (hok : RingOk s) (hfull : s.rbAvail = s.cap) : s.rbRd = s.rbWr := by
  obtain ⟨-, -, hrd, -, -, hend⟩ := hok
  rw [hend, hfull, Nat.add_mod_right, Nat.mod_eq_of_lt hrd]

/-- Settles O10: the indices and the count of the write loop, and its frame. -/
theorem rbWriteMovesIndices : Obligations.RbWriteMovesIndices := by
  intro p data s hok hlen
  obtain ⟨u, hu, hok'⟩ := rbPushAll_ok data hok
  have hwr := rbPushAll_rbWr hok hu
  have havail := rbPushAll_rbAvail hok hu
  have hfull : s.cap ≤ s.rbAvail + data.length → u.rbRd = u.rbWr := fun hover =>
    rbRd_eq_rbWr_of_full hok' (by rw [havail, rbPushAll_cap hu, Nat.min_eq_left hover])
  have hfits : s.rbAvail + data.length ≤ s.cap → u.rbRd = s.rbRd := rbPushAll_rbRd_of_fits hok hu
  refine ⟨_, exec_rbWrite_of_rbPushAll p hu, hwr, havail, hfits, hfull, ?_⟩
  have hframe := rbPushAll_frame hu
  rw [okResponse_toValue hlen, answer_eq_withPortOut, (rbPushAll_commandFrame hu).portOut]
  cases p <;> simp only [State.withPortOut] <;> rw [hframe]

/-! ## The cells that are written -/

/-- The write loop touches no cell but the `data.length` ones from the write index on (20_memory.md R32). -/
theorem rbPushAll_read_other {data : List Byte} {s u : State} (h : rbPushAll data s = .ok u) {a : Nat}
    (ha : ∀ i < data.length, a ≠ (s.rbWr + i) % s.cap) : u.rbMem.read a = s.rbMem.read a := by
  induction data generalizing s with
  | nil =>
    obtain rfl := Except.ok.inj h
    rfl
  | cons b rest ih =>
    obtain ⟨v, hv, hu⟩ := rbPushAll_cons h
    obtain ⟨hlt, rfl⟩ := rbPush_eq_ok hv
    have hfirst : a ≠ s.rbWr := by simpa [Nat.mod_eq_of_lt hlt] using ha 0 (Nat.zero_lt_succ _)
    rw [ih hu fun i hi => ?_]
    · simp [hfirst]
    · have hnext := ha (i + 1) (Nat.succ_lt_succ hi)
      rwa [Nat.add_comm i 1, ← add_mod_add_mod] at hnext

/-- A byte with fewer than CAP bytes after it is found where it was stored. -/
theorem rbPushAll_read_stored {data : List Byte} {s u : State} (h : rbPushAll data s = .ok u) {i : Nat} {b : Byte}
    (hb : data[i]? = some b) (hlast : data.length ≤ i + s.cap) :
    u.rbMem.read ((s.rbWr + i) % s.cap) = some b := by
  induction data generalizing s i with
  | nil => simp at hb
  | cons c rest ih =>
    obtain ⟨v, hv, hu⟩ := rbPushAll_cons h
    obtain ⟨hlt, rfl⟩ := rbPush_eq_ok hv
    rw [List.length_cons] at hlast
    cases i with
    | zero =>
      obtain rfl : c = b := by simpa using hb
      have hothers : ∀ j < rest.length, s.rbWr ≠ ((s.rbWr + 1) % s.cap + j) % s.cap := by
        intro j hj heq
        rw [add_mod_add_mod] at heq
        have hmod : 0 ≡ 1 + j [MOD s.cap] := by
          apply Nat.ModEq.add_left_cancel' s.rbWr
          rw [Nat.ModEq, Nat.add_zero, Nat.mod_eq_of_lt hlt, ← heq]
        have := hmod.eq_of_lt_of_lt (by omega) (by omega)
        omega
      rw [Nat.add_zero, Nat.mod_eq_of_lt hlt, rbPushAll_read_other hu hothers]
      simp
    | succ i =>
      have hrest := ih (i := i) hu (by simpa using hb) (by simp only [rbPushed_cap]; omega)
      simp only [rbPushed_rbWr, rbPushed_cap, nextIndex, add_mod_add_mod] at hrest
      rwa [Nat.add_comm i 1]

/-- Settles O11: what the write loop stores, and the cells it leaves. -/
theorem rbWriteStoresBytes : Obligations.RbWriteStoresBytes := by
  intro p data s t _ h
  obtain ⟨u, hu, rfl⟩ := exec_rbWrite_cases h
  exact ⟨fun i b hb hlast => rbPushAll_read_stored hu hb hlast, fun a ha => rbPushAll_read_other hu ha⟩

/-! ## Two writes -/

theorem rbPush_answer (b : Byte) (p : Port) (r : Response) (s : State) :
    rbPush b (s.answer p r) = (rbPush b s).map (State.answer p r) := by
  simp only [rbPush, memWrite, answer_cap, answer_rbWr]
  by_cases h : s.rbWr < s.cap
  · simp only [h, if_true]
    rfl
  · simp only [h, if_false]
    rfl

/-- The answers a port has given play no part in a write. -/
theorem rbPushAll_answer (data : List Byte) (p : Port) (r : Response) (s : State) :
    rbPushAll data (s.answer p r) = (rbPushAll data s).map (State.answer p r) := by
  induction data generalizing s with
  | nil => rfl
  | cons b rest ih =>
    simp only [rbPushAll, rbPush_answer]
    cases rbPush b s with
    | error f => rfl
    | ok t => exact ih t

/-- Settles O13: the loop over both operands is the loop over the first and then over the second. -/
theorem splitWriteEqualsWholeWrite : Obligations.SplitWriteEqualsWholeWrite := by
  intro p xs ys s t u hok ht hu
  obtain ⟨t', ht', rfl⟩ := exec_rbWrite_cases ht
  obtain ⟨u', hu', rfl⟩ := exec_rbWrite_cases hu
  obtain ⟨v, hv, -⟩ := rbPushAll_ok ys (rbPushAll_ringOk hok ht')
  rw [rbPushAll_answer, hv] at hu'
  obtain rfl := Except.ok.inj hu'
  have hwhole : rbPushAll (xs ++ ys) s = .ok v := by rw [rbPushAll_append, ht']; exact hv
  exact ⟨_, exec_rbWrite_of_rbPushAll p hwhole, rfl, rfl, rfl, rfl⟩

/-! ## RB.READ, RB.SKIP, RB.AVAIL -/

/-- The read loop from a sound ring takes the oldest unread bytes. -/
theorem rbPopMany_contents {s : State} (hok : RingOk s) (count : Nat) :
    rbPopMany (takeable count s) s = .ok ((contents s).take (takeable count s), s.rbConsumed (takeable count s)) := by
  obtain ⟨-, -, hrd, -⟩ := hok
  rw [rbPopMany_ok _ hrd, contents_take (n := takeable count s) (Nat.min_le_right _ _)]

theorem takeable_le_maxCount {s : State} (hok : RingOk s) (count : Nat) : takeable count s ≤ 16777215 := by
  obtain ⟨-, hcap, -, -, hle, -⟩ := hok
  exact (Nat.min_le_right _ _).trans (hle.trans hcap)

theorem exec_rbRead_host {s : State} (hok : RingOk s) (count : BitVec 24) :
    exec (.rbRead .host count) s = .next ((s.rbConsumed (takeable count.toNat s)).answer .host
      ⟨BitVec.ofNat 32 (takeable count.toNat s), (contents s).take (takeable count.toNat s)⟩) := by
  simp only [exec, execRbRead, onHost_host, rbPopMany_contents hok, answerOk_eq,
    okResponse_toValue (takeable_le_maxCount hok _)]

theorem exec_rbSkip_host {s : State} (hok : RingOk s) (count : BitVec 24) :
    exec (.rbSkip .host count) s = .next ((s.rbConsumed (takeable count.toNat s)).answer .host
      ⟨BitVec.ofNat 32 (takeable count.toNat s), []⟩) := by
  simp only [exec, execRbSkip, onHost_host, answerOk_eq, okResponse_toValue (takeable_le_maxCount hok _)]

/-- Settles O14: the read loop takes and answers the oldest unread bytes. -/
theorem rbReadReturnsOldestBytes : Obligations.RbReadReturnsOldestBytes :=
  fun count s hok => ⟨exec_rbRead_host hok count, contents_rbConsumed s _⟩

/-- Settles O15: the skip takes what a read takes; taking all there is brings the read index to the write index. -/
theorem rbSkipDiscardsOldestBytes : Obligations.RbSkipDiscardsOldestBytes := by
  intro count s hok n t
  refine ⟨exec_rbSkip_host hok count, contents_rbConsumed s _, fun hall => ?_, fun u hu => ?_⟩
  · have hn : n = s.rbAvail := Nat.min_eq_right hall
    obtain ⟨-, -, -, -, -, hend⟩ := hok
    show (s.rbRd + n) % s.cap = s.rbWr
    rw [hn, hend]
  · obtain rfl := Host.Outcome.next.inj ((exec_rbRead_host hok count).symm.trans hu)
    rfl

/-- Settles O16: the count fits the value field. -/
theorem rbAvailReturnsCount : Obligations.RbAvailReturnsCount := by
  intro s hok
  obtain ⟨-, hcap, -, -, hle, -⟩ := hok
  refine ⟨?_, ?_, hle⟩
  · simp only [exec, execRbAvail, onHost_host, answerOk_eq, okResponse_toValue (hle.trans hcap), answer_host]
  · rw [BitVec.toNat_ofNat]
    omega

/-! ## The abstract transfers -/

/-- Reading at most what is there. -/
theorem contents_take_takeable (s : State) (count : Nat) : (contents s).take (takeable count s) = (contents s).take count := by
  rw [takeable, ← length_contents s, ← List.take_eq_take_min]

theorem length_slice {data : List Byte} {offset count : Nat} (h : offset + count ≤ data.length) :
    (slice data offset count).length = count := by
  rw [slice, List.length_take, List.length_drop]
  omega

/-- A write from inside the caller's array is RB.WRITE of its elements. -/
theorem rbWriteFrom_of_fits {data : List Byte} {offset count : Nat} {s : State} (hok : RingOk s)
    (hfits : offset + count ≤ data.length) : ∃ t, rbWriteFrom data offset count s = .ok (.ok count, t) ∧
      rbPushAll (slice data offset count) s = .ok t := by
  obtain ⟨t, ht, -⟩ := rbPushAll_ok (slice data offset count) hok
  exact ⟨t, by rw [rbWriteFrom, if_neg (Nat.not_lt.2 hfits), ht], ht⟩

/-- A read into the caller's array replaces as many elements as were read. -/
theorem rbReadInto_of_fits {data : List Byte} {offset count : Nat} {s : State} (hok : RingOk s)
    (hfits : offset + count ≤ data.length) : rbReadInto data offset count s =
      .ok (.ok (takeable count s, data.take offset ++ (contents s).take count ++
        data.drop (offset + takeable count s)), s.rbConsumed (takeable count s)) := by
  have hlen : ((contents s).take count).length = takeable count s := by rw [List.length_take, length_contents, takeable]
  rw [rbReadInto, if_neg (Nat.not_lt.2 hfits), rbPopMany_contents hok, contents_take_takeable]
  simp only [overwriteSlice, hlen]

/-- Settles O17: inside the array both transfers run the loops of the two commands. -/
theorem abstractTransfersMatchCommands : Obligations.AbstractTransfersMatchCommands := by
  intro data offset count s hok
  refine ⟨fun hbeyond => ⟨by rw [rbWriteFrom, if_pos hbeyond], by rw [rbReadInto, if_pos hbeyond]⟩,
    fun hfits => ⟨?_, _, rbReadInto_of_fits hok hfits, ?_⟩⟩
  · obtain ⟨t, ht, hpush⟩ := rbWriteFrom_of_fits hok hfits
    have hcount : count.toNat ≤ 16777215 := Nat.le_of_lt_succ count.isLt
    refine ⟨t, ht, ?_⟩
    rw [← slice, exec_rbWrite_of_rbPushAll .host hpush, length_slice hfits, okResponse_toValue hcount, answer_host]
  · rw [exec_rbRead_host hok, contents_take_takeable]
    rfl

/-! ## Conservation of bytes -/

/-- `run` is set and the mode is parseable: what DM.STEP needs beside a byte (42_demux.md R94). -/
def demuxRunning (s : State) : Bool := s.ctlRun && parseable s.ctlMode

theorem dmEnabled_eq (s : State) : dmEnabled s = (demuxRunning s && s.rbAvail != 0) := rfl

theorem demuxRunning_dmStep (b : Byte) (s : State) : demuxRunning (dmStep b s) = demuxRunning s := by
  rw [dmStep_frame b s]
  rfl

/-- A DM.STEP takes the oldest unread byte, where there is one and the demultiplexer runs. -/
theorem dmStep_rbAvail (b : Byte) (s : State) :
    (dmStep b s).rbAvail = s.rbAvail - if demuxRunning s then 1 else 0 := by
  rcases dmStep_cases b s with ⟨hheld, hx⟩ | ⟨hen, -, -, hf⟩
  · rw [hx]
    cases hr : demuxRunning s with
    | false => simp
    | true =>
      have : s.rbAvail = 0 := by simpa [← dmEnabled_iff, dmEnabled_eq, hr] using hheld
      omega
  · have hr : demuxRunning s = true := by
      have := (dmEnabled_iff s).2 hen
      rw [dmEnabled_eq, Bool.and_eq_true] at this
      exact this.1
    rw [hf, hr]
    rfl

/-- Only RB.WRITE, and on HOST RB.READ and RB.SKIP, change how many bytes are unread. -/
theorem exec_command_rbAvail {i : Instr} {p : Port} {s t : State} (hp : i.port? = some p) (h : exec i s = .next t)
    (hwrite : ∀ data, i ≠ .rbWrite p data) (htake : ∀ count, i ≠ .rbRead .host count ∧ i ≠ .rbSkip .host count) :
    t.rbAvail = s.rbAvail := by
  obtain ⟨r, u, rfl, rfl | ⟨data, hi, -, -⟩ | ⟨-, count, hi, -⟩ | ⟨-, csr, value, -, rfl⟩⟩ := exec_command_cases hp h
  · rfl
  · exact absurd hi (hwrite data)
  · rcases hi with hi | hi
    · exact absurd hi (htake count).1
    · exact absurd hi (htake count).2
  · rcases writeCtrl_cases value s with ⟨-, hw⟩ | ⟨-, hw⟩ <;> rw [hw] <;> rfl

theorem bytesTaken_rbWrite (s : State) (p : Port) (data : List Byte) : bytesTaken s (.rbWrite p data) = 0 := rfl

/-- R73 for one instruction: what is unread after it, what it took and what it overwrote. -/
def Conserves (i : Instr) (s t : State) : Prop :=
  t.rbAvail + bytesTaken s i + (s.rbAvail + bytesWritten i - s.cap) = s.rbAvail + bytesWritten i

/-- An instruction that writes and takes nothing and leaves the count conserves bytes. -/
theorem conserves_of_rbAvail_eq {i : Instr} {s t : State} (hok : RingOk s) (hw : bytesWritten i = 0)
    (ht : bytesTaken s i = 0) (h : t.rbAvail = s.rbAvail) : Conserves i s t := by
  obtain ⟨-, -, -, -, hle, -⟩ := hok
  unfold Conserves
  omega

/-- An instruction that takes `n` unread bytes and writes none conserves bytes. -/
theorem conserves_of_taken {i : Instr} {s t : State} (hok : RingOk s) (hw : bytesWritten i = 0)
    (h : t.rbAvail = s.rbAvail - bytesTaken s i) (hle : bytesTaken s i ≤ s.rbAvail) : Conserves i s t := by
  obtain ⟨-, -, -, -, hle', -⟩ := hok
  unfold Conserves
  omega

theorem exec_command_conserves {i : Instr} {p : Port} {s t : State} (hok : RingOk s) (hp : i.port? = some p)
    (h : exec i s = .next t) : Conserves i s t := by
  cases i <;> simp only [Instr.port?, Option.some.injEq, reduceCtorEq] at hp <;> subst hp
  case rbWrite p data =>
    obtain ⟨u, hu, rfl⟩ := exec_rbWrite_cases h
    have havail := rbPushAll_rbAvail hok hu
    simp only [Conserves, bytesTaken_rbWrite, bytesWritten, answer_rbAvail, havail]
    omega
  case rbRead p count =>
    cases p with
    | prod => exact conserves_of_rbAvail_eq hok rfl rfl (by rw [← Host.Outcome.next.inj h]; rfl)
    | host =>
      rw [exec_rbRead_host hok] at h
      exact conserves_of_taken hok rfl (by rw [← Host.Outcome.next.inj h]; rfl) (Nat.min_le_right _ _)
  case rbSkip p count =>
    cases p with
    | prod => exact conserves_of_rbAvail_eq hok rfl rfl (by rw [← Host.Outcome.next.inj h]; rfl)
    | host =>
      rw [exec_rbSkip_host hok] at h
      exact conserves_of_taken hok rfl (by rw [← Host.Outcome.next.inj h]; rfl) (Nat.min_le_right _ _)
  all_goals exact conserves_of_rbAvail_eq hok rfl rfl (exec_command_rbAvail rfl h nofun fun _ => ⟨nofun, nofun⟩)

/-- A form of `n` DM.STEPs takes `n` bytes, or all there are, where the demultiplexer runs. -/
theorem conserves_of_dmSteps {i : Instr} {s t : State} {n : Nat} (hok : RingOk s) (hw : bytesWritten i = 0)
    (ht : bytesTaken s i = if dmEnabled s then min n s.rbAvail else 0)
    (h : t.rbAvail = s.rbAvail - if demuxRunning s then n else 0) : Conserves i s t := by
  have hmin : bytesTaken s i = if demuxRunning s then min n s.rbAvail else 0 := by
    rw [ht]
    by_cases hz : s.rbAvail = 0
    · simp [hz]
    · have hen : dmEnabled s = demuxRunning s := by simp [dmEnabled_eq, hz]
      rw [hen]
  refine conserves_of_taken hok hw ?_ ?_ <;> rw [hmin] <;> cases hr : demuxRunning s <;>
    simp only [hr, if_true, Bool.false_eq_true, if_false] at h ⊢ <;> omega

/-- A single DM.STEP takes one byte, since it is enabled where there is one. -/
theorem bytesTaken_one (s : State) : (if dmEnabled s then 1 else 0) = if dmEnabled s then min 1 s.rbAvail else 0 := by
  by_cases h : dmEnabled s = true
  · obtain ⟨-, -, hpos⟩ := (dmEnabled_iff s).1 h
    rw [if_pos h, if_pos h, Nat.min_eq_left hpos]
  · rw [if_neg h, if_neg h]

theorem exec_wire_conserves {i : Instr} {s t : State} (hok : RingOk s) (hp : i.port? = none) (h : exec i s = .next t) :
    Conserves i s t := by
  have one : ∀ b, exec i s = .next (dmStep b s) → bytesWritten i = 0 →
      bytesTaken s i = (if dmEnabled s then 1 else 0) → Conserves i s t := by
    intro b hx hw ht
    obtain rfl := Host.Outcome.next.inj (hx.symm.trans h)
    exact conserves_of_dmSteps hok hw (ht.trans (bytesTaken_one s)) (dmStep_rbAvail b s)
  cases i <;> simp only [Instr.port?, reduceCtorEq] at hp
  case dmStepDelim => exact one delimByte rfl rfl rfl
  case dmStepEsc => exact one escByte rfl rfl rfl
  case dmStepXon => exact one xonByte rfl rfl rfl
  case dmStepXoff => exact one xoffByte rfl rfl rfl
  case dmStepData b => exact one b rfl rfl rfl
  case escPair v =>
    obtain rfl := Host.Outcome.next.inj h
    refine conserves_of_dmSteps (n := 2) hok rfl rfl ?_
    simp only [dmStep_rbAvail, demuxRunning_dmStep]
    split <;> omega
  case frameHdr hi lo =>
    obtain rfl := Host.Outcome.next.inj h
    refine conserves_of_dmSteps (n := 3) hok rfl rfl ?_
    simp only [dmStep_rbAvail, demuxRunning_dmStep]
    split <;> omega

theorem exec_conserves {i : Instr} {s t : State} (hok : RingOk s) (h : exec i s = .next t) : Conserves i s t := by
  cases hp : i.port? with
  | some p => exact exec_command_conserves hok hp h
  | none => exact exec_wire_conserves hok hp h

/-- Settles O18, by induction over the sequence: each instruction conserves bytes and keeps the ring sound. -/
theorem bytesAreConserved : Obligations.BytesAreConserved := by
  intro is
  induction is with
  | nil =>
    intro s t _ h
    obtain rfl := Host.Outcome.next.inj h
    rfl
  | cons i rest ih =>
    intro s t hok h
    cases hx : exec i s with
    | fault f => simp [execAll, hx] at h
    | refused r => simp [execAll, hx] at h
    | next u =>
      simp only [execAll, hx] at h
      have hone := exec_conserves hok hx
      have hrest := ih u t (kept_ringOk.exec hok hx) h
      simp only [totalTaken, totalLost, hx, List.map_cons, List.sum_cons]
      unfold Conserves at hone
      omega

end Sys2Proof.Machine
end

section
/-! PROOFS. The family 41_frame_codec.md: the checksum (R77), stuffing (R79 to R82), frames (R83 to R90), and what the
operations undo (R91). -/

namespace Sys2Proof.Machine

/-! ## Answers on HOST -/

/-- The word of an answer is its code, sixteen or more zeros, and an info byte. -/
theorem resultWord_byteValue (code : BitVec 4) (b : Byte) :
    resultWord code (byteValue b) = ((code ++ 0#20 : BitVec 24) ++ b : BitVec 32) := by
  apply BitVec.eq_of_toNat_eq
  simp only [resultWord, byteValue, toNat_append_eq_add, BitVec.toNat_ofNat]
  omega

theorem errorResponse_specialErr (b : Byte) : errorResponse (specialErr b) = ⟨(0x400000#24 ++ b : BitVec 32), []⟩ :=
  congrArg (Response.mk · []) (resultWord_byteValue 4#4 b)

theorem errorResponse_checksumErr (b : Byte) : errorResponse (checksumErr b) = ⟨(0x600000#24 ++ b : BitVec 32), []⟩ :=
  congrArg (Response.mk · []) (resultWord_byteValue 6#4 b)

theorem errorResponse_badDelimErr (b : Byte) : errorResponse (badDelimErr b) = ⟨(0x300000#24 ++ b : BitVec 32), []⟩ :=
  congrArg (Response.mk · []) (resultWord_byteValue 3#4 b)

/-- A byte sequence that fits is answered with its length. -/
theorem answerBytes_host_ok {out : List Byte} (h : out.length ≤ 16777215) (s : State) :
    answerBytes .host (.ok out) s = { s with hostOut := s.hostOut ++ [⟨BitVec.ofNat 32 out.length, out⟩] } := by
  rw [answerBytes_ok, okResponse_toValue h, answer_host]

theorem answerBytes_host_specialErr (b : Byte) (s : State) : answerBytes .host (.error (specialErr b)) s =
    { s with hostOut := s.hostOut ++ [⟨(0x400000#24 ++ b : BitVec 32), []⟩] } := by
  rw [answerBytes_error, errorResponse_specialErr, answer_host]

theorem exec_fcEscape_host (data : List Byte) (s : State) :
    exec (.fcEscape .host data) s = .next (answerBytes .host (escapeOp data) s) := rfl

theorem exec_fcUnescape_host (data : List Byte) (s : State) :
    exec (.fcUnescape .host data) s = .next (answerBytes .host (unstuff data) s) := rfl

theorem exec_fcEncode_host (mode : Mode) (operand : List Byte) (s : State) :
    exec (.fcEncode .host mode operand) s = .next (answerBytes .host (encodeOp mode operand) s) := rfl

theorem exec_fcDecode_host (mode : Mode) (data : List Byte) (s : State) :
    exec (.fcDecode .host mode data) s = .next (answerBytes .host (decodeOp mode data) s) := rfl

/-! ## The checksum -/

theorem checksumOf_toNat (data : List Byte) : (checksumOf data).toNat = 255 - (data.map BitVec.toNat).sum % 256 := by
  rw [checksumOf, BitVec.toNat_ofNat]
  omega

/-- The order of the bytes does not matter. -/
theorem checksumOf_perm {data other : List Byte} (h : data.Perm other) : checksumOf other = checksumOf data := by
  rw [checksumOf, checksumOf, (h.map BitVec.toNat).sum_eq]

/-- Settles O19: the model's checksum is the one computed on numbers. -/
theorem fcChecksumComplementsSum : Obligations.FcChecksumComplementsSum := by
  intro data s
  refine ⟨?_, fun _ => checksumOf_perm, ?_⟩
  · rw [← cks_eq_checksumOf]
    have hword : okResponse (byteValue (cks data)) [] = ⟨(0#24 ++ cks data : BitVec 32), []⟩ :=
      congrArg (Response.mk · []) (resultWord_byteValue 0#4 _)
    simp only [exec, execFcChecksum, onHost_host, answerOk_eq, hword, answer_host]
  · rw [checksumOf_toNat]
    omega

/-! ## Stuffing -/

/-- Every special byte adds one byte. -/
theorem length_stuff (data : List Byte) :
    (stuff data).length = data.length + (data.filter fun b => !isDataByte b).length := by
  induction data with
  | nil => rfl
  | cons b rest ih =>
    cases hb : isDataByte b with
    | true => simp only [stuff_cons_data hb, List.length_cons, ih, List.filter_cons, hb, Bool.not_true]; simp; omega
    | false => simp only [stuff_cons_special hb, List.length_cons, ih, List.filter_cons, hb, Bool.not_false]; simp; omega

theorem length_le_stuff (data : List Byte) : data.length ≤ (stuff data).length := by
  rw [length_stuff]
  exact Nat.le_add_right _ _

theorem length_stuff_le (data : List Byte) : (stuff data).length ≤ 2 * data.length := by
  have := List.length_filter_le (fun b => !isDataByte b) data
  rw [length_stuff]
  omega

/-- Stuffed bytes are free of 7E, 11 and 13. -/
theorem stuff_free {data : List Byte} {b : Byte} (h : b ∈ stuff data) : b ≠ 0x7E#8 ∧ b ≠ 0x11#8 ∧ b ≠ 0x13#8 := by
  have plain : ∀ c : Byte, isDataByte c = true → c ≠ 0x7E#8 ∧ c ≠ 0x11#8 ∧ c ≠ 0x13#8 := by decide
  have xored : ∀ c : Byte, isDataByte c = false →
      c ^^^ escMask ≠ 0x7E#8 ∧ c ^^^ escMask ≠ 0x11#8 ∧ c ^^^ escMask ≠ 0x13#8 := by decide
  induction data with
  | nil => simp at h
  | cons c rest ih =>
    cases hc : isDataByte c with
    | true =>
      rw [stuff_cons_data hc] at h
      rcases List.mem_cons.1 h with rfl | h
      · exact plain _ hc
      · exact ih h
    | false =>
      rw [stuff_cons_special hc] at h
      rcases List.mem_cons.1 h with rfl | h
      · decide
      · rcases List.mem_cons.1 h with rfl | h
        · exact xored _ hc
        · exact ih h

theorem escapeOp_of_fits {data : List Byte} (h : (stuff data).length ≤ 16777215) : escapeOp data = .ok (stuff data) :=
  if_neg (Nat.not_lt.2 h)

/-- Settles O20: the codec's transform is the replacement of special bytes, byte by byte. -/
theorem fcEscapeReplacesSpecialBytes : Obligations.FcEscapeReplacesSpecialBytes := by
  intro data s
  rw [← stuff_eq_replaceSpecial]
  refine ⟨fun hfits => ?_, fun hlong => ?_, fun _ => stuff_free, length_stuff data⟩
  · rw [exec_fcEscape_host, escapeOp_of_fits hfits, answerBytes_host_ok hfits]
  · rw [exec_fcEscape_host, escapeOp, if_pos hlong]
    rfl

/-! ## Unstuffing -/

/-- A piece at the front gives its content byte. -/
theorem unstuff_piece {x : Piece} (h : Piece.ok x = true) (tail : List Byte) :
    unstuff (x.wire ++ tail) = (unstuff tail).map fun out => x.content :: out := by
  cases x with
  | plain b => exact unstuffFrom_data h tail
  | pair v => exact unstuffFrom_pair v tail

theorem wireOf_cons (x : Piece) (rest : List Piece) : wireOf (x :: rest) = x.wire ++ wireOf rest := rfl

theorem map_map_result {f g : List Byte → List Byte} (r : Except CmdError (List Byte)) :
    (r.map f).map g = r.map fun out => g (f out) := by
  cases r <;> rfl

/-- Whole stuffed content at the front gives its content bytes, whatever follows. -/
theorem unstuff_wireOf {pieces : List Piece} (h : ∀ x ∈ pieces, Piece.ok x = true) (tail : List Byte) :
    unstuff (wireOf pieces ++ tail) = (unstuff tail).map fun out => contentBytes pieces ++ out := by
  induction pieces with
  | nil => cases hr : unstuff tail <;> simp [wireOf, contentBytes, hr, Except.map]
  | cons x rest ih =>
    rw [wireOf_cons, List.append_assoc, unstuff_piece (h x List.mem_cons_self),
      ih fun y hy => h y (List.mem_cons_of_mem _ hy), map_map_result]
    rfl

theorem unstuff_whole {pieces : List Piece} (h : ∀ x ∈ pieces, Piece.ok x = true) :
    unstuff (wireOf pieces) = .ok (contentBytes pieces) := by
  have hw := unstuff_wireOf h []
  rw [List.append_nil] at hw
  rw [hw]
  exact congrArg Except.ok (List.append_nil _)

theorem unstuff_trailing {pieces : List Piece} (h : ∀ x ∈ pieces, Piece.ok x = true) :
    unstuff (wireOf pieces ++ [0x7D#8]) = .error incompleteErr := by
  rw [unstuff_wireOf h]
  rfl

theorem unstuff_unescaped {pieces : List Piece} (h : ∀ x ∈ pieces, Piece.ok x = true) {b : Byte}
    (hb : b ∈ [0x7E#8, 0x11#8, 0x13#8]) (rest : List Byte) :
    unstuff (wireOf pieces ++ b :: rest) = .error (specialErr b) := by
  have special : ∀ c : Byte, c ∈ [0x7E#8, 0x11#8, 0x13#8] → isDataByte c = false ∧ c ≠ escByte := by decide
  have htail : unstuff (b :: rest) = .error (specialErr b) := unstuffFrom_special (special b hb).1 (special b hb).2 rest
  rw [unstuff_wireOf h, htail]
  rfl

/-- `data` is whole stuffed content, or that and a lone escape byte, or that and an unescaped special byte. -/
def IsStuffing (data : List Byte) : Prop :=
  ∃ pieces, (∀ x ∈ pieces, Piece.ok x = true) ∧
    (data = wireOf pieces ∨ data = wireOf pieces ++ [0x7D#8] ∨
      ∃ b rest, b ∈ [0x7E#8, 0x11#8, 0x13#8] ∧ data = wireOf pieces ++ b :: rest)

/-- A piece before a stuffing is a stuffing. -/
theorem IsStuffing.cons {x : Piece} {data : List Byte} (hx : Piece.ok x = true) (h : IsStuffing data) :
    IsStuffing (x.wire ++ data) := by
  obtain ⟨pieces, hok, hdata⟩ := h
  refine ⟨x :: pieces, List.forall_mem_cons.2 ⟨hx, hok⟩, ?_⟩
  rw [wireOf_cons]
  rcases hdata with rfl | rfl | ⟨b, rest, hb, rfl⟩
  · exact .inl rfl
  · exact .inr (.inl (List.append_assoc _ _ _).symm)
  · exact .inr (.inr ⟨b, rest, hb, (List.append_assoc _ _ _).symm⟩)

/-- A byte that is neither content nor the escape byte ends the whole content. -/
theorem isStuffing_special {b : Byte} (hdata : isDataByte b = false) (hesc : b ≠ escByte) (rest : List Byte) :
    IsStuffing (b :: rest) := by
  have special : ∀ c : Byte, isDataByte c = false → c ≠ escByte → c ∈ [0x7E#8, 0x11#8, 0x13#8] := by decide
  exact ⟨[], nofun, .inr (.inr ⟨b, rest, special b hdata hesc, rfl⟩)⟩

/-- Every operand is a stuffing, read off its first byte, or its first two behind an escape byte. -/
theorem isStuffing : ∀ data : List Byte, IsStuffing data
  | [] => ⟨[], nofun, .inl rfl⟩
  | [b] => by
    by_cases hesc : b = escByte
    · exact ⟨[], nofun, .inr (.inl (by rw [hesc]; rfl))⟩
    · cases hdata : isDataByte b with
      | true => exact (isStuffing []).cons (x := .plain b) hdata
      | false => exact isStuffing_special hdata hesc []
  | b :: v :: rest => by
    by_cases hesc : b = escByte
    · rw [hesc]
      exact (isStuffing rest).cons (x := .pair v) rfl
    · cases hdata : isDataByte b with
      | true => exact (isStuffing (v :: rest)).cons (x := .plain b) hdata
      | false => exact isStuffing_special hdata hesc (v :: rest)

/-- Settles O21: every operand is a stuffing, and the scan answers each of the three forms. -/
theorem fcUnescapeRemovesStuffing : Obligations.FcUnescapeRemovesStuffing := by
  refine ⟨isStuffing, fun pieces s h => ⟨fun hlen => ?_, ?_, fun b rest hb => ?_⟩⟩
  · have hcontent : (contentBytes pieces).length = pieces.length := List.length_map _
    rw [exec_fcUnescape_host, unstuff_whole h, answerBytes_host_ok (hcontent.trans_le hlen), hcontent]
  · rw [exec_fcUnescape_host, unstuff_trailing h]
    rfl
  · rw [exec_fcUnescape_host, unstuff_unescaped h hb, answerBytes_host_specialErr]

/-- Unstuffing undoes stuffing. -/
theorem unstuff_stuff (data : List Byte) : unstuff (stuff data) = .ok data := by
  induction data with
  | nil => rfl
  | cons b rest ih =>
    cases hb : isDataByte b with
    | true =>
      have hx : unstuff (b :: stuff rest) = (unstuff (stuff rest)).map fun out => b :: out := unstuffFrom_data hb _
      rw [stuff_cons_data hb, hx, ih]
      rfl
    | false =>
      have hx : unstuff (escByte :: (b ^^^ escMask) :: stuff rest) =
          (unstuff (stuff rest)).map fun out => (b ^^^ escMask ^^^ escMask) :: out := unstuffFrom_pair _ _
      rw [stuff_cons_special hb, hx, ih, BitVec.xor_assoc, BitVec.xor_self, BitVec.xor_zero]
      rfl

/-- Settles O22: what FC.ESCAPE answers is the stuffed operand, and the scan undoes the stuffing. -/
theorem unescapeUndoesEscape : Obligations.UnescapeUndoesEscape := by
  intro data s hfits
  rw [← stuff_eq_replaceSpecial] at hfits
  refine ⟨stuff data, _, rfl, ?_, ?_⟩
  · rw [escapeOp_of_fits hfits, answerBytes_host_ok hfits]
  · rw [exec_fcUnescape_host, unstuff_stuff, answerBytes_host_ok ((length_le_stuff data).trans hfits)]

/-! ## FC.ENCODE -/

theorem length_envelope (payload : List Byte) : (envelope payload).length = payload.length + 3 := by
  simp [envelope]

theorem encodeOp_unparseable {mode : Mode} (h : parseable mode = false) (operand : List Byte) :
    encodeOp mode operand = .error modeErr := if_pos h

theorem encodeOp_badOperand {mode : Mode} (hm : parseable mode = true) {operand : List Byte}
    (h : operand = [] ∨ 65535 < operand.length) : encodeOp mode operand = .error operandErr := by
  rcases h with rfl | h
  · simp [encodeOp, hm]
  · simp [encodeOp, hm, maxPayload, h]

theorem encodeOp_api {operand : List Byte} (hne : operand ≠ []) (hlen : operand.length ≤ 65535) :
    encodeOp .api operand = .ok (apiFrame operand) := by
  simp [encodeOp, parseable, hne, maxPayload, Nat.not_lt.2 hlen]

theorem encodeOp_apiEsc {operand : List Byte} (hne : operand ≠ []) (hlen : operand.length ≤ 65535) :
    encodeOp .apiEsc operand = .ok (escapedFrame operand) := by
  simp [encodeOp, parseable, hne, maxPayload, Nat.not_lt.2 hlen]

theorem length_apiFrame (payload : List Byte) : (apiFrame payload).length = payload.length + 4 := by
  rw [apiFrame, List.length_cons, length_envelope]

/-- Even with every byte stuffed a frame fits the value field. -/
theorem length_escapedFrame_le {payload : List Byte} (h : payload.length ≤ 65535) :
    (escapedFrame payload).length ≤ 16777215 := by
  have hstuff := length_stuff_le (envelope payload)
  rw [length_envelope] at hstuff
  rw [escapedFrame, List.length_cons]
  omega

theorem parseable_of_mem {mode : Mode} (h : mode ∈ [Mode.api, Mode.apiEsc]) : parseable mode = true := by
  revert mode
  decide

theorem not_parseable_of_mem {mode : Mode} (h : mode ∈ [Mode.transparent, Mode.unknown]) : parseable mode = false := by
  revert mode
  decide

/-- Settles O23: the four outcomes of the operation in its own order. -/
theorem fcEncodeBuildsFrame : Obligations.FcEncodeBuildsFrame := by
  intro operand s
  refine ⟨fun mode hm => ?_, fun hbad mode hm => ?_, fun hne hlen => ⟨?_, ?_⟩⟩
  · rw [exec_fcEncode_host, encodeOp_unparseable (not_parseable_of_mem hm)]
    rfl
  · rw [exec_fcEncode_host, encodeOp_badOperand (parseable_of_mem hm) hbad]
    rfl
  · have hframe : (apiFrame operand).length ≤ 16777215 := by rw [length_apiFrame]; omega
    rw [exec_fcEncode_host, encodeOp_api hne hlen, answerBytes_host_ok hframe, length_apiFrame, apiFrame,
      envelope_eq_contentRegion hlen]
  · rw [exec_fcEncode_host, encodeOp_apiEsc hne hlen, answerBytes_host_ok (length_escapedFrame_le hlen), escapedFrame,
      List.length_cons, envelope_eq_contentRegion hlen, stuff_eq_replaceSpecial]

/-! ## FC.DECODE -/

/-- Content that holds the announced payload and a checksum is judged by that checksum; a surplus is ignored (R88, R89). -/
theorem validateContent_of_whole {hi lo : Byte} {payload : List Byte}
    (hlen : payload.length = hi.toNat * 256 + lo.toNat) (c : Byte) (surplus : List Byte) :
    validateContent (hi :: lo :: (payload ++ c :: surplus)) =
      if c = cks payload then .ok payload else .error (checksumErr (cks payload)) := by
  have hframe : (frameLength hi lo).toNat = payload.length := by rw [frameLength_toNat, hlen]
  have hlong : ¬ (payload ++ c :: surplus).length < payload.length + 1 := by
    rw [List.length_append, List.length_cons]
    omega
  simp only [validateContent, hframe, if_neg hlong, List.take_left, List.drop_left]

/-- Content that is shorter is incomplete (R88). -/
theorem validateContent_of_short {hi lo : Byte} {body : List Byte} (h : body.length ≤ hi.toNat * 256 + lo.toNat) :
    validateContent (hi :: lo :: body) = .error incompleteErr := by
  have hshort : body.length < (frameLength hi lo).toNat + 1 := by rw [frameLength_toNat]; omega
  simp only [validateContent, if_pos hshort]

theorem decodeOp_api (content : List Byte) : decodeOp .api (0x7E#8 :: content) = validateContent content := by
  simp [decodeOp, parseable, contentOf]

theorem decodeOp_apiEsc (region : List Byte) : decodeOp .apiEsc (0x7E#8 :: region) =
    match unstuff region with
    | .error e => .error e
    | .ok content => validateContent content := by
  simp only [decodeOp, parseable, contentOf]
  rfl

theorem decodeOp_unparseable {mode : Mode} (h : parseable mode = false) (data : List Byte) :
    decodeOp mode data = .error modeErr := if_pos h

theorem decodeOp_empty {mode : Mode} (h : parseable mode = true) : decodeOp mode [] = .error incompleteErr := by
  simp [decodeOp, h]

theorem decodeOp_badDelimiter {mode : Mode} (h : parseable mode = true) {d : Byte} (hd : d ≠ 0x7E#8) (rest : List Byte) :
    decodeOp mode (d :: rest) = .error (badDelimErr d) := by
  simp [decodeOp, h, hd]

/-- Settles O24: the length and the checksum validator on the bytes after the delimiter. -/
theorem fcDecodeReadsApiFrame : Obligations.FcDecodeReadsApiFrame := by
  intro hi lo s
  refine ⟨fun payload c surplus hlen => ?_, fun body hshort => ?_, fun short hshort => ?_⟩
  · have hfits : payload.length ≤ 16777215 := by have := hi.isLt; have := lo.isLt; omega
    rw [exec_fcDecode_host, decodeOp_api, validateContent_of_whole hlen, cks_eq_checksumOf]
    by_cases hc : c = checksumOf payload
    · rw [if_pos hc, if_pos hc, answerBytes_host_ok hfits]
    · rw [if_neg hc, if_neg hc, answerBytes_error, errorResponse_checksumErr, answer_host]
  · rw [exec_fcDecode_host, decodeOp_api, validateContent_of_short hshort]
    rfl
  · have hincomplete : decodeOp .api short = .error incompleteErr := by
      simp only [List.mem_cons, List.not_mem_nil, or_false] at hshort
      rcases hshort with rfl | rfl | rfl <;> rfl
    rw [exec_fcDecode_host, hincomplete]
    rfl

/-- Settles O25: the scan's own error comes before the validators, which see the content bytes. -/
theorem fcDecodeUnstuffsFirst : Obligations.FcDecodeUnstuffsFirst := by
  intro pieces s h
  refine ⟨?_, ?_, fun b rest hb => ?_⟩
  · rw [exec_fcDecode_host, exec_fcDecode_host, decodeOp_apiEsc, unstuff_whole h, decodeOp_api]
  · rw [exec_fcDecode_host, decodeOp_apiEsc, unstuff_trailing h]
    rfl
  · rw [exec_fcDecode_host, decodeOp_apiEsc, unstuff_unescaped h hb, answerBytes_host_specialErr]

/-- Settles O26: the mode is tested before the bytes, the first byte before the others. -/
theorem fcDecodeChecksModeThenDelimiter : Obligations.FcDecodeChecksModeThenDelimiter := by
  intro data s
  refine ⟨fun mode hm => ?_, fun mode hm => ⟨?_, fun d hd => ?_⟩⟩
  · rw [exec_fcDecode_host, decodeOp_unparseable (not_parseable_of_mem hm)]
    rfl
  · rw [exec_fcDecode_host, decodeOp_empty (parseable_of_mem hm)]
    rfl
  · rw [exec_fcDecode_host, decodeOp_badDelimiter (parseable_of_mem hm) hd, answerBytes_error,
      errorResponse_badDelimErr, answer_host]

/-! ## What FC.DECODE undoes, and what it finds out -/

/-- A length of at most 65535 is read back from its two bytes. -/
theorem lengthBytes_toNat {n : Nat} (h : n ≤ 65535) :
    n = (BitVec.ofNat 8 (n / 256)).toNat * 256 + (BitVec.ofNat 8 (n % 256)).toNat := by
  simp only [BitVec.toNat_ofNat]
  omega

/-- The validators accept the content region of a frame and give its payload. -/
theorem validateContent_envelope {payload : List Byte} (h : payload.length ≤ 65535) :
    validateContent (envelope payload) = .ok payload := by
  rw [envelope_eq_contentRegion h, contentRegion, validateContent_of_whole (lengthBytes_toNat h), cks_eq_checksumOf,
    if_pos rfl]

/-- In each parseable mode a payload has a frame that decodes to it. -/
theorem decodeOp_encodeOp {mode : Mode} (hm : mode ∈ [Mode.api, Mode.apiEsc]) {operand : List Byte} (hne : operand ≠ [])
    (hlen : operand.length ≤ 65535) :
    ∃ frame, encodeOp mode operand = .ok frame ∧ frame.length ≤ 16777215 ∧ decodeOp mode frame = .ok operand := by
  simp only [List.mem_cons, List.not_mem_nil, or_false] at hm
  rcases hm with rfl | rfl
  · refine ⟨_, encodeOp_api hne hlen, by rw [length_apiFrame]; omega, ?_⟩
    rw [apiFrame, decodeOp_api, validateContent_envelope hlen]
  · refine ⟨_, encodeOp_apiEsc hne hlen, length_escapedFrame_le hlen, ?_⟩
    rw [escapedFrame, decodeOp_apiEsc, unstuff_stuff]
    exact validateContent_envelope hlen

/-- Settles O27: in both modes the frame that is answered decodes to the operand. -/
theorem decodeUndoesEncode : Obligations.DecodeUndoesEncode := by
  intro mode frameType body s hm hbody
  have hlen : (frameType :: body).length ≤ 65535 := Nat.succ_le_succ hbody
  obtain ⟨frame, henc, hfits, hdec⟩ := decodeOp_encodeOp hm (List.cons_ne_nil frameType body) hlen
  refine ⟨frame, _, rfl, ?_, ?_⟩
  · rw [henc, answerBytes_host_ok hfits]
  · rw [exec_fcDecode_host, hdec, answerBytes_host_ok (by omega), List.length_cons]

/-- A byte with one bit flipped is another byte. -/
theorem xor_bit_ne (b : Byte) {k : Nat} (hk : k < 8) : b ^^^ (1#8 <<< k) ≠ b := by
  have hbit : ∀ j < 8, 1#8 <<< j ≠ 0#8 := by decide
  intro h
  apply hbit k hk
  calc 1#8 <<< k = b ^^^ (b ^^^ (1#8 <<< k)) := by rw [← BitVec.xor_assoc, BitVec.xor_self, BitVec.zero_xor]
    _ = 0#8 := by rw [h, BitVec.xor_self]

/-- One payload byte exchanged for another changes the checksum. -/
theorem checksumOf_replace_ne (xs ys : List Byte) {b c : Byte} (h : c ≠ b) :
    checksumOf (xs ++ b :: ys) ≠ checksumOf (xs ++ c :: ys) := by
  rw [← cks_eq_checksumOf, ← cks_eq_checksumOf]
  simp only [cks, sumBytes_append, sumBytes_cons]
  bv_omega

/-- Settles O28: the damaged payload has another checksum than the one sent. -/
theorem flippedPayloadBitFailsChecksum : Obligations.FlippedPayloadBitFailsChecksum := by
  intro xs b ys k s hk hlen sent received
  have hsame : received.length = sent.length := by simp [received, sent]
  have hsent : sent.length ≤ 65535 := by simp only [sent, List.length_append, List.length_cons]; omega
  have hne : checksumOf sent ≠ checksumOf received := checksumOf_replace_ne xs ys (xor_bit_ne b hk)
  rw [exec_fcDecode_host, decodeOp_api, validateContent_of_whole (hsame.trans (lengthBytes_toNat hsent)),
    cks_eq_checksumOf, if_neg hne, answerBytes_error, errorResponse_checksumErr, answer_host]

end Sys2Proof.Machine
end

section
/-! PROOFS. The family 43_control.md: CSR.READ (R111, R116) and legal writes of CTRL (R112 to R114), the pseudo-operations
(30_encoding.md R62), the reset state (70_reset_and_hazards.md R138) and the event records (30_encoding.md R59). -/

namespace Sys2Proof.Machine

/-! ## CSR.READ -/

theorem exec_csrRead_host {csr : BitVec 8} {r : Csr} (h : csrOfNum csr = some r) (s : State) :
    exec (.csrRead .host csr) s =
      .next { s with hostOut := s.hostOut ++ [⟨BitVec.ofNat 32 (csrValue s r).toNat, []⟩] } := by
  simp only [exec, execCsrRead, onHost_host, h, answerOk_eq, okResponse_eq, answer_host]

theorem csrOfNum_undefined {csr : BitVec 8} (h : 7 ≤ csr.toNat) : csrOfNum csr = none := by
  unfold csrOfNum
  split
  case h_8 => rfl
  all_goals omega

/-- CTRL as a number (R111). -/
theorem ctrlValue_toNat (s : State) :
    (ctrlValue s).toNat = (if s.ctlRun then 1 else 0) + 2 * (modeNum s.ctlMode).toNat := by
  unfold ctrlValue
  cases s.ctlRun <;> cases s.ctlMode <;> rfl

/-- DM_STATUS as a number (R111). -/
theorem dmStatusValue_toNat (s : State) :
    (dmStatusValue s).toNat =
      (dmStateNum s.dmState).toNat + 8 * (if s.dmEsc then 1 else 0) + 256 * s.dmSum.toNat := by
  have hesc : (BitVec.ofBool s.dmEsc).toNat = if s.dmEsc then 1 else 0 := by cases s.dmEsc <;> rfl
  simp only [dmStatusValue, toNat_append_eq_add, hesc, BitVec.toNat_ofNat]
  omega

theorem dmLenValue_toNat (s : State) : (dmLenValue s).toNat = s.dmLen.toNat := by
  rw [dmLenValue, toNat_append_eq_add]
  simp

/-- Settles O29: each register's value as a number, the ring's being in range by I-RB. -/
theorem csrReadReturnsRegister : Obligations.CsrReadReturnsRegister := by
  intro s hok reads modeNumber stateNumber
  have hmode : modeNumber = (modeNum s.ctlMode).toNat := by
    simp only [modeNumber]
    cases s.ctlMode <;> rfl
  have hstate : stateNumber = (dmStateNum s.dmState).toNat := by
    simp only [stateNumber]
    cases s.dmState <;> rfl
  have hread : ∀ {csr r n}, csrOfNum csr = some r → (csrValue s r).toNat = n → reads csr (BitVec.ofNat 32 n) :=
    fun hcsr hn => hn ▸ exec_csrRead_host hcsr s
  obtain ⟨-, hcap, hrd, hwr, hle, -⟩ := hok
  rw [hmode, hstate]
  refine ⟨hread (r := .ctrl) rfl (ctrlValue_toNat s), hread (r := .rbCap) rfl (toValue_toNat hcap),
    hread (r := .rbRd) rfl (toValue_toNat (hrd.le.trans hcap)), hread (r := .rbWr) rfl (toValue_toNat (hwr.le.trans hcap)),
    hread (r := .rbAvail) rfl (toValue_toNat (hle.trans hcap)), hread (r := .dmStatus) rfl (dmStatusValue_toNat s),
    hread (r := .dmLen) rfl (dmLenValue_toNat s), fun csr hcsr => ?_⟩
  simp only [reads, exec, execCsrRead, onHost_host, csrOfNum_undefined hcsr]
  rfl

/-! ## Legal writes of CTRL -/

/-- `value` is legal for CTRL and stands for `run` and `mode`. -/
abbrev CtrlFields (value : BitVec 16) (run : Bool) (mode : Mode) : Prop :=
  ctrlReservedSet value = false ∧ ctrlRunBit value = run ∧ ctrlModeField value = mode

theorem exec_ctrlWrite {value : BitVec 16} (h : ctrlReservedSet value = false) (s : State) :
    exec (.csrWrite .host (csrNum .ctrl) value) s = .next ((writeCtrl value s).answer .host ⟨0#32, []⟩) := by
  have hcsr : csrOfNum (csrNum .ctrl) = some .ctrl := rfl
  simp only [exec, execCsrWrite, onHost_host, hcsr, h, answerOk_eq, okResponse_eq]
  rfl

theorem writeCtrl_same {value : BitVec 16} {run : Bool} {mode : Mode} {s : State} (h : CtrlFields value run mode)
    (hm : mode = s.ctlMode) : writeCtrl value s = { s with ctlRun := run } := by
  obtain ⟨-, rfl, rfl⟩ := h
  rcases writeCtrl_cases value s with ⟨-, hw⟩ | ⟨hne, -⟩
  · exact hw
  · exact absurd hm hne

theorem writeCtrl_other {value : BitVec 16} {run : Bool} {mode : Mode} {s : State} (h : CtrlFields value run mode)
    (hm : mode ≠ s.ctlMode) : writeCtrl value s = abandon (s.withCtrl run mode) := by
  obtain ⟨-, rfl, rfl⟩ := h
  rcases writeCtrl_cases value s with ⟨heq, -⟩ | ⟨-, hw⟩
  · exact absurd heq hm
  · exact hw

/-- Settles O31: the fields of the eight legal values. -/
theorem ctrlWriteSetsRunAndMode : Obligations.CtrlWriteSetsRunAndMode := by
  intro value run mode s hmem write
  have legal : ∀ c ∈ [(0#16, false, Mode.transparent), (1#16, true, .transparent), (2#16, false, .api), (3#16, true, .api),
      (4#16, false, .apiEsc), (5#16, true, .apiEsc), (6#16, false, .unknown), (7#16, true, .unknown)],
      CtrlFields c.1 c.2.1 c.2.2 := by decide
  have hfields : CtrlFields value run mode := legal (value, run, mode) hmem
  have hwrite : exec write s = .next ((writeCtrl value s).answer .host ⟨0#32, []⟩) := exec_ctrlWrite hfields.1 s
  refine ⟨fun hm => ?_, fun hm => ?_⟩
  · rw [hwrite, writeCtrl_same hfields hm]
    rfl
  · rw [hwrite, writeCtrl_other hfields hm]
    rfl

/-! ## The pseudo-operations -/

/-- RB.FLUSH asks for more than any legal CAP holds. -/
theorem exec_pseudoFlush {s : State} (hok : RingOk s) :
    ∃ t, exec pseudoFlush s = .next t ∧ t.rbAvail = 0 ∧ t.rbRd = s.rbWr ∧ t.rbWr = s.rbWr := by
  have hall : takeable (BitVec.ofNat 24 maxCount).toNat s = s.rbAvail := by
    obtain ⟨-, hcap, -, -, hle, -⟩ := hok
    rw [toNat_count le_rfl]
    exact Nat.min_eq_right (hle.trans hcap)
  refine ⟨_, exec_rbSkip_host hok _, ?_⟩
  obtain ⟨-, -, -, -, -, hend⟩ := hok
  rw [hall]
  exact ⟨Nat.sub_self _, hend.symm, rfl⟩

theorem exec_pseudoPop {s : State} (hok : RingOk s) {b : Byte} {rest : List Byte} (h : contents s = b :: rest) :
    ∃ t, exec pseudoPop s = .next t ∧ contents t = rest ∧ t.hostOut = s.hostOut ++ [⟨1#32, [b]⟩] := by
  obtain ⟨-, -, hrd, -⟩ := id hok
  obtain ⟨hpos, -⟩ := contents_head hrd h
  have hone : takeable (1#24).toNat s = 1 := Nat.min_eq_left hpos
  refine ⟨_, exec_rbRead_host hok 1#24, ?_, ?_⟩ <;> rw [hone]
  · exact (contents_rbConsumed s 1).trans (by rw [h]; rfl)
  · rw [h]
    rfl

theorem exec_pseudoPush {s : State} (hok : RingOk s) (p : Port) (b : Byte) (hroom : s.rbAvail < s.cap) :
    ∃ t, exec (pseudoPush p b) s = .next t ∧ contents t = contents s ++ [b] := by
  obtain ⟨t, ht, hc⟩ := exec_rbWrite_contents p [b] hok
  refine ⟨t, ht, hc.trans (lastBytes_of_length_le ?_)⟩
  rw [List.length_append, length_contents]
  exact hroom

theorem exec_pseudoStart (mode : Mode) (s : State) :
    ∃ t, exec (pseudoStart mode) s = .next t ∧ t.ctlRun = true ∧ t.ctlMode = mode := by
  have hfields : CtrlFields (0#13 ++ modeNum mode ++ 1#1) true mode := by cases mode <;> decide
  refine ⟨_, exec_ctrlWrite hfields.1 s, ?_⟩
  by_cases hm : mode = s.ctlMode
  · rw [writeCtrl_same hfields hm]
    exact ⟨rfl, hm.symm⟩
  · rw [writeCtrl_other hfields hm]
    exact ⟨rfl, rfl⟩

/-- DM.STOP writes back what it read with all but the mode cleared. -/
theorem ctrlFields_and_six {value : BitVec 16} {run : Bool} {mode : Mode}
    (h : value.toNat = (if run then 1 else 0) + 2 * (modeNum mode).toNat) : CtrlFields (value &&& 6#16) false mode := by
  have hvalue : value = BitVec.ofNat 16 ((if run then 1 else 0) + 2 * (modeNum mode).toNat) := by
    rw [← h, BitVec.ofNat_toNat, BitVec.setWidth_eq]
  rw [hvalue]
  cases run <;> cases mode <;> decide

theorem execAll_pseudoStop {value : BitVec 16} {s : State}
    (h : value.toNat = (if s.ctlRun then 1 else 0) + 2 * (modeNum s.ctlMode).toNat) :
    ∃ t, execAll (pseudoStop value) s = .next t ∧ t = { s with ctlRun := false, hostOut := t.hostOut } := by
  have hfields := ctrlFields_and_six h
  have hread : exec (.csrRead .host (csrNum .ctrl)) s =
      .next (s.answer .host ⟨BitVec.ofNat 32 (csrValue s .ctrl).toNat, []⟩) := exec_csrRead_host rfl s
  simp only [pseudoStop, execAll, hread, exec_ctrlWrite hfields.1]
  refine ⟨_, rfl, ?_⟩
  rw [writeCtrl_same (s := s.answer .host _) hfields rfl]
  rfl

/-- Settles O32: each expansion, by the command it is. -/
theorem pseudoOperationsExpand : Obligations.PseudoOperationsExpand := by
  intro s hok
  refine ⟨exec_pseudoFlush hok, fun b rest h => exec_pseudoPop hok h, exec_pseudoPush hok, fun mode => exec_pseudoStart mode s,
    fun value h => execAll_pseudoStop (h.trans ?_)⟩
  cases s.ctlMode <;> rfl

/-! ## Reset -/

theorem sound_resetWith {capacity : Nat} (legal : LegalCapacity capacity) : Sound (State.resetWith capacity legal) := by
  obtain ⟨hpos, hmax⟩ := id legal
  have hring : RingOk (State.resetWith capacity legal) :=
    ⟨hpos, hmax, hpos, hpos, Nat.zero_le _, (Nat.zero_mod _).symm⟩
  have hmem : MemOk (State.resetWith capacity legal) := ⟨Memory.reset_wf capacity legal, nofun, nofun⟩
  exact ⟨hring, hmem, ⟨rfl, rfl, nofun, fun _ => rfl⟩, nofun, nofun, nofun⟩

/-- Settles O58: the reset state has every soundness property, and the creation tests the capacity. -/
theorem resetIsSound : Obligations.ResetIsSound := by
  refine ⟨fun capacity hpos hmax => ?_, fun capacity hbad => create_illegal (by omega), sound_resetWith _,
    create_legal (by decide)⟩
  exact ⟨_, create_legal ⟨hpos, hmax⟩, rfl, sound_resetWith _, rfl, rfl, rfl, rfl⟩

/-- Settles O59: the registers of the reset state, read by CSR.READ. -/
theorem resetCsrsReadZero : Obligations.ResetCsrsReadZero := by
  intro capacity hpos hmax
  obtain ⟨hring, -⟩ := sound_resetWith ⟨hpos, hmax⟩
  obtain ⟨hctrl, hcap, hrd, hwr, havail, hstatus, hlen, -⟩ := csrReadReturnsRegister _ hring
  refine ⟨_, create_legal ⟨hpos, hmax⟩, fun n hn => ?_⟩
  interval_cases n
  · exact hctrl
  · exact hcap
  · exact hrd
  · exact hwr
  · exact havail
  · exact hstatus
  · exact hlen

/-! ## Event records -/

/-- Settles O60: a frame's length fits the low half of the header word. -/
theorem eventRecordsCarryCodeAndLength : Obligations.EventRecordsCarryCodeAndLength := by
  refine ⟨fun payload hlen => ?_, fun info => ⟨rfl, rfl⟩⟩
  have hword : (0#16 ++ BitVec.ofNat 16 payload.length : BitVec 32) = BitVec.ofNat 32 payload.length := by
    apply BitVec.eq_of_toNat_eq
    rw [toNat_append_eq_add, BitVec.toNat_ofNat, BitVec.toNat_ofNat, BitVec.toNat_ofNat]
    omega
  rw [eventRecord, hword]

end Sys2Proof.Machine
end

section
/-! PROOFS. The family 42_demux.md: a held demultiplexer (R94), one DM.STEP (R93, R98), the derived forms (30_encoding.md
R45, R50); and the steps that run them (70_reset_and_hazards.md R151). -/

namespace Sys2Proof.Machine

/-! ## One DM.STEP -/

/-- Settles O33: each form is a number of DM.STEPs, and a held DM.STEP changes nothing. -/
theorem heldDemuxChangesNothing : Obligations.HeldDemuxChangesNothing := by
  intro s h
  have hheld : ∀ b, dmStep b s = s := dmStep_held h
  have hone : ∀ b, Host.Outcome.next (dmStep b s) = (.next s : Outcome) := fun b => congrArg _ (hheld b)
  refine ⟨hone _, hone _, hone _, hone _, hone, fun v => ?_, fun hi lo => ?_⟩
  · show Host.Outcome.next (dmStep v (dmStep escByte s)) = _
    rw [hheld, hheld]
  · show Host.Outcome.next (dmStep lo (dmStep hi (dmStep delimByte s))) = _
    rw [hheld, hheld, hheld]

/-- Settles O34: each row is a DM.STEP, which takes one byte and works on it. -/
theorem dmStepConsumesOneByte : Obligations.DmStepConsumesOneByte := by
  intro s h i hi
  have hrow : ∃ b, exec i s = .next (dmStep b s) := by
    rcases hi with rfl | rfl | rfl | rfl | ⟨b, rfl⟩ <;> exact ⟨_, rfl⟩
  obtain ⟨b, hb⟩ := hrow
  rcases dmStep_cases b s with ⟨hn, -⟩ | ⟨-, -, hevents, hframe⟩
  · exact absurd h hn
  · refine ⟨_, hb, ?_, ?_, hevents, dmStep_frame b s⟩ <;> rw [hframe] <;> rfl

/-- Settles O36: in HUNT the delimiter opens a frame. -/
theorem huntDelimiterOpensFrame : Obligations.HuntDelimiterOpensFrame := by
  intro s h hs
  have hx := exec_decodeByte_enabled h delimByte
  rwa [consumeByte_hunt (s := s.withoutOldest) hs, huntByte, if_pos rfl] at hx

/-! ## The derived forms -/

/-- What a row of one byte comes to, the DM.STEP on that byte comes to. -/
theorem dmStep_of_exec {b : Byte} {s t : State} (h : exec (decodeByte b) s = .next t) : dmStep b s = t :=
  Host.Outcome.next.inj ((exec_decodeByte b s).symm.trans h)

/-- Settles O44: the escape byte is remembered, and the byte after it is delivered XORed. -/
theorem escPairDeliversXoredByte : Obligations.EscPairDeliversXoredByte := by
  intro v s h htwo hm he hs
  obtain ⟨hrun, hmode, -⟩ := id h
  have hfirst : dmStep escByte s = { s.withoutOldest with dmEsc := true } :=
    dmStep_of_exec (prefixIsRemembered s h (by simp [hs]) hm he)
  have hen : DemuxEnabled { s.withoutOldest with dmEsc := true } := ⟨hrun, hmode, Nat.sub_pos_of_lt htwo⟩
  have hsecond := dmStep_of_exec (contentByteIsPayload v (v ^^^ 0x20#8) _ hen (.inr (.inr ⟨hm, rfl, rfl⟩)) hs)
  have hsum : BitVec.ofNat 8 (s.dmSum.toNat + (v ^^^ 0x20#8).toNat) = s.dmSum + (v ^^^ 0x20#8) := by
    rw [BitVec.ofNat_add, BitVec.ofNat_toNat, BitVec.ofNat_toNat, BitVec.setWidth_eq, BitVec.setWidth_eq]
  show Host.Outcome.next (dmStep v (dmStep escByte s)) = _
  rw [hfirst, hsecond]
  simp only [State.withoutOldest, add_mod_add_mod, Nat.sub_sub, Nat.reduceAdd, hsum, ← he]
  rfl

/-- Settles O45: the delimiter opens a frame, and the two bytes after it are delivered to the length. -/
theorem frameHdrOpensFrame : Obligations.FrameHdrOpensFrame := by
  intro hi lo s h hthree hs hbytes
  obtain ⟨hrun, hmode, -⟩ := id h
  have hdelivers : ∀ {b : Byte} {t : State}, t.ctlMode = s.ctlMode → t.dmEsc = false →
      (s.ctlMode = .apiEsc → isDataByte b = true) → Delivers b b t := by
    intro b t htm hte hb
    rcases hmode with hm | hm
    · exact .inl ⟨htm.trans hm, hte, rfl⟩
    · exact .inr (.inl ⟨htm.trans hm, hte, hb hm, rfl⟩)
  have hlt : hi.toNat * 256 + lo.toNat < 65536 := by have := hi.isLt; have := lo.isLt; omega
  have hhigh : (BitVec.ofNat 16 (hi.toNat * 256)).toNat = hi.toNat * 256 := by
    rw [BitVec.toNat_ofNat]
    omega
  have hfirst : dmStep delimByte s = (s.rbConsumed 1).dmCleared .lenHi :=
    dmStep_of_exec (huntDelimiterOpensFrame s h hs)
  have hsecond : dmStep hi ((s.rbConsumed 1).dmCleared .lenHi) =
      ((s.rbConsumed 2).dmCleared .lenHi).withLength (BitVec.ofNat 16 (hi.toNat * 256)) .lenLo := by
    have hen : DemuxEnabled ((s.rbConsumed 1).dmCleared .lenHi) := ⟨hrun, hmode, by simp; omega⟩
    rw [dmStep_of_exec (contentByteIsLengthHigh hi hi _ hen (hdelivers rfl rfl fun hm => (hbytes hm).1) rfl)]
    rw [← rbConsumed_rbConsumed s 1 1]
    rfl
  have hthird : dmStep lo (((s.rbConsumed 2).dmCleared .lenHi).withLength (BitVec.ofNat 16 (hi.toNat * 256)) .lenLo) =
      ((s.rbConsumed 3).dmCleared .lenHi).withLength (BitVec.ofNat 16 (hi.toNat * 256 + lo.toNat))
        (if hi.toNat * 256 + lo.toNat = 0 then .checksum else .payload) := by
    have hen : DemuxEnabled
        (((s.rbConsumed 2).dmCleared .lenHi).withLength (BitVec.ofNat 16 (hi.toNat * 256)) .lenLo) :=
      ⟨hrun, hmode, by simp; omega⟩
    rw [dmStep_of_exec (contentByteIsLengthLow lo lo _ hen (hdelivers rfl rfl fun hm => (hbytes hm).2) rfl)]
    simp only [withLength_dmLen, hhigh, Nat.mod_eq_of_lt hlt]
    rw [← rbConsumed_rbConsumed s 2 1]
    rfl
  show Host.Outcome.next (dmStep lo (dmStep hi (dmStep delimByte s))) = _
  rw [hfirst, hsecond, hthird]
  rfl

/-! ## Steps of a scheduled turn -/

/-- Settles O47: a port's turn fetches the command its stream begins with. -/
theorem stepRunsPortCommand : Obligations.StepRunsPortCommand := by
  have hrun : ∀ {s : State} {i : Instr} {q : List PortItem} (p : Port), decodePort p (portIn p s) = .command i q →
      carryOut (fetchPort p s) = exec i (s.withPortIn p q) := by
    intro s i q p hd
    rw [fetchPort, hd]
    rfl
  intro s i q rest
  refine ⟨fun hsched hd => ?_, fun hsched hd => ?_⟩ <;> rw [step_scheduled hsched]
  · exact hrun (s := s.withSched rest) .host hd
  · exact hrun (s := s.withSched rest) .prod hd

theorem contents_withSched (s : State) (rest : List Turn) : contents (s.withSched rest) = contents s :=
  contents_congr rfl rfl rfl rfl

/-- The enabled demultiplexer fetches the wire form that the oldest unread bytes make. -/
theorem fetchWire_of_contents {s : State} (hok : RingOk s) (hen : DemuxEnabled s) {form more : List Byte} {i : Instr}
    (hc : contents s = form ++ more) (hi : decodeWire form = some i) : fetchWire form.length s = .run i s := by
  obtain ⟨-, -, hrd, -⟩ := hok
  have hlen : form.length ≤ s.rbAvail := by
    rw [← length_contents s, hc, List.length_append]
    exact Nat.le_add_right _ _
  have hpeek : peekFrom s form.length s.rbRd = .ok form := by
    rw [peekFrom_ok _ hrd, ← contents_take hlen, hc, List.take_left]
  have hgo : ¬ (dmEnabled s = false ∨ s.rbAvail < form.length) := by
    rw [(dmEnabled_iff s).2 hen]
    simpa using hlen
  rw [fetchWire, if_neg hgo, hpeek]
  simp only [hi]

/-- A scheduled turn of the demultiplexer (`hfetch`) runs the form it finds. -/
theorem step_wire {s : State} {t : Turn} {rest : List Turn} {form more : List Byte} {i : Instr} (hok : RingOk s)
    (hen : DemuxEnabled s) (hsched : s.sched = t :: rest) (hfetch : fetch t = fetchWire form.length)
    (hc : contents s = form ++ more) (hi : decodeWire form = some i) : step s = exec i (s.withSched rest) := by
  have hc' : contents (s.withSched rest) = form ++ more := (contents_withSched s rest).trans hc
  rw [step_scheduled hsched, hfetch, fetchWire_of_contents (s := s.withSched rest) hok hen hc' hi]
  rfl

/-- Settles O48: the oldest unread byte is a wire form of one byte. -/
theorem stepRunsOldestByte : Obligations.StepRunsOldestByte :=
  fun _ b _ _ hok hen hsched hc => step_wire (form := [b]) hok hen hsched rfl hc rfl

/-! ## A run of DM.STEPs -/

/-- The DM.STEPs on the bytes of a sequence, one after another. -/
def feed (bytes : List Byte) (s : State) : State := bytes.foldl (fun t b => dmStep b t) s

theorem withSched_withSched (s : State) (first second : List Turn) :
    (s.withSched first).withSched second = s.withSched second := rfl

theorem deliver_withSched (v : Byte) (s : State) (rest : List Turn) :
    deliver v (s.withSched rest) = (deliver v s).withSched rest := by
  simp only [deliver, withSched_dmState]
  cases s.dmState <;> rfl

theorem escapedModeByte_withSched (b : Byte) (s : State) (rest : List Turn) :
    escapedModeByte b (s.withSched rest) = (escapedModeByte b s).withSched rest := by
  by_cases he : s.dmEsc = true
  · rw [escapedModeByte_pending he, escapedModeByte_pending (s := s.withSched rest) he]
    exact deliver_withSched (b ^^^ escMask) (s.withEsc false) rest
  · rw [escapedModeByte, escapedModeByte, withSched_dmEsc, if_neg he, if_neg he]
    cases byteClass b with
    | data => exact deliver_withSched b s rest
    | delim => rfl
    | esc => rfl
    | xon => rfl
    | xoff => rfl

/-- The schedule plays no part in what the demultiplexer does with a byte. -/
theorem consumeByte_withSched (b : Byte) (s : State) (rest : List Turn) :
    consumeByte b (s.withSched rest) = (consumeByte b s).withSched rest := by
  by_cases hs : s.dmState = .hunt
  · rw [consumeByte_hunt hs, consumeByte_hunt (s := s.withSched rest) hs, huntByte, huntByte]
    split <;> rfl
  · rw [consumeByte_frame hs, consumeByte_frame (s := s.withSched rest) hs, withSched_ctlMode]
    split
    · exact deliver_withSched b s rest
    · exact escapedModeByte_withSched b s rest

theorem dmStep_withSched (b : Byte) (s : State) (rest : List Turn) :
    dmStep b (s.withSched rest) = (dmStep b s).withSched rest := by
  by_cases h : DemuxEnabled s
  · rw [dmStep_enabled h, dmStep_enabled (s := s.withSched rest) h]
    exact consumeByte_withSched b (s.rbConsumed 1) rest
  · rw [dmStep_held h, dmStep_held (s := s.withSched rest) h]

theorem feed_withSched (bytes : List Byte) (s : State) (rest : List Turn) :
    feed bytes (s.withSched rest) = (feed bytes s).withSched rest := by
  induction bytes generalizing s with
  | nil => rfl
  | cons b more ih =>
    show feed more (dmStep b (s.withSched rest)) = (feed more (dmStep b s)).withSched rest
    rw [dmStep_withSched, ih]

/-- An enabled DM.STEP takes the oldest of the unread bytes. -/
theorem contents_dmStep {s : State} (h : DemuxEnabled s) (b : Byte) : contents (dmStep b s) = (contents s).drop 1 := by
  rcases dmStep_cases b s with ⟨hn, -⟩ | ⟨-, -, -, hframe⟩
  · exact absurd h hn
  · rw [← contents_rbConsumed, hframe]
    exact contents_congr rfl rfl rfl rfl

/-- A running demultiplexer is enabled where a byte is unread. -/
theorem demuxEnabled_of_contents {s : State} (hrun : demuxRunning s = true) {b : Byte} {more : List Byte}
    (hc : contents s = b :: more) : DemuxEnabled s := by
  have hpos : s.rbAvail ≠ 0 := by rw [← length_contents s, hc]; simp
  rw [← dmEnabled_iff, dmEnabled_eq, hrun]
  simpa using hpos

/-- A run goes on from the state its first step leaves. -/
theorem run_succ {n : Nat} {s t : State} (h : step s = .next t) :
    Host.Core.run Sys2Proof.core (n + 1) s = Host.Core.run Sys2Proof.core n t := by
  have hcore : Sys2Proof.core.step s = .next t := h
  simp only [Host.Core.run, hcore]

/-- A turn for each of the oldest unread bytes runs the DM.STEPs on them. -/
theorem run_demux {bytes more : List Byte} {rest : List Turn} {s : State} (hok : RingOk s)
    (hrun : demuxRunning s = true) (hc : contents s = bytes ++ more)
    (hsched : s.sched = List.replicate bytes.length .demux ++ rest) :
    Host.Core.run Sys2Proof.core bytes.length s = .next ((feed bytes s).withSched rest) := by
  induction bytes generalizing s with
  | nil =>
    have hs : s.withSched rest = s := by
      rw [State.withSched, ← show s.sched = rest from hsched]
    exact congrArg Host.Outcome.next hs.symm
  | cons b bytes ih =>
    have hen : DemuxEnabled s := demuxEnabled_of_contents hrun hc
    have hstep : step s = .next ((dmStep b s).withSched (List.replicate bytes.length .demux ++ rest)) := by
      rw [stepRunsOldestByte s b _ _ hok hen hsched hc, exec_decodeByte]
      exact congrArg _ (dmStep_withSched b s _)
    have hcontents : contents (dmStep b s) = bytes ++ more := by rw [contents_dmStep hen, hc]; rfl
    have hrest := ih (s := (dmStep b s).withSched (List.replicate bytes.length .demux ++ rest)) (dmStep_ringOk hok b)
      ((demuxRunning_dmStep b s).trans hrun) ((contents_withSched _ _).trans hcontents) rfl
    rw [feed_withSched, withSched_withSched] at hrest
    rw [List.length_cons, run_succ hstep]
    exact hrest

theorem demuxRunning_of_enabled {s : State} (h : DemuxEnabled s) : demuxRunning s = true := by
  have hen := (dmEnabled_iff s).2 h
  rw [dmEnabled_eq, Bool.and_eq_true] at hen
  exact hen.1

/-- Settles O49: a derived form is the DM.STEPs on its bytes, and so is the run of as many turns. -/
theorem derivedFormsAreDmSteps : Obligations.DerivedFormsAreDmSteps := by
  intro s rest more hok hen
  have hrun := demuxRunning_of_enabled hen
  refine ⟨fun v hsched hc => ?_, fun hi lo hsched hc => ?_⟩
  · have hform : step s = exec (.escPair v) (s.withSched rest) :=
      step_wire (form := [0x7D#8, v]) hok hen hsched rfl hc rfl
    have hturns := run_demux (bytes := [0x7D#8, v]) (s := s.withSched (.demux :: .demux :: rest)) hok hrun
      ((contents_withSched _ _).trans hc) rfl
    refine ⟨hform, hform.trans (Eq.trans ?_ hturns.symm)⟩
    rw [feed_withSched, withSched_withSched, ← feed_withSched]
    rfl
  · have hform : step s = exec (.frameHdr hi lo) (s.withSched rest) :=
      step_wire (form := [0x7E#8, hi, lo]) hok hen hsched rfl hc rfl
    have hturns := run_demux (bytes := [0x7E#8, hi, lo]) (s := s.withSched (.demux :: .demux :: .demux :: rest)) hok hrun
      ((contents_withSched _ _).trans hc) rfl
    refine ⟨hform, hform.trans (Eq.trans ?_ hturns.symm)⟩
    rw [feed_withSched, withSched_withSched, ← feed_withSched]
    rfl

/-! ## Past the schedule's end -/

theorem step_of_nextTurn {s u : State} {t : Turn} (h : nextTurn s = some (t, u)) : step s = carryOut (fetch t u) := by
  rw [step, h]

theorem step_of_quiescent {s : State} (hsched : s.sched = []) (hq : enabledTurns s = []) : step s = .next s := by
  have hnone : nextTurn s = none := by simp [nextTurn, hsched, hq]
  rw [step, hnone]

theorem step_of_only_turn {s : State} {t : Turn} (hsched : s.sched = []) (ht : enabledTurns s = [t]) :
    step s = carryOut (fetch t s) :=
  step_of_nextTurn (by simp [nextTurn, hsched, ht])

/-- Settles O50: the three cases of the scheduler past the schedule's end. -/
theorem stepTakesAnEnabledTurn : Obligations.StepTakesAnEnabledTurn := by
  intro s hsched
  refine ⟨step_of_quiescent hsched, fun _ => step_of_only_turn hsched, fun htwo => ?_⟩
  rcases nextTurn_cases s with ⟨t, rest, hs, -⟩ | ⟨-, he, -⟩ | ⟨-, t, he, -⟩ | ⟨-, -, t, ht, hx⟩
  · simp [hsched] at hs
  · simp [he] at htwo
  · simp [he] at htwo
  · exact ⟨t, ht, step_of_nextTurn hx⟩

/-- With no command on either port only the demultiplexer can have a transition. -/
theorem enabledTurns_of_idle_ports {s : State} (hprod : portReady .prod s = false) (hhost : portReady .host s = false) :
    enabledTurns s = if dmEnabled s then [.demux] else [] := by
  simp [enabledTurns, hprod, hhost]

/-- What is still to come on the ports is not changed by a DM.STEP. -/
theorem portReady_dmStep (p : Port) (b : Byte) (s : State) : portReady p (dmStep b s) = portReady p s := by
  rw [dmStep_frame b s]
  cases p <;> rfl

/-- With nothing scheduled and no command on either port the enabled demultiplexer has the turn. -/
theorem step_of_idle_ports {s : State} (hok : RingOk s) (hsched : s.sched = []) (hprod : portReady .prod s = false)
    (hhost : portReady .host s = false) (hen : DemuxEnabled s) : ∃ b, step s = .next (dmStep b s) := by
  obtain ⟨b, more, hc⟩ : ∃ b more, contents s = b :: more := by
    refine List.exists_cons_of_length_pos ?_
    obtain ⟨-, -, hpos⟩ := hen
    exact hpos.trans_eq (length_contents s).symm
  have honly : enabledTurns s = [.demux] := by
    rw [enabledTurns_of_idle_ports hprod hhost, if_pos ((dmEnabled_iff s).2 hen)]
  have hfetch : fetch .demux s = .run (decodeByte b) s := fetchWire_of_contents (form := [b]) hok hen hc rfl
  refine ⟨b, ?_⟩
  rw [step_of_only_turn hsched honly, hfetch, carryOut, exec_decodeByte]

/-- Settles O51, by induction on the number of unread bytes, each step taking one. -/
theorem quiescenceIsReached : Obligations.QuiescenceIsReached := by
  intro s hok hsched hprod hhost
  induction hn : s.rbAvail generalizing s with
  | zero =>
    have hheld : dmEnabled s = false := by simp [dmEnabled_eq, hn]
    exact ⟨0, le_rfl, s, rfl, by rw [enabledTurns_of_idle_ports hprod hhost, hheld]; rfl⟩
  | succ n ih =>
    by_cases hen : DemuxEnabled s
    · obtain ⟨b, hstep⟩ := step_of_idle_ports hok hsched hprod hhost hen
      have havail : (dmStep b s).rbAvail = n := by
        rw [dmStep_rbAvail, demuxRunning_of_enabled hen, hn]
        rfl
      have hsched' : (dmStep b s).sched = [] := by rw [dmStep_frame b s]; exact hsched
      obtain ⟨m, hm, t, ht, hq⟩ := ih (dmStep b s) (dmStep_ringOk hok b) hsched'
        ((portReady_dmStep .prod b s).trans hprod) ((portReady_dmStep .host b s).trans hhost) havail
      refine ⟨m + 1, Nat.succ_le_succ hm, t, ?_, hq⟩
      rw [run_succ hstep]
      exact ht
    · have hheld : dmEnabled s = false := Bool.eq_false_iff.2 (mt (dmEnabled_iff s).1 hen)
      exact ⟨0, Nat.zero_le _, s, rfl, by rw [enabledTurns_of_idle_ports hprod hhost, hheld]; rfl⟩

end Sys2Proof.Machine
end

section
/-! PROOFS. The family 42_demux.md: the demultiplexer emits what FC.DECODE answers (R109). Inside a frame the
demultiplexer's registers describe the content bytes that FC.DECODE has found incomplete so far; the byte that ends this
ends it for both, with the same outcome. -/

namespace Sys2Proof.Machine

/-! ## The registers and the content received so far -/

/-- The demultiplexer has received the content bytes `content` of an open frame. -/
def Received (s : State) : List Byte → Prop
  | [] => s.dmState = .lenHi ∧ s.dmLen = 0#16 ∧ s.dmFb = [] ∧ s.dmSum = 0#8
  | [hi] => s.dmState = .lenLo ∧ s.dmLen = hi.setWidth 16 * 256#16 ∧ s.dmFb = [] ∧ s.dmSum = 0#8
  | hi :: lo :: body => s.dmLen = frameLength hi lo ∧ s.dmFb = body ∧ s.dmSum = sumBytes body ∧
      ((s.dmState = .payload ∧ body.length < s.dmLen.toNat) ∨ (s.dmState = .checksum ∧ body.length = s.dmLen.toNat))

theorem Received.ne_hunt {s : State} {content : List Byte} (h : Received s content) : s.dmState ≠ .hunt := by
  match content, h with
  | [], ⟨hs, _⟩ => simp [hs]
  | [_], ⟨hs, _⟩ => simp [hs]
  | _ :: _ :: _, ⟨_, _, _, .inl ⟨hs, _⟩⟩ => simp [hs]
  | _ :: _ :: _, ⟨_, _, _, .inr ⟨hs, _⟩⟩ => simp [hs]

/-- The frame that was open when the events were `old` has ended with what `r` says, and nothing else was emitted. -/
def Ended (old : List Event) (r : Except CmdError (List Byte)) (s : State) : Prop :=
  (∃ payload, r = .ok payload ∧ s.events = old ++ [.frame payload] ∧ s.dmState = .hunt) ∨
    (∃ c, r = .error (checksumErr c) ∧ s.events = old ++ [.err .invalidChecksum c] ∧ s.dmState = .hunt) ∨
    ∃ b, r = .error (specialErr b) ∧ s.events = old ++ [.err .specialByteNotEscaped b] ∧
      s.dmState = if b = 0x7E#8 then .lenHi else .hunt

/-- The frame is still incomplete: nothing was emitted, and the registers describe the content received. -/
def StillOpen (r : Except CmdError (List Byte)) (content : List Byte) (s t : State) : Prop :=
  r = .error incompleteErr ∧ Received t content ∧ t.events = s.events ∧ t.dmEsc = s.dmEsc

/-- The content byte that fills the checksum field is judged as FC.DECODE judges it. -/
theorem closeFrame_ended {s : State} {hi lo : Byte} {body : List Byte} (hlen : s.dmLen = frameLength hi lo)
    (hfb : s.dmFb = body) (hsum : s.dmSum = sumBytes body) (hfull : body.length = s.dmLen.toNat) (v : Byte) :
    Ended s.events (validateContent (hi :: lo :: (body ++ [v]))) (closeFrame v s) := by
  have hlength : body.length = hi.toNat * 256 + lo.toNat := by rw [hfull, hlen, frameLength_toNat]
  rw [validateContent_of_whole hlength, closeFrame, expectedChecksum_eq (hsum.trans (by rw [hfb])), hfb]
  by_cases hv : v = cks body
  · rw [if_pos hv, if_pos hv]
    exact .inl ⟨body, rfl, rfl, rfl⟩
  · rw [if_neg hv, if_neg hv]
    exact .inr (.inl ⟨cks body, rfl, rfl, rfl⟩)

/-- A content byte of the payload leaves the frame open. -/
theorem takePayload_stillOpen {s : State} {hi lo : Byte} {body : List Byte} (hlen : s.dmLen = frameLength hi lo)
    (hfb : s.dmFb = body) (hsum : s.dmSum = sumBytes body) (hs : s.dmState = .payload)
    (hroom : body.length < s.dmLen.toNat) (v : Byte) :
    StillOpen (validateContent (hi :: lo :: (body ++ [v]))) (hi :: lo :: (body ++ [v])) s (takePayload v s) := by
  have hlength : (body ++ [v]).length = body.length + 1 := by simp
  have hshort : (body ++ [v]).length ≤ hi.toNat * 256 + lo.toNat := by
    rw [← frameLength_toNat, ← hlen, hlength]
    exact hroom
  refine ⟨validateContent_of_short hshort, ⟨hlen, by rw [← hfb]; rfl, by simp [takePayload, hsum], ?_⟩, rfl, rfl⟩
  by_cases hlast : s.dmFb.length + 1 = s.dmLen.toNat
  · exact .inr ⟨if_pos hlast, by rw [hlength, ← hfb]; exact hlast⟩
  · refine .inl ⟨(if_neg hlast).trans hs, ?_⟩
    rw [hlength]
    rw [hfb] at hlast
    exact Nat.lt_of_le_of_ne hroom hlast

/-- The second length byte completes the length. -/
theorem takeLenLo_stillOpen {s : State} {hi : Byte} (hlen : s.dmLen = hi.setWidth 16 * 256#16) (hfb : s.dmFb = [])
    (hsum : s.dmSum = 0#8) (lo : Byte) : StillOpen (validateContent [hi, lo]) [hi, lo] s (takeLenLo lo s) := by
  have hlength : s.dmLen + lo.setWidth 16 = frameLength hi lo := by rw [hlen]; rfl
  refine ⟨validateContent_of_short (Nat.zero_le _), ⟨hlength, hfb, hsum, ?_⟩, rfl, rfl⟩
  by_cases hzero : s.dmLen + lo.setWidth 16 = 0#16
  · exact .inr ⟨if_pos hzero, by simp [takeLenLo, hzero]⟩
  · refine .inl ⟨if_neg hzero, Nat.pos_of_ne_zero fun hn => hzero (BitVec.eq_of_toNat_eq hn)⟩

/-- A content byte leaves the frame open, or ends it as FC.DECODE says. -/
theorem deliver_received {s : State} {content : List Byte} (h : Received s content) (v : Byte) :
    StillOpen (validateContent (content ++ [v])) (content ++ [v]) s (deliver v s) ∨
      Ended s.events (validateContent (content ++ [v])) (deliver v s) := by
  match content, h with
  | [], ⟨hs, _, hfb, hsum⟩ =>
    rw [deliver_lenHi hs]
    exact .inl ⟨rfl, ⟨rfl, rfl, hfb, hsum⟩, rfl, rfl⟩
  | [hi], ⟨hs, hlen, hfb, hsum⟩ =>
    rw [deliver_lenLo hs]
    exact .inl (takeLenLo_stillOpen hlen hfb hsum v)
  | hi :: lo :: body, ⟨hlen, hfb, hsum, .inl ⟨hs, hroom⟩⟩ =>
    rw [deliver_payload hs]
    exact .inl (takePayload_stillOpen hlen hfb hsum hs hroom v)
  | hi :: lo :: body, ⟨hlen, hfb, hsum, .inr ⟨hs, hfull⟩⟩ =>
    rw [deliver_checksum hs]
    exact .inr (closeFrame_ended hlen hfb hsum hfull v)

/-! ## Wire bytes -/

/-- The wire bytes `region` carry the content bytes `content`, with an escape byte left over where `pending` says so. -/
def Carries (mode : Mode) (region : List Byte) (pending : Bool) (content : List Byte) : Prop :=
  (mode = .api ∧ pending = false ∧ region = content) ∨
    (mode = .apiEsc ∧ ∃ pieces, (∀ x ∈ pieces, Piece.ok x = true) ∧ content = contentBytes pieces ∧
      region = wireOf pieces ++ if pending then [0x7D#8] else [])

/-- The demultiplexer is inside the frame whose bytes after the delimiter are `region`, opened when the events were
`old`. -/
def Tracks (old : List Event) (mode : Mode) (region : List Byte) (s : State) : Prop :=
  s.ctlMode = mode ∧ s.events = old ∧ ∃ content, Received s content ∧ Carries mode region s.dmEsc content

/-- After the bytes `region`: the frame is open and FC.DECODE finds it incomplete, or it has ended as FC.DECODE says. -/
def Agrees (old : List Event) (mode : Mode) (region : List Byte) (s : State) : Prop :=
  (decodeOp mode (0x7E#8 :: region) = .error incompleteErr ∧ Tracks old mode region s) ∨
    Ended old (decodeOp mode (0x7E#8 :: region)) s

/-- A content byte that completes the wire bytes `region` (`hcarries`, `hdecode`) keeps both in agreement. -/
theorem agrees_deliver {old : List Event} {mode : Mode} {region content : List Byte} {s : State} {v : Byte}
    (hmode : s.ctlMode = mode) (hold : s.events = old) (hreceived : Received s content)
    (hcarries : Carries mode region s.dmEsc (content ++ [v]))
    (hdecode : decodeOp mode (0x7E#8 :: region) = validateContent (content ++ [v])) :
    Agrees old mode region (deliver v s) := by
  have hmode' : (deliver v s).ctlMode = mode := by rw [(deliver_frame v s).2]; exact hmode
  rcases deliver_received hreceived v with ⟨hr, hreceived', hevents, hesc⟩ | hended
  · exact .inl ⟨hdecode.trans hr, hmode', hevents.trans hold, _, hreceived', hesc ▸ hcarries⟩
  · rw [hold, ← hdecode] at hended
    exact .inr hended

theorem wireOf_snoc (pieces : List Piece) (x : Piece) : wireOf (pieces ++ [x]) = wireOf pieces ++ x.wire := by
  simp [wireOf]

theorem contentBytes_snoc (pieces : List Piece) (x : Piece) :
    contentBytes (pieces ++ [x]) = contentBytes pieces ++ [x.content] := by
  simp [contentBytes]

theorem decodeOp_apiEsc_whole {pieces : List Piece} (h : ∀ x ∈ pieces, Piece.ok x = true) :
    decodeOp .apiEsc (0x7E#8 :: wireOf pieces) = validateContent (contentBytes pieces) := by
  rw [decodeOp_apiEsc, unstuff_whole h]

/-- In API_ESC mode a wire byte that completes the piece `x` delivers its content byte. -/
theorem agrees_piece {old : List Event} {pieces : List Piece} {x : Piece} {region : List Byte} {s : State}
    (hmode : s.ctlMode = .apiEsc) (hold : s.events = old) (hesc : s.dmEsc = false)
    (hreceived : Received s (contentBytes pieces)) (hok : ∀ y ∈ pieces, Piece.ok y = true) (hx : Piece.ok x = true)
    (hregion : region = wireOf pieces ++ x.wire) : Agrees old .apiEsc region (deliver x.content s) := by
  have hok' : ∀ y ∈ pieces ++ [x], Piece.ok y = true := by
    intro y hy
    rcases List.mem_append.1 hy with hy | hy
    · exact hok y hy
    · rwa [List.mem_singleton.1 hy]
  rw [← wireOf_snoc] at hregion
  refine agrees_deliver hmode hold hreceived ?_ ?_ <;> rw [← contentBytes_snoc]
  · exact .inr ⟨rfl, _, hok', rfl, by rw [hesc, hregion]; exact (List.append_nil _).symm⟩
  · rw [hregion, decodeOp_apiEsc_whole hok']

/-- In API_ESC mode, with an escape pending, the byte completes a pair. -/
theorem agrees_pending {old : List Event} {pieces : List Piece} {s : State} (hmode : s.ctlMode = .apiEsc)
    (hold : s.events = old) (hreceived : Received s (contentBytes pieces)) (hok : ∀ y ∈ pieces, Piece.ok y = true)
    (b : Byte) : Agrees old .apiEsc (wireOf pieces ++ [0x7D#8] ++ [b]) (deliver (b ^^^ escMask) (s.withEsc false)) := by
  have hreceived' : Received (s.withEsc false) (contentBytes pieces) := hreceived
  exact agrees_piece (s := s.withEsc false) (x := .pair b) hmode hold rfl hreceived' hok rfl (List.append_assoc _ _ _)

/-- In API_ESC mode, with no escape pending, the class of the byte says what becomes of it. -/
theorem agrees_plain {old : List Event} {pieces : List Piece} {s : State} (hmode : s.ctlMode = .apiEsc)
    (hold : s.events = old) (hesc : s.dmEsc = false) (hreceived : Received s (contentBytes pieces))
    (hok : ∀ y ∈ pieces, Piece.ok y = true) (b : Byte) :
    Agrees old .apiEsc (wireOf pieces ++ [b]) (escapedModeByte b s) := by
  have special : b ∈ [0x7E#8, 0x11#8, 0x13#8] →
      decodeOp .apiEsc (0x7E#8 :: (wireOf pieces ++ [b])) = .error (specialErr b) := by
    intro hb
    rw [decodeOp_apiEsc, unstuff_unescaped hok hb]
  cases hb : byteClass b with
  | data =>
    have hdata := byteClass_eq_data.1 hb
    rw [escapedModeByte_data hesc hdata]
    exact agrees_piece (x := .plain b) hmode hold hesc hreceived hok hdata rfl
  | esc =>
    obtain rfl := byteClass_eq_esc.1 hb
    rw [escapedModeByte_esc hesc]
    refine .inl ⟨by rw [decodeOp_apiEsc, unstuff_trailing hok], hmode, hold, _, ?_, .inr ⟨rfl, pieces, hok, rfl, rfl⟩⟩
    exact hreceived
  | delim =>
    obtain rfl := byteClass_eq_delim.1 hb
    rw [escapedModeByte_delim hesc]
    exact .inr (.inr (.inr ⟨_, special (by decide), congrArg (· ++ _) hold, rfl⟩))
  | xon =>
    obtain rfl := byteClass_eq_xon.1 hb
    rw [escapedModeByte_flow hesc (.inl rfl)]
    exact .inr (.inr (.inr ⟨_, special (by decide), congrArg (· ++ _) hold, rfl⟩))
  | xoff =>
    obtain rfl := byteClass_eq_xoff.1 hb
    rw [escapedModeByte_flow hesc (.inr rfl)]
    exact .inr (.inr (.inr ⟨_, special (by decide), congrArg (· ++ _) hold, rfl⟩))

/-- One more wire byte of an open frame. -/
theorem consumeByte_agrees {old : List Event} {mode : Mode} {region : List Byte} {s : State}
    (h : Tracks old mode region s) (b : Byte) : Agrees old mode (region ++ [b]) (consumeByte b s) := by
  obtain ⟨hmode, hold, content, hreceived, ⟨rfl, hesc, rfl⟩ | ⟨rfl, pieces, hok, rfl, hregion⟩⟩ := h
  · rw [consumeByte_frame hreceived.ne_hunt, if_pos hmode]
    exact agrees_deliver hmode hold hreceived (.inl ⟨rfl, hesc, rfl⟩) (decodeOp_api _)
  · rw [consumeByte_apiEsc hreceived.ne_hunt hmode]
    cases hesc : s.dmEsc with
    | true =>
      rw [hesc, if_pos rfl] at hregion
      rw [escapedModeByte_pending hesc, hregion]
      exact agrees_pending hmode hold hreceived hok b
    | false =>
      have hwire : region = wireOf pieces := by rw [hregion, hesc]; exact List.append_nil _
      rw [hwire]
      exact agrees_plain hmode hold hesc hreceived hok b

/-! ## A whole sequence -/

theorem feed_snoc (bytes : List Byte) (b : Byte) (s : State) : feed (bytes ++ [b]) s = dmStep b (feed bytes s) := by
  simp [feed]

theorem feed_running (bytes : List Byte) (s : State) : demuxRunning (feed bytes s) = demuxRunning s := by
  induction bytes generalizing s with
  | nil => rfl
  | cons b rest ih => exact (ih (dmStep b s)).trans (demuxRunning_dmStep b s)

theorem feed_rbAvail {s : State} (hrun : demuxRunning s = true) (bytes : List Byte) :
    (feed bytes s).rbAvail = s.rbAvail - bytes.length := by
  induction bytes generalizing s with
  | nil => rfl
  | cons b rest ih =>
    have hone : (dmStep b s).rbAvail = s.rbAvail - 1 := by rw [dmStep_rbAvail, hrun]; rfl
    calc (feed rest (dmStep b s)).rbAvail = (dmStep b s).rbAvail - rest.length :=
          ih ((demuxRunning_dmStep b s).trans hrun)
      _ = s.rbAvail - (b :: rest).length := by rw [hone, List.length_cons]; omega

theorem demuxEnabled_of_running {s : State} (hrun : demuxRunning s = true) (hpos : 0 < s.rbAvail) : DemuxEnabled s := by
  rw [← dmEnabled_iff, dmEnabled_eq, hrun]
  simpa using Nat.ne_of_gt hpos

/-- The DM.STEP on the byte after a sequence is enabled where the ring held that many bytes. -/
theorem dmStep_feed {s : State} (hrun : demuxRunning s = true) {bytes : List Byte} (hroom : bytes.length < s.rbAvail)
    (b : Byte) : dmStep b (feed bytes s) = consumeByte b ((feed bytes s).rbConsumed 1) := by
  have hpos : 0 < (feed bytes s).rbAvail := by
    rw [feed_rbAvail hrun]
    omega
  exact dmStep_enabled (demuxEnabled_of_running ((feed_running bytes s).trans hrun) hpos) b

/-- The opening delimiter. -/
theorem feed_delimiter_agrees {s : State} (hmode : s.ctlMode = .api ∨ s.ctlMode = .apiEsc)
    (hrun : demuxRunning s = true) (hhunt : s.dmState = .hunt) (hroom : 0 < s.rbAvail) :
    Agrees s.events s.ctlMode [] (feed [0x7E#8] s) := by
  have hopen : feed [0x7E#8] s = openFrame (s.rbConsumed 1) := by
    show dmStep delimByte s = _
    rw [dmStep_enabled (demuxEnabled_of_running hrun hroom), consumeByte_hunt (s := s.rbConsumed 1) hhunt, huntByte,
      if_pos rfl]
  have hreceived : Received (openFrame (s.rbConsumed 1)) [] := ⟨rfl, rfl, rfl, rfl⟩
  rw [hopen]
  refine .inl ⟨?_, rfl, rfl, [], hreceived, ?_⟩
  · rcases hmode with hm | hm <;> rw [hm] <;> rfl
  · rcases hmode with hm | hm
    · exact .inl ⟨hm, rfl, rfl⟩
    · exact .inr ⟨hm, [], nofun, rfl, rfl⟩

/-- A sequence no shorter part of which is a whole frame or an error: the demultiplexer and FC.DECODE agree on it. -/
theorem feed_agrees {s : State} (hmode : s.ctlMode = .api ∨ s.ctlMode = .apiEsc) (hrun : demuxRunning s = true)
    (hhunt : s.dmState = .hunt) (region : List Byte) (hroom : region.length < s.rbAvail)
    (hshorter : ∀ k ≤ region.length, decodeOp s.ctlMode ((0x7E#8 :: region).take k) = .error incompleteErr) :
    Agrees s.events s.ctlMode region (feed (0x7E#8 :: region) s) := by
  induction region using List.reverseRecOn with
  | nil => exact feed_delimiter_agrees hmode hrun hhunt hroom
  | append_singleton region b ih =>
    rw [List.length_append, List.length_singleton] at hroom hshorter
    have hparts : ∀ k ≤ region.length + 1, (0x7E#8 :: (region ++ [b])).take k = (0x7E#8 :: region).take k := by
      intro k hk
      rw [← List.cons_append, List.take_append_of_le_length (by simpa using hk)]
    have hincomplete : decodeOp s.ctlMode (0x7E#8 :: region) = .error incompleteErr := by
      have hlast := hshorter (region.length + 1) le_rfl
      rwa [hparts _ le_rfl, List.take_of_length_le (by simp)] at hlast
    have hbefore := ih (by omega) fun k hk => by
      rw [← hparts k (by omega)]
      exact hshorter k (by omega)
    have htracks : Tracks s.events s.ctlMode region (feed (0x7E#8 :: region) s) := by
      rcases hbefore with ⟨-, htracks⟩ | ⟨_, hr, -⟩ | ⟨_, hr, -⟩ | ⟨_, hr, -⟩
      · exact htracks
      all_goals exact absurd (hincomplete.symm.trans hr) (by simp [incompleteErr, checksumErr, specialErr])
    rw [← List.cons_append, feed_snoc, dmStep_feed hrun (by simpa using hroom)]
    exact consumeByte_agrees (s := (feed (0x7E#8 :: region) s).rbConsumed 1) htracks b

/-- Settles O46: as many turns as `F` has bytes run the DM.STEPs on them, and these agree with FC.DECODE. -/
theorem demuxAgreesWithFcDecode : Obligations.DemuxAgreesWithFcDecode := by
  intro s F more rest hok hctl hmode hhunt hc hhead hsched hshorter
  have hrun : demuxRunning s = true := by
    rcases hmode with hm | hm <;> simp [demuxRunning, hctl, hm, parseable]
  obtain ⟨region, rfl⟩ : ∃ region, F = 0x7E#8 :: region := by
    cases F with
    | nil => simp at hhead
    | cons d region => exact ⟨region, by rw [Option.some.inj hhead]⟩
  have hroom : region.length < s.rbAvail := by
    rw [← length_contents s, hc, List.length_append, List.length_cons]
    omega
  have hagrees := feed_agrees hmode hrun hhunt region hroom fun k hk => hshorter k (Nat.lt_succ_of_le hk)
  refine ⟨_, run_demux hok hrun hc hsched, ?_⟩
  simp only [withSched_events, withSched_dmState]
  rcases hagrees with ⟨hr, -, hold, content, hreceived, -⟩ | ⟨P, hr, hend⟩ | ⟨c, hr, hend⟩ | ⟨b, hr, hend⟩ <;> rw [hr]
  · exact ⟨nofun, fun e he => absurd he (by simp [incompleteErr, checksumErr]),
      fun e he => absurd he (by simp [incompleteErr, specialErr]), fun _ => ⟨hold, hreceived.ne_hunt⟩⟩
  · exact ⟨fun P' hP => Except.ok.inj hP ▸ hend, nofun, nofun, nofun⟩
  · refine ⟨nofun, fun e he => ?_, fun e he => absurd he (by simp [checksumErr, specialErr]),
      fun he => absurd he (by simp [incompleteErr, checksumErr])⟩
    obtain rfl : c = e := by simpa [checksumErr] using he
    exact hend
  · refine ⟨nofun, fun e he => absurd he (by simp [checksumErr, specialErr]), fun e he => ?_,
      fun he => absurd he (by simp [incompleteErr, specialErr])⟩
    obtain rfl : b = e := by simpa [specialErr] using he
    exact hend

end Sys2Proof.Machine
end
